-- ==== Sys2Proof/Word.lean ====
section
/-! DEFINITION. The words of HUFFCORE: bytes, interface words and bit strings (00_scope.md R12 to R14). -/

namespace Sys2Proof

/-- A byte, 0 to 255, unsigned (00_scope.md R12). A symbol is a byte. -/
abbrev Byte := BitVec 8

/-- A word of the interface registers (10_state.md R23). -/
abbrev Word := BitVec 32

/-- A bit string, first bit first (00_scope.md R14). -/
abbrev Bits := List Bool

end Sys2Proof
end

