-- ==== Sys2Proof/Machine/RegisterMap.lean ====
section
/-! DEFINITION. The register map: the four offsets and the width of an access (10_state.md R23,
20_memory.md R67, R68). -/

namespace Sys2Proof.Machine

/-- The four register offsets of 10_state.md R23. -/
def registerOffset (offset : Nat) : Bool :=
  offset == 0x00 || offset == 0x04 || offset == 0x08 || offset == 0x0C

/-- The width of a register access, the only one the block supports (20_memory.md R67). -/
def registerWidth : Nat := 32

end Sys2Proof.Machine
end

