-- ==== Sys2Proof/Config.lean ====
section
/-! DEFINITION. What an implementation fixes (00_scope.md R10, 10_state.md R21, 40_commands.md R132) and the free
values, which nothing in the spec fixes. -/

namespace Sys2Proof

/-- How much one step of the machine does when a command is started: 40_commands.md R132 recommends one atomic step
for the whole command and allows a finer model with one step for each micro-operation. -/
inductive Grain where
  /-- One step runs a whole command; STATE = BUSY is never observed. -/
  | command
  /-- The CMD write only starts the command; each later step runs one micro-operation. -/
  | microOp
  deriving DecidableEq, Repr

/-- The parameters the model takes as arguments (00_scope.md R10, decision D4). -/
structure Config where
  /-- LEN_BITS: the width of every byte count. -/
  lenBits : Nat
  /-- IBUF_BYTES: the capacity of the input buffer. -/
  ibufBytes : Nat
  /-- OBUF_BYTES: the capacity of the output buffer. -/
  obufBytes : Nat
  /-- The grain of a step (log 1). -/
  grain : Grain
  deriving DecidableEq, Repr

/-- The bounds 00_scope.md R10 sets: both capacities are at most `2^LEN_BITS − 1`. It sets none on LEN_BITS. -/
abbrev Config.wf (c : Config) : Prop :=
  c.ibufBytes < 2 ^ c.lenBits ∧ c.obufBytes < 2 ^ c.lenBits

/-- DESIGN CHOICE (log 2): the parameters a reset machine is written with, LEN_BITS = 32 (10_state.md R23's default)
and both buffers as large as R10 allows, one atomic step a command (R132's recommendation). -/
def Config.standard : Config :=
  { lenBits := 32, ibufBytes := 0xFFFFFFFF, obufBytes := 0xFFFFFFFF, grain := .command }

/-- A free value: what it is, nobody knows and nothing can be proved about it. Each use applies it to the counter
`freeCtr` of State and then moves the counter on (log 6, log 7, log 15, log 23). -/
opaque Config.freeValue : Nat → BitVec 32

end Sys2Proof
end

