-- ==== Sys2Proof/Syntax.lean ====
section
/-! DEFINITION. The nine instructions of spec/opcode_table.json, the two encoded formats, and the moves a host can
make (30_encoding.md R90, R93, R118, R120). -/

namespace Sys2Proof

/-- The nine instructions: the two host commands and the seven micro-operations they are made of (00_scope.md R3).
None has an operand field: every operand is implicit (10_state.md R22, 30_encoding.md R90). -/
inductive Instr where
  /-- ENCODE, CMD word 0x00000001 (40_commands.md R135). -/
  | encode
  /-- DECODE, CMD word 0x00000002 (40_commands.md R140). -/
  | decode
  /-- FCOUNT, PHASE code 1 (41_frequency_counter.md R161). -/
  | fcount
  /-- TBUILD, PHASE code 2 (42_tree_builder.md R172). -/
  | tbuild
  /-- CGEN, PHASE code 3 (43_code_table_generator.md R191). -/
  | cgen
  /-- BPACK, PHASE code 4 (45_bit_packer.md R231). -/
  | bpack
  /-- TSER, PHASE code 5 (44_table_codec.md R201). -/
  | tser
  /-- TDES, PHASE code 8 (44_table_codec.md R210). -/
  | tdes
  /-- BWALK, PHASE code 9 (46_decoder.md R251). -/
  | bwalk
  deriving DecidableEq, Repr

/-- The two formats of 30_encoding.md R90 and R93. -/
inductive Format where
  /-- A 32-bit word written to CMD. -/
  | cmd
  /-- The 4-bit PHASE field of STATUS. -/
  | phase
  deriving DecidableEq, Repr

/-- The width of a format in bits (30_encoding.md R91, R93). -/
def Format.width : Format → Nat
  | .cmd => 32
  | .phase => 4

/-- A code as a number, with the format it is meant in. -/
structure Coded where
  fmt : Format
  value : Nat
  deriving DecidableEq, Repr

/-- One move of the host (30_encoding.md R118, 10_state.md R23, 20_memory.md R60). `offset` is a byte offset from
REG_BASE, `width` the access width in bits, `index` a byte index from 0. -/
inductive HostMove where
  /-- A slot in which the host makes no access; the core moves (log 9). -/
  | idle
  /-- A write of `v` to the register at `offset`. -/
  | writeReg (offset width : Nat) (v : BitVec width)
  /-- A read of the register at `offset`. -/
  | readReg (offset width : Nat)
  /-- A write of `b` to IBUF[`index`]. -/
  | writeIbuf (index : Nat) (b : Byte)
  /-- A read back of IBUF[`index`] (20_memory.md R60). -/
  | readIbuf (index : Nat)
  /-- A write to OBUF, which the host may not make (20_memory.md R60). -/
  | writeObuf (index : Nat) (b : Byte)
  /-- A read of OBUF[`index`]. -/
  | readObuf (index : Nat)
  /-- `WAIT`: read STATUS until STATE = DONE. -/
  | wait
  /-- `COPYBACK`: OBUF[0 .. OUT_LEN − 1] to IBUF, OUT_LEN to IN_LEN. -/
  | copyback
  /-- `RESET`: assert and release reset. -/
  | reset
  deriving DecidableEq, Repr

end Sys2Proof
end

