-- ==== Sys2Proof/WellFormed.lean ====
section
/-! DEFINITION. Well-formed instructions, codes and host moves. -/

namespace Sys2Proof

/-- An instruction has no operand that could be ill formed (30_encoding.md R90: the whole word is the opcode), so
every one is well formed. -/
def Instr.wf : Instr → Bool
  | .encode => true
  | .decode => true
  | .fcount => true
  | .tbuild => true
  | .cgen => true
  | .bpack => true
  | .tser => true
  | .tdes => true
  | .bwalk => true

/-- A code fits its format's width. -/
def Coded.fits (c : Coded) : Bool := c.value < 2 ^ c.fmt.width

/-- A code is not one of the reserved values of 30_encoding.md R92 and R93. -/
def Coded.assigned (c : Coded) : Bool :=
  match c.fmt with
  | .cmd => c.value == 1 || c.value == 2
  | .phase => (1 ≤ c.value && c.value ≤ 5) || c.value == 8 || c.value == 9

/-- A code that names an instruction. -/
def Coded.wf (c : Coded) : Bool := c.fits && c.assigned

/-- A move the block supports: whole aligned 32-bit words at the four offsets (20_memory.md R67, R68), bytes inside
the buffers (R60), and no host write to OBUF. When the move may be made is another matter (70_reset_and_hazards.md
R321). -/
def HostMove.wf (c : Config) : HostMove → Bool
  | .idle => true
  | .writeReg offset width _ => Machine.registerOffset offset && width == Machine.registerWidth
  | .readReg offset width => Machine.registerOffset offset && width == Machine.registerWidth
  | .writeIbuf index _ => index < c.ibufBytes
  | .readIbuf index => index < c.ibufBytes
  | .writeObuf _ _ => false
  | .readObuf index => index < c.obufBytes
  | .wait => true
  | .copyback => true
  | .reset => true

end Sys2Proof
end

