-- ==== Sys2Proof/Decode.lean ====
section
/-! DEFINITION. The command decoder (30_encoding.md R91, R92), the PHASE decoder (R93), decoding of stored bytes, and
the encoder written from the same tables (R120). -/

namespace Sys2Proof

/-- Why a code is not an instruction. -/
inductive Reject where
  /-- A CMD word other than 1 and 2 (30_encoding.md R92). -/
  | reservedCommand (v : Word)
  /-- PHASE code 0: no micro-operation is running (30_encoding.md R93). -/
  | phaseNone
  /-- A PHASE code that is never produced (30_encoding.md R93). -/
  | reservedPhase (c : BitVec 4)
  /-- A PHASE code is 4 bits wide; the byte it was laid out in has a bit set above them. -/
  | phaseTooWide
  /-- Neither one byte (a PHASE code) nor four bytes (a CMD word). -/
  | badLength
  deriving DecidableEq, Repr

/-- "if OP = 1 then ENCODE, else if OP = 2 then DECODE, else reserved" (30_encoding.md R91). -/
def decodeCmd (v : Word) : Except Reject Instr :=
  if v = 1 then .ok .encode
  else if v = 2 then .ok .decode
  else .error (.reservedCommand v)

/-- The micro-operation a PHASE code names (30_encoding.md R93). -/
def decodePhase (c : BitVec 4) : Except Reject Instr :=
  if c = 0 then .error .phaseNone
  else if c = 1 then .ok .fcount
  else if c = 2 then .ok .tbuild
  else if c = 3 then .ok .cgen
  else if c = 4 then .ok .bpack
  else if c = 5 then .ok .tser
  else if c = 8 then .ok .tdes
  else if c = 9 then .ok .bwalk
  else .error (.reservedPhase c)

/-- Decoding of laid-out bytes: four bytes are a CMD word, least significant byte first (log 18), one byte is a
PHASE code. -/
def decodeBytes : List Byte → Except Reject Instr
  | [b] => if b.toNat < 16 then decodePhase (b.setWidth 4) else .error .phaseTooWide
  | [b0, b1, b2, b3] => decodeCmd (b3 ++ b2 ++ b1 ++ b0)
  | _ => .error .badLength

/-- The bytes of a number of `nbits` bits, least significant first. -/
def tableBytes (nbits w : Nat) : List Byte :=
  (List.range ((nbits + 7) / 8)).map fun i => BitVec.ofNat 8 (w / 2 ^ (8 * i))

/-- What the decoder reads from a row of spec/opcode_table.json whose bits are `w`. -/
def decodeTableWord (nbits w : Nat) : Option Instr :=
  match decodeBytes (tableBytes nbits w) with
  | .ok i => some i
  | .error _ => none

/-- The code of an instruction, from the table of 30_encoding.md R120. -/
def encode : Instr → Coded
  | .encode => ⟨.cmd, 0x00000001⟩
  | .decode => ⟨.cmd, 0x00000002⟩
  | .fcount => ⟨.phase, 0x1⟩
  | .tbuild => ⟨.phase, 0x2⟩
  | .cgen => ⟨.phase, 0x3⟩
  | .bpack => ⟨.phase, 0x4⟩
  | .tser => ⟨.phase, 0x5⟩
  | .tdes => ⟨.phase, 0x8⟩
  | .bwalk => ⟨.phase, 0x9⟩

/-- The bytes an instruction's code is laid out in. -/
def encodeBytes (i : Instr) : List Byte := tableBytes (encode i).fmt.width (encode i).value

/-- The decoder applied to a code in its format. -/
def decodeCoded (c : Coded) : Except Reject Instr :=
  match c.fmt with
  | .cmd => decodeCmd (BitVec.ofNat 32 c.value)
  | .phase => decodePhase (BitVec.ofNat 4 c.value)

end Sys2Proof
end

