-- ==== Sys2Proof/Machine/State.lean ====
section
/-! DEFINITION. The state of HUFFCORE as plain data (10_state.md, 20_memory.md R60), its reasons to stop, and the state
after reset (10_state.md R46). -/

namespace Sys2Proof.Machine

/-- The STATE field (10_state.md R25). Value 3 never occurs and has no constructor (93_implementation_defined.md
U10). -/
inductive Stat where
  /-- No command since reset. -/
  | idle
  /-- A command is running. -/
  | busy
  /-- The last command has ended. -/
  | done
  deriving DecidableEq, Repr

/-- The PHASE field (10_state.md R25, 30_encoding.md R93). -/
inductive Phase where
  | none
  | fcount
  | tbuild
  | cgen
  | bpack
  | tser
  | tdes
  | bwalk
  deriving DecidableEq, Repr

/-- The ERR field and the error kinds (60_exceptions.md R271). -/
inductive Err where
  | ok
  | malformedTable
  | truncatedPayload
  | unknownCode
  | capacityExceeded
  | illegalCommand
  deriving DecidableEq, Repr

/-- What a node of the arena is (10_state.md R33): a leaf with its symbol, or an internal node with the indexes of its
children. -/
inductive NodeKind where
  | leaf (sym : Byte)
  | internal (left right : Nat)
  deriving DecidableEq, Repr

/-- NODE[i] (10_state.md R33): its kind, its weight and whether it is still a candidate. -/
structure Node where
  kind : NodeKind
  w : Nat
  live : Bool
  deriving DecidableEq, Repr

/-- DESIGN CHOICE (log 3): what an arena element that holds no inserted node holds. -/
def Node.atReset : Node := { kind := .leaf 0, w := 0, live := false }

/-- MAX_NODES, the number of elements of the arena (00_scope.md R9, 10_state.md R33). -/
def maxNodes : Nat := 511

/-- DT[k] (10_state.md R39). DT[k].len is the length of `bits`. -/
structure DtEntry where
  bits : Bits
  sym : Byte
  deriving DecidableEq, Repr

/-- DT[k].len (10_state.md R39). -/
abbrev DtEntry.len (e : DtEntry) : Nat := e.bits.length

/-- A buffer's contents: the bytes that hold a value, by index, strictly rising (`Memory.wf`). An unlisted index holds
NO value (10_state.md R48, log 4). -/
abbrev Memory := List Host.Cell

/-- What the host's last read on the bus returned (log 24). -/
inductive Reply where
  | none
  | word (v : Word)
  | byte (b : Byte)
  deriving DecidableEq, Repr

/-- The machine. INVENTORY.md's "State" names the rule and the reset value of every field. -/
structure State where
  /-- The parameters (00_scope.md R10). No step changes them. -/
  cfg : Config
  stat : Stat
  phase : Phase
  err : Err
  /-- IN_LEN (10_state.md R26). -/
  inLen : Nat
  /-- OUT_LEN (10_state.md R27). -/
  outLen : Nat
  /-- The input buffer (20_memory.md R61). -/
  ibuf : Memory
  /-- The output buffer (20_memory.md R62). -/
  obuf : Memory
  /-- `n`, IN_LEN as latched at the start of the command (40_commands.md R131). -/
  n : Nat
  /-- IPOS and OPOS (10_state.md R29). -/
  ipos : Nat
  opos : Nat
  /-- FREQ[0 .. 255] (10_state.md R31). -/
  freq : Vector Nat 256
  /-- NSYM (10_state.md R32). -/
  nsym : Nat
  /-- NODE[0 .. NNODE − 1], in order of insertion (10_state.md R33); the elements from NNODE on are at
  `Node.atReset` (log 3). -/
  nodes : List Node
  /-- ROOT (10_state.md R34). -/
  root : Nat
  /-- CODE_BITS[0 .. 255]; each string has exactly CODE_LEN[s] bits (10_state.md R36). -/
  code : Vector Bits 256
  /-- HDR_LEN, TOTALBITS, PAD, PK_ACC, PK_N (10_state.md R37). -/
  hdrLen : Nat
  totalBits : Nat
  pad : Fin 8
  pkAcc : Byte
  pkN : Fin 8
  /-- TB, TN, PB (10_state.md R38). -/
  tb : Byte
  tn : Nat
  pb : Byte
  /-- DT[0 .. DT_N − 1], in reading order (10_state.md R39). -/
  dt : List DtEntry
  /-- LMAX (10_state.md R40). -/
  lmax : Nat
  /-- PAY_START (10_state.md R41). -/
  payStart : Nat
  /-- ACC (10_state.md R42). -/
  acc : Bits
  /-- OCNT (10_state.md R42). -/
  ocnt : Nat
  /-- The MODEL's own: the host's moves still to come (log 9). -/
  host : List HostMove
  /-- The MODEL's own: what the host's last read returned (log 24). -/
  reply : Reply
  /-- The MODEL's own: the counter free values are drawn with (log 15). -/
  freeCtr : Nat
  deriving DecidableEq, Repr

/-- Why a step stops with a fault. -/
inductive Fault where
  /-- The core, or a read-back, met an IBUF byte that the host has not written since reset (10_state.md R48,
  70_reset_and_hazards.md R315). Raised by FCOUNT, BPACK, TDES, BWALK and host reads of IBUF. Safe: the hardware would
  go on with some value. -/
  | ibufUnwritten
  /-- The host read an OBUF byte that is not valid (10_state.md R48, 70_reset_and_hazards.md R322). Raised by host
  reads of OBUF and by COPYBACK. Safe: the hardware would return some value. -/
  | obufUnspecified
  /-- A buffer index at or past the buffer's capacity (20_memory.md R60): there is no such byte. Raised by buffer
  accesses. Safe: the machine stops. -/
  | noSuchByte
  /-- CGEN met an index that names none of the 511 nodes, or a path longer than 255 bits: the arena is not a tree that TBUILD
  makes (43_code_table_generator.md R195). Raised by CGEN only. Safe: the machine stops (log 8). -/
  | notATree
  deriving DecidableEq, Repr

/-- Why a step refuses. -/
inductive Refusal where
  /-- An instruction with no meaning yet; raised by no arm of `exec`. Safe. -/
  | notModelled (mnemonic : String)
  /-- A host access that is undefined while STATE = BUSY (70_reset_and_hazards.md R321, 93_implementation_defined.md
  U1). Raised by host moves and by ENCODE and DECODE started in a BUSY state. Safe by stopping (log 10). -/
  | hostAccessWhileBusy
  /-- A register access that is not 32 bits wide (20_memory.md R67). Raised by host moves. Safe. -/
  | registerWidth
  /-- An offset that is no register (20_memory.md R68). Raised by host moves. Safe. -/
  | noSuchRegister
  /-- A host write to OBUF, which the host cannot write (20_memory.md R60). Raised by host moves. Safe (log 17). -/
  | obufNotWritable
  /-- STATE = BUSY with PHASE = NONE, which no run reaches between two steps. Raised by the core's move. Safe
  (log 21). -/
  | busyWithoutPhase
  deriving DecidableEq, Repr

/-- NNODE (10_state.md R34): the number of nodes inserted so far, and the next sequence number. -/
abbrev State.nnode (s : State) : Nat := s.nodes.length

/-- CODE_LEN[b] (10_state.md R36). -/
abbrev State.codeLen (s : State) (b : Byte) : Nat := (s.code.get b.toFin).length

/-- DT_N (10_state.md R39). -/
abbrev State.dtN (s : State) : Nat := s.dt.length

/-- ACC_LEN (10_state.md R42). -/
abbrev State.accLen (s : State) : Nat := s.acc.length

/-- The machine right after reset (10_state.md R46). STATE, PHASE, ERR, IN_LEN and OUT_LEN are the spec's; both
buffers hold no value; every working register and table is a DESIGN CHOICE (log 3), as are the MODEL's own fields
(log 2, log 9, log 15, log 24). -/
def State.reset : State :=
  { cfg := Config.standard, stat := .idle, phase := .none, err := .ok, inLen := 0, outLen := 0, ibuf := [], obuf := []
    n := 0, ipos := 0, opos := 0, freq := Vector.replicate 256 0, nsym := 0, nodes := [], root := 0
    code := Vector.replicate 256 [], hdrLen := 0, totalBits := 0, pad := 0, pkAcc := 0, pkN := 0, tb := 0, tn := 0
    pb := 0, dt := [], lmax := 0, payStart := 0, acc := [], ocnt := 0, host := [], reply := .none, freeCtr := 0 }

end Sys2Proof.Machine
end

