-- ==== Sys2Proof/Machine/Bitstrings.lean ====
section
/-! DEFINITION. Bit strings in bytes, most significant bit first (00_scope.md R12 to R14, 20_memory.md R64, R65). -/

namespace Sys2Proof.Machine

/-- `ceil8(L) = (L + 7) div 8` (00_scope.md R12). -/
def ceil8 (len : Nat) : Nat := (len + 7) / 8

/-- `(8 − L mod 8) mod 8`: how many bits are missing to a whole number of bytes (00_scope.md R14). -/
def padCount (len : Nat) : Fin 8 := ⟨(8 - len % 8) % 8, Nat.mod_lt _ (by decide)⟩

/-- The symbols 0 to 255 in ascending order, as unsigned numbers (00_scope.md R12). -/
def alphabet : List Byte := (List.range 256).map (BitVec.ofNat 8)

/-- The elements of a table indexed by symbol, with their symbols, in ascending symbol order. -/
def symbolTable {α : Type} (v : Vector α 256) : List (Byte × α) := alphabet.zip v.toList

/-- The 8 bits of a byte in stream order: the j-th is `b[7 - j]` (00_scope.md R13). -/
def byteBits (b : Byte) : Bits := (List.range 8).map fun j => b.getLsbD (7 - j)

/-- The weight of a bit at stream position `t` of its byte: `bit * 2^(7 - t)` (44_table_codec.md R201). -/
def bitWeight (bit : Bool) (t : Nat) : Nat := if bit then 2 ^ (7 - t) else 0

/-- `codebyte(c, L, j)` (44_table_codec.md R201, R202): the code bits 8j to 8j + 7, the first in bit 7, missing bits
0. -/
def codeByte (c : Bits) (j : Nat) : Byte :=
  BitVec.ofNat 8 (((List.range 8).map fun t => bitWeight (c.getD (8 * j + t) false) t).sum)

/-- `pack(c)` (00_scope.md R14). -/
def pack (c : Bits) : List Byte := (List.range (ceil8 c.length)).map (codeByte c)

/-- `unpack(bytes, n)` (00_scope.md R14): the first n bits of the bytes. -/
def unpack (bytes : List Byte) (n : Nat) : Bits := (bytes.flatMap byteBits).take n

end Sys2Proof.Machine
end

