-- ==== Sys2Proof/Machine/Ops.lean ====
section
/-! DEFINITION. The shared operations: buffers as memories, the core's buffer accesses, starting and ending a command,
and TAKING AN ERROR (`State.raiseErr`, 60_exceptions.md R280). -/

namespace Sys2Proof.Machine

/-! ### Memories -/

/-- The canonical form: indexes strictly rising. An unlisted index holds no value, so no entry can equal what an
unlisted index reads as. -/
abbrev Memory.wf (m : Memory) : Prop := m.Pairwise fun x y => x.1 < y.1

/-- The byte at an index, if it holds a value. -/
def Memory.read : Memory → Nat → Option Byte
  | [], _ => none
  | (a, b) :: m, i => if i = a then some b else Memory.read m i

/-- A write of one byte, keeping the canonical form. -/
def Memory.write : Memory → Nat → Byte → Memory
  | [], i, v => [(i, v)]
  | (a, b) :: m, i, v =>
    if i < a then (i, v) :: (a, b) :: m
    else if i = a then (i, v) :: m
    else (a, b) :: Memory.write m i v

/-- Bytes written at ascending indexes from `i` (20_memory.md R72). -/
def Memory.writeBytes (m : Memory) (i : Nat) : List Byte → Memory
  | [] => m
  | b :: bs => Memory.writeBytes (Memory.write m i b) (i + 1) bs

/-- The memory that holds exactly the bytes given, from index 0. -/
def Memory.ofBytes (bs : List Byte) : Memory := bs.zipIdx.map fun p => (p.2, p.1)

/-! ### Leaving a micro-operation early -/

/-- How a micro-operation ends before its last statement. -/
inductive Stop where
  /-- `raise E()` in the state given (40_commands.md R147). -/
  | raised (e : Err) (s : State)
  /-- The model stops. -/
  | fault (f : Fault)
  deriving Repr

/-! ### The core's accesses -/

/-- The byte at IBUF[i]. An index past the capacity does not exist (20_memory.md R60); a byte the host never wrote has
no value (10_state.md R48). -/
def ibufByte (s : State) (i : Nat) : Except Fault Byte :=
  if i < s.cfg.ibufBytes then
    match s.ibuf.read i with
    | some b => .ok b
    | none => .error .ibufUnwritten
  else .error .noSuchByte

/-- `MemRead(IBUF, i, 1)` (00_scope.md R15). -/
def ibufRead (s : State) (i : Nat) : Except Stop Byte :=
  match ibufByte s i with
  | .ok b => .ok b
  | .error f => .error (.fault f)

/-- `IBUF[i .. i + k − 1]`, read in ascending order. -/
def ibufReadRange (s : State) (i : Nat) : Nat → Except Stop (List Byte)
  | 0 => .ok []
  | k + 1 => do
    let b ← ibufRead s i
    let bs ← ibufReadRange s (i + 1) k
    .ok (b :: bs)

/-- `MemWrite(OBUF, i, 1, b)` (00_scope.md R15). -/
def obufWrite (s : State) (i : Nat) (b : Byte) : Except Stop State :=
  if i < s.cfg.obufBytes then .ok { s with obuf := s.obuf.write i b }
  else .error (.fault .noSuchByte)

/-- Bytes written to OBUF from OPOS on, OPOS going up by one for each (20_memory.md R85). -/
def obufPut : List Byte → State → Except Stop State
  | [], s => .ok s
  | b :: bs, s => do
    let t ← obufWrite s s.opos b
    obufPut bs { t with opos := t.opos + 1 }

/-! ### Commands -/

/-- The clearing of 10_state.md R45. Registers that rule does not name keep their values. -/
def State.clearWorking (s : State) : State :=
  { s with
    freq := Vector.replicate 256 0, nsym := 0, nodes := [], code := Vector.replicate 256 [], totalBits := 0, pad := 0
    pkAcc := 0, pkN := 0, hdrLen := 0, dt := [], lmax := 0, acc := [], ocnt := 0, ipos := 0, opos := 0 }

/-- Command start (40_commands.md R131). The CMD write invalidates OBUF at once (70_reset_and_hazards.md R322), so no
OBUF byte holds a value (log 5). -/
def State.startCommand (s : State) : State :=
  { s.clearWorking with stat := .busy, err := .ok, outLen := 0, phase := .none, n := s.inLen, obuf := [] }

/-- `PHASE <- p`: the micro-operation that runs next (00_scope.md R15). -/
def State.enterPhase (s : State) (p : Phase) : State := { s with phase := p }

/-- Command end without error, with result length `len` (40_commands.md R134). -/
def State.endCommand (s : State) (len : Nat) : State :=
  { s with phase := .none, outLen := len, stat := .done }

/-- TAKING AN ERROR (60_exceptions.md R280): ERR gets the code, OUT_LEN 0, PHASE NONE, STATE DONE. Nothing is saved,
no mode changes, control goes nowhere. Every OBUF byte then holds any value: none is listed (log 5). There is no
handler and no return (R282): the next CMD write is taken from this state as from any other. -/
def State.raiseErr (s : State) (e : Err) : State :=
  { s with err := e, outLen := 0, phase := .none, stat := .done, obuf := [] }

/-- The outcome of a micro-operation or command: a raised error is TAKEN, which is a next state. -/
def finish : Except Stop State → Host.Outcome State Fault Refusal
  | .ok s => .next s
  | .error (.raised e s) => .next (s.raiseErr e)
  | .error (.fault f) => .fault f

/-- A value that a free choice of `k` possibilities gives, and the counter moved on (log 15). -/
def State.drawFree (s : State) (k : Nat) : Nat × State :=
  ((Config.freeValue s.freeCtr).toNat % k, { s with freeCtr := s.freeCtr + 1 })

/-- RESET (10_state.md R46, R47, 70_reset_and_hazards.md R310, R311): every piece of the block's state takes its reset
value; the parameters, the host's remaining moves and the free-value counter are not the block's. -/
def State.applyReset (s : State) : State :=
  { State.reset with cfg := s.cfg, host := s.host, freeCtr := s.freeCtr }

end Sys2Proof.Machine
end

