-- ==== Sys2Proof/Machine/Operands.lean ====
section
/-! DEFINITION. Operand forms. Every operand is implicit (10_state.md R22): the buffer contents with their length, and
the fields of the container (30_encoding.md R94 to R108). -/

namespace Sys2Proof.Machine

/-- The number of table entries the table-size byte stands for (30_encoding.md R95, R105), the empty container
apart. -/
def entryCount (t : Byte) : Nat := if t = 0 then 256 else t.toNat

/-- The table-size byte for a number of symbols (30_encoding.md R105): 256 is written as 0. -/
def tableSizeByte (nsym : Nat) : Byte := BitVec.ofNat 8 (nsym % 256)

/-- The two bytes of the empty container (30_encoding.md R104). -/
def emptyContainer : List Byte := [0x00, 0x00]

/-- The bytes of a table entry: S, L, CODE (30_encoding.md R97). -/
def entryBytes (sym : Byte) (c : Bits) : List Byte := sym :: BitVec.ofNat 8 c.length :: pack c

/-- The length in bytes of a table entry whose codeword has `len` bits (30_encoding.md R97). -/
def entryLength (len : Nat) : Nat := 2 + ceil8 len

/-- The codeword of `len` bits in the bytes of a CODE field (30_encoding.md R107). -/
def codeword (bytes : List Byte) (len : Nat) : Bits := unpack bytes len

/-- The number of payload bits in `m` payload bytes with padding count `p` (30_encoding.md R108). -/
def payloadBits (m p : Nat) : Nat := if m = 0 then 0 else 8 * (m - 1) + (8 - p)

/-- `lookup(a)` (10_state.md R39): of the entries whose codeword is `a`, the last. -/
def lookup (dt : List DtEntry) (a : Bits) : Option Byte :=
  (dt.reverse.find? fun e => e.bits == a).map DtEntry.sym

/-- The sum of `2 + ceil8(CODE_LEN[s])` over the symbols that have a code, and 2 (40_commands.md R138). -/
def headerLength (code : Vector Bits 256) : Nat :=
  2 + ((symbolTable code).map fun p => if 0 < p.2.length then entryLength p.2.length else 0).sum

/-- `tb`, the sum of `CODE_LEN[s] × FREQ[s]` (40_commands.md R135). -/
def codedBits (code : Vector Bits 256) (freq : Vector Nat 256) : Nat :=
  (List.zipWith (fun c f => c.length * f) code.toList freq.toList).sum

end Sys2Proof.Machine
end

