-- ==== Sys2Proof/Machine/BitPacker.lean ====
section
/-! DEFINITION. BPACK, the bit-packer (45_bit_packer.md R230 to R237). -/

namespace Sys2Proof.Machine

/-- One codeword bit packed (45_bit_packer.md R231, R232): a full byte is written to OBUF[OPOS]. -/
def packBit (bit : Bool) (s : State) : Except Stop State :=
  let a := s.pkAcc + BitVec.ofNat 8 (bitWeight bit s.pkN.val)
  let t := { s with totalBits := s.totalBits + 1 }
  if s.pkN = 7 then do
    let u ← obufWrite t t.opos a
    .ok { u with opos := u.opos + 1, pkAcc := 0, pkN := 0 }
  else .ok { t with pkAcc := a, pkN := s.pkN + 1 }

/-- The bits of a codeword, first bit first. -/
def packBits : Bits → State → Except Stop State
  | [], s => .ok s
  | bit :: bits, s => do
    let t ← packBit bit s
    packBits bits t

/-- The loop over `k` more input bytes from IPOS, in input order. -/
def bpackLoop : Nat → State → Except Stop State
  | 0, s => .ok s
  | k + 1, s => do
    let b ← ibufRead s s.ipos
    let t ← packBits (s.code.get b.toFin) s
    bpackLoop k { t with ipos := t.ipos + 1 }

/-- The partial last byte, if there is one (45_bit_packer.md R233). -/
def flushPartial (s : State) : Except Stop State :=
  if 0 < s.pkN.val then do
    let t ← obufWrite s s.opos s.pkAcc
    .ok { t with opos := t.opos + 1 }
  else .ok s

/-- BPACK (45_bit_packer.md R231): PAD is R234's count. -/
def bpack (s : State) : Except Stop State := do
  let t ← bpackLoop s.n { s with opos := s.hdrLen, pkAcc := 0, pkN := 0, totalBits := 0, ipos := 0 }
  let u ← flushPartial t
  .ok { u with pad := padCount u.totalBits }

/-- The meaning of BPACK. -/
def execBpack (s : State) : Host.Outcome State Fault Refusal := finish (bpack s)

end Sys2Proof.Machine
end

