-- ==== Sys2Proof/Machine/CodeTable.lean ====
section
/-! DEFINITION. CGEN, the code-table generator (43_code_table_generator.md R190 to R195). -/

namespace Sys2Proof.Machine

/-- The depth bound: a path has at most 255 bits (43_code_table_generator.md R191, R195), so at most 256 nodes. -/
def maxNodesOnPath : Nat := 256

/-- NODE[i] (10_state.md R33). The arena has 511 elements; one at or past NNODE, which no command reads, holds its reset
value (log 3). -/
def nodeAt (ns : List Node) (i : Nat) : Option Node := if i < maxNodes then some (ns.getD i Node.atReset) else none

/-- `walk(i, path)` (43_code_table_generator.md R191). `depth` is how many more nodes a path may have; where it runs out,
or where an index names none of the 511 nodes, the arena is no tree that TBUILD makes (log 8). -/
def walkTree (ns : List Node) : Nat → Nat → Bits → Vector Bits 256 → Except Stop (Vector Bits 256)
  | 0, _, _, _ => .error (.fault .notATree)
  | depth + 1, i, path, code =>
    match nodeAt ns i with
    | none => .error (.fault .notATree)
    | some nd =>
      match nd.kind with
      | .leaf sym => .ok (code.set sym.toNat path sym.isLt)
      | .internal left right => do
        let c ← walkTree ns depth left (path ++ [false]) code
        walkTree ns depth right (path ++ [true]) c

/-- The code table of the arena: "0" for a root that is a leaf (43_code_table_generator.md R192), else the paths. -/
def generateCodes (ns : List Node) (root : Nat) (code : Vector Bits 256) : Except Stop (Vector Bits 256) :=
  match (nodeAt ns root).map Node.kind with
  | some (.leaf sym) => .ok (code.set sym.toNat [false] sym.isLt)
  | _ => walkTree ns maxNodesOnPath root [] code

/-- CGEN (43_code_table_generator.md R191). -/
def cgen (s : State) : Except Stop State := do
  let c ← generateCodes s.nodes s.root s.code
  .ok { s with code := c }

/-- The meaning of CGEN. -/
def execCgen (s : State) : Host.Outcome State Fault Refusal := finish (cgen s)

end Sys2Proof.Machine
end

