-- ==== Sys2Proof/Machine/Decoder.lean ====
section
/-! DEFINITION. BWALK, the bit-stream walker (46_decoder.md R250 to R258). -/

namespace Sys2Proof.Machine

/-- Emitting a symbol (46_decoder.md R251, R255): the capacity is checked at this moment, and the accumulator is
cleared. OPOS keeps step with OCNT (20_memory.md R85, log 11). -/
def emitSymbol (sym : Byte) (s : State) : Except Stop State :=
  if s.ocnt = s.cfg.obufBytes then .error (.raised .capacityExceeded s)
  else do
    let t ← obufWrite s s.ocnt sym
    .ok { t with ocnt := t.ocnt + 1, opos := t.ocnt + 1, acc := [] }

/-- One payload bit: append, probe, and emit on a match or raise UnknownCode past LMAX (46_decoder.md R252, R258). -/
def scanBit (bit : Bool) (s : State) : Except Stop State :=
  let t := { s with acc := s.acc ++ [bit] }
  match lookup t.dt t.acc with
  | some sym => emitSymbol sym t
  | none => if t.lmax < t.acc.length then .error (.raised .unknownCode t) else .ok t

/-- Payload bits in stream order. -/
def scanBits : Bits → State → Except Stop State
  | [], s => .ok s
  | bit :: bits, s => do
    let t ← scanBit bit s
    scanBits bits t

/-- How many leading bits of the payload byte at index `i` are scanned (46_decoder.md R253). -/
def bitsScanned (s : State) (i : Nat) : Nat := if i = s.n - 1 then 8 - s.pb.toNat else 8

/-- The loop over `k` more payload bytes from IPOS. -/
def walkBytes : Nat → State → Except Stop State
  | 0, s => .ok s
  | k + 1, s => do
    let b ← ibufRead s s.ipos
    let t ← scanBits ((byteBits b).take (bitsScanned s s.ipos)) s
    walkBytes k { t with ipos := t.ipos + 1 }

/-- BWALK (46_decoder.md R251): a partial codeword left at the end is TruncatedPayload (R257). -/
def bwalk (s : State) : Except Stop State := do
  let t ← walkBytes (s.n - s.payStart) { s with acc := [], ocnt := 0, ipos := s.payStart, opos := 0 }
  if 0 < t.acc.length then .error (.raised .truncatedPayload t) else .ok t

/-- The meaning of BWALK. -/
def execBwalk (s : State) : Host.Outcome State Fault Refusal := finish (bwalk s)

end Sys2Proof.Machine
end

