-- ==== Sys2Proof/Machine/FrequencyCounter.lean ====
section
/-! DEFINITION. FCOUNT, the frequency counter (41_frequency_counter.md R161). -/

namespace Sys2Proof.Machine

/-- One input byte counted: NSYM goes up when its counter was 0, and the counter goes up by one. -/
def countByte (b : Byte) (s : State) : State :=
  { s with
    nsym := if s.freq.get b.toFin = 0 then s.nsym + 1 else s.nsym
    freq := s.freq.set b.toNat (s.freq.get b.toFin + 1) b.isLt }

/-- The loop over `k` more bytes from IPOS. -/
def fcountLoop : Nat → State → Except Stop State
  | 0, s => .ok s
  | k + 1, s => do
    let b ← ibufRead s s.ipos
    let t := countByte b s
    fcountLoop k { t with ipos := t.ipos + 1 }

/-- FCOUNT (41_frequency_counter.md R161). -/
def fcount (s : State) : Except Stop State := fcountLoop s.n { s with ipos := 0 }

/-- The meaning of FCOUNT. -/
def execFcount (s : State) : Host.Outcome State Fault Refusal := finish (fcount s)

end Sys2Proof.Machine
end

