-- ==== Sys2Proof/Machine/TableCodec.lean ====
section
/-! DEFINITION. TSER and TDES, the table serializer and deserializer (44_table_codec.md R200 to R215). -/

namespace Sys2Proof.Machine

/-- The entries of the symbols that have a code, in the order of the list given (44_table_codec.md R203). -/
def putEntries : List (Byte × Bits) → State → Except Stop State
  | [], s => .ok s
  | (sym, c) :: rest, s =>
    if 0 < c.length then do
      let t ← obufPut (entryBytes sym c) s
      putEntries rest t
    else putEntries rest s

/-- TSER (44_table_codec.md R201). -/
def tser (s : State) : Except Stop State := do
  let t ← obufWrite s 0 (tableSizeByte s.nsym)
  let u ← obufWrite t 1 (BitVec.ofNat 8 t.pad.val)
  putEntries (symbolTable s.code) { u with opos := 2 }

/-- The meaning of TSER. -/
def execTser (s : State) : Host.Outcome State Fault Refusal := finish (tser s)

/-- One table entry read at IPOS (44_table_codec.md R210), with the checks of R213 in their order. -/
def readEntry (s : State) : Except Stop State :=
  if s.n < s.ipos + 2 then .error (.raised .malformedTable s)
  else do
    let sym ← ibufRead s s.ipos
    let len ← ibufRead s (s.ipos + 1)
    if len = 0 then .error (.raised .malformedTable s)
    else if s.n < s.ipos + entryLength len.toNat then .error (.raised .malformedTable s)
    else do
      let bytes ← ibufReadRange s (s.ipos + 2) (ceil8 len.toNat)
      .ok { s with
        dt := s.dt ++ [{ bits := codeword bytes len.toNat, sym := sym }]
        lmax := max s.lmax len.toNat
        ipos := s.ipos + entryLength len.toNat }

/-- "loop exactly T times" (44_table_codec.md R210). -/
def readEntries : Nat → State → Except Stop State
  | 0, s => .ok s
  | k + 1, s => do
    let t ← readEntry s
    readEntries k t

/-- The container is the empty one (30_encoding.md R104): length 2, both bytes 0. -/
def isEmptyContainer (n : Nat) (t p : Byte) : Bool := n == 2 && t == 0 && p == 0

/-- The two header bytes and the number of entries they stand for (44_table_codec.md R210 to R212). -/
def readHeader (s : State) : Except Stop State :=
  if s.n < 2 then .error (.raised .malformedTable s)
  else do
    let t ← ibufRead s 0
    let p ← ibufRead s 1
    let u := { s with tb := t, pb := p }
    if isEmptyContainer s.n t p then .ok { u with tn := 0 }
    else if 7 < p.toNat then .error (.raised .malformedTable u)
    else .ok { u with tn := entryCount t }

/-- TDES (44_table_codec.md R210): PAY_START is where the table ends (R214). -/
def tdes (s : State) : Except Stop State := do
  let t ← readHeader s
  let u ← readEntries t.tn { t with ipos := 2 }
  .ok { u with payStart := u.ipos }

/-- The meaning of TDES. -/
def execTdes (s : State) : Host.Outcome State Fault Refusal := finish (tdes s)

end Sys2Proof.Machine
end

