-- ==== Sys2Proof/Machine/TreeBuilder.lean ====
section
/-! DEFINITION. TBUILD, the tree builder (42_tree_builder.md R170 to R177). -/

namespace Sys2Proof.Machine

/-- The leaves of step 1, in ascending symbol order (42_tree_builder.md R174). -/
def leafNodes (freq : Vector Nat 256) : List Node :=
  ((symbolTable freq).filter fun p => 1 ≤ p.2).map fun p => { kind := .leaf p.1, w := p.2, live := true }

/-- The live node lowest in the order of 42_tree_builder.md R171, smallest weight first and then smallest index, with
its weight. `base` is the index of the list's first node. -/
def lowestFrom (base : Nat) : List Node → Option (Nat × Nat)
  | [] => none
  | nd :: rest =>
    match lowestFrom (base + 1) rest with
    | none => if nd.live then some (base, nd.w) else none
    | some (j, w) => if nd.live && nd.w ≤ w then some (base, nd.w) else some (j, w)

/-- The index of the lowest candidate, if there is a candidate. -/
def lowestLive (ns : List Node) : Option Nat := (lowestFrom 0 ns).map Prod.fst

/-- `NODE[i].live <- 0`. -/
def markMerged (ns : List Node) (i : Nat) : List Node := ns.modify i fun nd => { nd with live := false }

/-- NODE[i].w. -/
def nodeWeight (ns : List Node) (i : Nat) : Nat := (ns[i]?.map Node.w).getD 0

/-- The number of candidates. -/
def liveCount (ns : List Node) : Nat := ns.countP Node.live

/-- One merge (42_tree_builder.md R172, R173): the lowest candidate becomes the left child, the lowest of the rest the
right child, and the new node is inserted with the next sequence number (R175). -/
def mergeStep (ns : List Node) : List Node :=
  match lowestLive ns with
  | none => ns
  | some a =>
    let ns₁ := markMerged ns a
    match lowestLive ns₁ with
    | none => ns
    | some b =>
      let ns₂ := markMerged ns₁ b
      ns₂ ++ [{ kind := .internal a b, w := nodeWeight ns a + nodeWeight ns b, live := true }]

/-- `while` more than one candidate is left, merge. `k` bounds the number of merges; each merge takes one candidate
away (42_tree_builder.md R176), so the number of candidates is enough. -/
def mergeLoop : Nat → List Node → List Node
  | 0, ns => ns
  | k + 1, ns => if 1 < liveCount ns then mergeLoop k (mergeStep ns) else ns

/-- The arena after step 1 and step 2. -/
def buildArena (ns : List Node) (freq : Vector Nat 256) : List Node :=
  mergeLoop (liveCount (ns ++ leafNodes freq)) (ns ++ leafNodes freq)

/-- ROOT gets the one candidate left. With no candidate at all, which R170 rules out in a command, ROOT is a free
value of its 9 bits (log 7). -/
def setRoot (s : State) : State :=
  match lowestLive s.nodes with
  | some i => { s with root := i }
  | none =>
    let d := s.drawFree 512
    { d.2 with root := d.1 }

/-- TBUILD (42_tree_builder.md R172). -/
def tbuild (s : State) : Except Stop State := .ok (setRoot { s with nodes := buildArena s.nodes s.freq })

/-- The meaning of TBUILD. -/
def execTbuild (s : State) : Host.Outcome State Fault Refusal := finish (tbuild s)

end Sys2Proof.Machine
end

