-- ==== Sys2Proof/Machine/Commands.lean ====
section
/-! DEFINITION. ENCODE and DECODE, and the sequencing of their micro-operations (40_commands.md R131 to R147). -/

namespace Sys2Proof.Machine

/-- Command start and the input capacity check, made before any micro-operation runs (40_commands.md R131, R133). -/
def beginCommand (first : Phase) (s : State) : Except Stop State :=
  let t := s.startCommand
  if t.cfg.ibufBytes < t.n then .error (.raised .capacityExceeded t)
  else .ok (t.enterPhase first)

/-- The empty input's short-circuit: the empty container (40_commands.md R135, R145). -/
def endEmpty (s : State) : Except Stop State :=
  if s.cfg.obufBytes < 2 then .error (.raised .capacityExceeded s)
  else do
    let t ← obufWrite s 0 0x00
    let u ← obufWrite t 1 0x00
    .ok (u.endCommand 2)

/-- Between CGEN and BPACK: HDR_LEN and the output capacity check (40_commands.md R135, R138, R139). -/
def measureOutput (s : State) : Except Stop State :=
  let t := { s with hdrLen := headerLength s.code }
  if t.cfg.obufBytes < t.hdrLen + ceil8 (codedBits t.code t.freq) then .error (.raised .capacityExceeded t)
  else .ok t

/-- The end of ENCODE (40_commands.md R135): OUT_LEN is HDR_LEN and the payload's bytes. -/
def endEncode (s : State) : State := s.endCommand (s.hdrLen + ceil8 s.totalBits)

/-- The end of DECODE (40_commands.md R140). -/
def endDecode (s : State) : State := s.endCommand s.ocnt

/-- ENCODE from its start to its end (40_commands.md R135, R137). -/
def encodeWhole (s : State) : Except Stop State := do
  let s ← beginCommand .fcount s
  let s ← fcount s
  if s.nsym = 0 then endEmpty s
  else do
    let s ← tbuild (s.enterPhase .tbuild)
    let s ← cgen (s.enterPhase .cgen)
    let s ← measureOutput s
    let s ← bpack (s.enterPhase .bpack)
    let s ← tser (s.enterPhase .tser)
    .ok (endEncode s)

/-- DECODE from its start to its end (40_commands.md R140, R141). -/
def decodeWhole (s : State) : Except Stop State := do
  let s ← beginCommand .tdes s
  let s ← tdes s
  let s ← bwalk (s.enterPhase .bwalk)
  .ok (endDecode s)

/-- A CMD write of a reserved value (30_encoding.md R92, 40_commands.md R131; log 12). -/
def illegalCommand (s : State) : Host.Outcome State Fault Refusal :=
  finish (.error (.raised .illegalCommand s.startCommand))

/-- The meaning of ENCODE. With one atomic step a command (40_commands.md R132) it is the whole command; in the finer
model it starts the command and leaves PHASE = FCOUNT. A CMD write while STATE = BUSY is undefined
(93_implementation_defined.md U1, log 10). -/
def execEncode (s : State) : Host.Outcome State Fault Refusal :=
  match s.stat with
  | .busy => .refused .hostAccessWhileBusy
  | _ =>
    match s.cfg.grain with
    | .command => finish (encodeWhole s)
    | .microOp => finish (beginCommand .fcount s)

/-- The meaning of DECODE, in the two grains as `execEncode`. -/
def execDecode (s : State) : Host.Outcome State Fault Refusal :=
  match s.stat with
  | .busy => .refused .hostAccessWhileBusy
  | _ =>
    match s.cfg.grain with
    | .command => finish (decodeWhole s)
    | .microOp => finish (beginCommand .tdes s)

/-- What follows a micro-operation that has ended without error: the next PHASE, or the end of the command
(40_commands.md R135, R137, R140, R141). -/
def advance (p : Phase) (s : State) : Except Stop State :=
  match p with
  | .none => .ok s
  | .fcount => if s.nsym = 0 then endEmpty s else .ok (s.enterPhase .tbuild)
  | .tbuild => .ok (s.enterPhase .cgen)
  | .cgen => do
    let t ← measureOutput s
    .ok (t.enterPhase .bpack)
  | .bpack => .ok (s.enterPhase .tser)
  | .tser => .ok (endEncode s)
  | .tdes => .ok (s.enterPhase .bwalk)
  | .bwalk => .ok (endDecode s)

/-- What a step adds around a micro-operation of phase `p`: an error has ended the command at once (40_commands.md
R147); otherwise the sequence goes on. -/
def sequenceAfter (p : Phase) (o : Host.Outcome State Fault Refusal) : Host.Outcome State Fault Refusal :=
  match o with
  | .next s => if s.stat = .busy then finish (advance p s) else .next s
  | .fault f => .fault f
  | .refused r => .refused r

end Sys2Proof.Machine
end

