-- ==== Sys2Proof/Machine/Flags.lean ====
section
/-! DEFINITION. The status fields: their numbers and the STATUS word (10_state.md R25, 60_exceptions.md R271). The
block has no condition codes and no arithmetic flags (R30). -/

namespace Sys2Proof.Machine

/-- The number of a STATE value (10_state.md R25). -/
def Stat.number : Stat → Nat
  | .idle => 0
  | .busy => 1
  | .done => 2

/-- The number of a PHASE value (10_state.md R25, 30_encoding.md R93). -/
def Phase.number : Phase → Nat
  | .none => 0
  | .fcount => 1
  | .tbuild => 2
  | .cgen => 3
  | .bpack => 4
  | .tser => 5
  | .tdes => 8
  | .bwalk => 9

/-- The number of an ERR value (60_exceptions.md R271). -/
def Err.number : Err → Nat
  | .ok => 0
  | .malformedTable => 1
  | .truncatedPayload => 2
  | .unknownCode => 3
  | .capacityExceeded => 4
  | .illegalCommand => 5

/-- The PHASE value of a code; a code that is never produced gives NONE. -/
def phaseOfCode (c : Nat) : Phase :=
  if c = 1 then .fcount
  else if c = 2 then .tbuild
  else if c = 3 then .cgen
  else if c = 4 then .bpack
  else if c = 5 then .tser
  else if c = 8 then .tdes
  else if c = 9 then .bwalk
  else .none

/-- STATUS: `ERR × 256 + PHASE × 16 + STATE` (10_state.md R25). -/
def statusWord (s : State) : Word :=
  BitVec.ofNat 32 (s.err.number * 256 + s.phase.number * 16 + s.stat.number)

end Sys2Proof.Machine
end

