-- ==== Sys2Proof/Machine/HostPort.lean ====
section
/-! DEFINITION. The host's side: register and buffer accesses (10_state.md R23 to R27, 20_memory.md R60, R67, R68, R73),
the host moves of 30_encoding.md R118, what the next step runs, and how a code is placed for the next step. -/

namespace Sys2Proof.Machine

/-- What the next step does. -/
inductive Move where
  /-- A host access, or the core waiting. -/
  | access (o : Host.Outcome State Fault Refusal)
  /-- A command written to CMD runs in the state given. -/
  | command (i : Instr) (s : State)
  /-- The micro-operation of the running PHASE runs in the state given. -/
  | phase (i : Instr) (s : State)

/-- The core's own move: in a BUSY state the micro-operation PHASE names (30_encoding.md R93); otherwise the core does
nothing until the host writes CMD (10_state.md R47). -/
def coreMove (s : State) : Move :=
  match s.stat with
  | .busy =>
    match decodePhase (BitVec.ofNat 4 s.phase.number) with
    | .ok i => .phase i s
    | .error _ => .access (.refused .busyWithoutPhase)
  | _ => .access (.next s)

/-- A host write to CMD (10_state.md R24, 40_commands.md R131). -/
def writeCmd (v : Word) (s : State) : Move :=
  match s.stat with
  | .busy => .access (.refused .hostAccessWhileBusy)
  | _ =>
    match decodeCmd v with
    | .ok i => .command i s
    | .error _ => .access (illegalCommand s)

/-- A host write to IN_LEN (10_state.md R26). IN_LEN is LEN_BITS wide; the spec does not say what a wider value leaves
in it: a free value of LEN_BITS bits (log 6). -/
def writeInLen (v : Nat) (s : State) : State :=
  if v < 2 ^ s.cfg.lenBits then { s with inLen := v }
  else
    let d := s.drawFree (2 ^ s.cfg.lenBits)
    { d.2 with inLen := d.1 }

/-- An access the host may not make while STATE = BUSY (70_reset_and_hazards.md R321; log 10). -/
def whenNotBusy (s : State) (o : Host.Outcome State Fault Refusal) : Host.Outcome State Fault Refusal :=
  match s.stat with
  | .busy => .refused .hostAccessWhileBusy
  | _ => o

/-- A register write. STATUS and OUT_LEN are read-only: a write changes nothing (10_state.md R23, R25). -/
def writeRegister (offset width : Nat) (v : BitVec width) (s : State) : Move :=
  if registerOffset offset = false then .access (.refused .noSuchRegister)
  else if width ≠ registerWidth then .access (.refused .registerWidth)
  else if offset = 0x00 then writeCmd (v.setWidth 32) s
  else if offset = 0x04 then .access (.next s)
  else if offset = 0x08 then .access (whenNotBusy s (.next (writeInLen v.toNat s)))
  else .access (whenNotBusy s (.next s))

/-- A host read of IN_LEN or OUT_LEN, which holds the byte count `k`. With LEN_BITS above 32 the register can hold a
value that one 32-bit word cannot return; the spec does not say what is read then: a free word (log 23). -/
def readCount (k : Nat) (s : State) : State :=
  if k < 2 ^ 32 then { s with reply := .word (BitVec.ofNat 32 k) }
  else
    let d := s.drawFree (2 ^ 32)
    { d.2 with reply := .word (BitVec.ofNat 32 d.1) }

/-- A register read: CMD reads as 0 (10_state.md R24); reading has no side effect (20_memory.md R73). STATUS and IN_LEN
may be read while BUSY (70_reset_and_hazards.md R321). -/
def readRegister (offset width : Nat) (s : State) : Host.Outcome State Fault Refusal :=
  if registerOffset offset = false then .refused .noSuchRegister
  else if width ≠ registerWidth then .refused .registerWidth
  else if offset = 0x00 then whenNotBusy s (.next { s with reply := .word 0 })
  else if offset = 0x04 then .next { s with reply := .word (statusWord s) }
  else if offset = 0x08 then .next (readCount s.inLen s)
  else whenNotBusy s (.next (readCount s.outLen s))

/-- OBUF[i] is valid: STATE = DONE, ERR = 0 and i < OUT_LEN (70_reset_and_hazards.md R322). -/
def obufValid (s : State) (i : Nat) : Bool := s.stat == .done && s.err == .ok && decide (i < s.outLen)

/-- The byte a host read of OBUF[i] finds (10_state.md R48). -/
def hostObufByte (s : State) (i : Nat) : Except Fault Byte :=
  if i < s.cfg.obufBytes then
    if obufValid s i then
      match s.obuf.read i with
      | some b => .ok b
      | none => .error .obufUnspecified
    else .error .obufUnspecified
  else .error .noSuchByte

/-- A host write of IBUF[i]. -/
def hostIbufWrite (s : State) (i : Nat) (b : Byte) : Except Fault State :=
  if i < s.cfg.ibufBytes then .ok { s with ibuf := s.ibuf.write i b } else .error .noSuchByte

/-- The outcome of an access that ends in a state or a fault. -/
def accessOutcome : Except Fault State → Host.Outcome State Fault Refusal
  | .ok s => .next s
  | .error f => .fault f

/-- A host read back of IBUF[i]. -/
def hostIbufRead (s : State) (i : Nat) : Except Fault State := do
  let b ← ibufByte s i
  .ok { s with reply := .byte b }

/-- A host read of OBUF[i]. -/
def hostObufRead (s : State) (i : Nat) : Except Fault State := do
  let b ← hostObufByte s i
  .ok { s with reply := .byte b }

/-- The copies of COPYBACK from index `i`, `k` bytes (30_encoding.md R118). -/
def copyBytes (i : Nat) : Nat → State → Except Fault State
  | 0, s => .ok s
  | k + 1, s => do
    let b ← hostObufByte s i
    let t ← hostIbufWrite s i b
    copyBytes (i + 1) k t

/-- COPYBACK (30_encoding.md R118, R119; log 16): the copies, and then OUT_LEN's value to IN_LEN. -/
def copyback (s : State) : Except Fault State := do
  let t ← copyBytes 0 s.outLen s
  .ok (writeInLen t.outLen t)

/-- What a host move does, in the state it has been taken from the script in. -/
def hostMove (m : HostMove) (s : State) : Move :=
  match m with
  | .idle => coreMove s
  | .writeReg offset width v => writeRegister offset width v s
  | .readReg offset width => .access (readRegister offset width s)
  | .writeIbuf i b => .access (whenNotBusy s (accessOutcome (hostIbufWrite s i b)))
  | .readIbuf i => .access (whenNotBusy s (accessOutcome (hostIbufRead s i)))
  | .writeObuf _ _ => .access (.refused .obufNotWritable)
  | .readObuf i => .access (whenNotBusy s (accessOutcome (hostObufRead s i)))
  | .wait =>
    match s.stat with
    | .done => .access (.next { s with reply := .word (statusWord s) })
    | _ => coreMove { s with host := .wait :: s.host, reply := .word (statusWord s) }
  | .copyback => .access (whenNotBusy s (accessOutcome (copyback s)))
  | .reset => .access (.next s.applyReset)

/-- The next move: the host's next one, or the core's when the host's script is empty (log 9). -/
def nextMove (s : State) : Move :=
  match s.host with
  | [] => coreMove s
  | m :: rest => hostMove m { s with host := rest }

/-- The moves of `LOAD` (30_encoding.md R118): the bytes to IBUF from index 0, then their number to IN_LEN, in the one
32-bit word a register access carries (20_memory.md R67; log 23). -/
def loadMoves (bytes : List Byte) : List HostMove :=
  bytes.zipIdx.map (fun p => HostMove.writeIbuf p.2 p.1) ++ [.writeReg 0x08 32 (BitVec.ofNat 32 bytes.length)]

/-- `CMD v`, and with it `ENCODE` and `DECODE` (30_encoding.md R118). -/
def cmdMove (v : Word) : HostMove := .writeReg 0x00 32 v

/-- A CMD word placed so that the next step runs it: the host writes it next, and no command is running (log 22). -/
def placeCommand (v : Word) (s : State) : State :=
  match s.stat with
  | .busy => { s with host := cmdMove v :: s.host, stat := .done, phase := .none }
  | _ => { s with host := cmdMove v :: s.host }

/-- A PHASE code placed so that the next step runs it: a command is running in that phase and the host makes no access
in the next slot (log 22). -/
def placePhase (c : Nat) (s : State) : State :=
  { s with host := .idle :: s.host, stat := .busy, phase := phaseOfCode c }

/-- A row's bits placed for the next step: eight bits or fewer are a PHASE code, more are a CMD word. -/
def placeWord (nbits w : Nat) (s : State) : State :=
  if nbits ≤ 8 then placePhase w s else placeCommand (BitVec.ofNat 32 w) s

end Sys2Proof.Machine
end

