-- ==== Sys2Proof/Machine/Step.lean ====
section
/-! DEFINITION. One step: the host's next access, or the next instruction. -/

namespace Sys2Proof.Machine

/-- One step (40_commands.md R132). A command is `exec`; a micro-operation is `exec` followed by what the sequence of
its command does next. -/
def step (s : State) : Host.Outcome State Fault Refusal :=
  match nextMove s with
  | .access o => o
  | .command i t => exec i t
  | .phase i t => sequenceAfter t.phase (exec i t)

/-- `s` with an instruction's bits where the next step takes its instruction from (log 22). -/
def State.withFetchWord (s : State) (nbits w : Nat) : State := placeWord nbits w s

end Sys2Proof.Machine
end

