-- ==== Sys2Proof/Machine/Functional.lean ====
section
/-! DEFINITION. The functional forms the spec gives beside the machine's rules: `encode` and `decode` on byte sequences
(40_commands.md R136, R142), the counts (41_frequency_counter.md R162), the tree (42_tree_builder.md R178), the codes
(43_code_table_generator.md R193) and the walk (46_decoder.md R260). Statements relate the machine to them; the
machine never calls them. -/

namespace Sys2Proof.Machine

/-- `freq(X)(s)` (41_frequency_counter.md R162). -/
def freqOf (X : List Byte) (s : Byte) : Nat := X.count s

/-- The symbols present, in ascending order (40_commands.md R136). -/
def presentSymbols (f : Byte → Nat) : List Byte := alphabet.filter fun s => 1 ≤ f s

/-- The tree as owned children (42_tree_builder.md R178). -/
inductive HTree where
  | leaf (sym : Byte) (w : Nat)
  | node (w : Nat) (left right : HTree)
  deriving DecidableEq, Repr

/-- The weight at a tree's root. -/
def HTree.weight : HTree → Nat
  | .leaf _ w => w
  | .node w _ _ => w

/-- The number of edges on the longest path. -/
def HTree.depth : HTree → Nat
  | .leaf _ _ => 0
  | .node _ l r => max l.depth r.depth + 1

/-- The work list: trees with their sequence numbers (42_tree_builder.md R178). -/
abbrev WorkList := List (HTree × Nat)

/-- "Start": one leaf for each symbol present, numbered by rank. -/
def startWork (f : Byte → Nat) : WorkList :=
  (presentSymbols f).zipIdx.map fun p => (HTree.leaf p.1 (f p.1), p.2)

/-- Smaller weight, or equal weight and smaller sequence number (42_tree_builder.md R171, R178). -/
def workBefore (a b : HTree × Nat) : Bool :=
  decide (a.1.weight < b.1.weight) || (a.1.weight == b.1.weight && decide (a.2 < b.2))

/-- Take out the element with the smallest (weight, seq). -/
def takeLowest : WorkList → Option ((HTree × Nat) × WorkList)
  | [] => none
  | a :: rest =>
    match takeLowest rest with
    | none => some (a, [])
    | some (b, others) => if workBefore a b then some (a, rest) else some (b, a :: others)

/-- "Step", at most `k` times: join the two lowest under the sequence number `next`. -/
def joinTrees : Nat → Nat → WorkList → WorkList
  | 0, _, wl => wl
  | k + 1, next, wl =>
    match takeLowest wl with
    | none => wl
    | some (a, wl₁) =>
      match takeLowest wl₁ with
      | none => wl
      | some (b, wl₂) => joinTrees k (next + 1) ((.node (a.1.weight + b.1.weight) a.1 b.1, next) :: wl₂)

/-- "End": the tree of the one element left; none when no symbol is present. -/
def treeOf (f : Byte → Nat) : Option HTree :=
  ((joinTrees (presentSymbols f).length (presentSymbols f).length (startWork f)).head?).map Prod.fst

/-- `codes(tree, path)` (43_code_table_generator.md R193), leaves from left to right. -/
def HTree.codes : HTree → Bits → List (Byte × Bits)
  | .leaf s _, path => [(s, path)]
  | .node _ l r, path => l.codes (path ++ [false]) ++ r.codes (path ++ [true])

/-- The code table of a tree: "0" for a root that is a leaf (43_code_table_generator.md R192, R193). -/
def HTree.table : HTree → List (Byte × Bits)
  | .leaf s _ => [(s, [false])]
  | .node w l r => (HTree.node w l r).codes []

/-- The codeword of a symbol in a table; no codeword is the empty string. -/
def codeIn (table : List (Byte × Bits)) (s : Byte) : Bits := (table.lookup s).getD []

/-- The codewords that the counts `f` lead to. -/
def codeTable (f : Byte → Nat) : List (Byte × Bits) := ((treeOf f).map HTree.table).getD []

/-- `B = code(X[0]) ++ ... ++ code(X[n − 1])` (40_commands.md R136). -/
def codedInput (table : List (Byte × Bits)) (X : List Byte) : Bits := X.flatMap (codeIn table)

/-- The header of 40_commands.md R136 for the symbols and codes given and `bits` payload bits. -/
def headerOf (table : List (Byte × Bits)) (symbols : List Byte) (bits : Nat) : List Byte :=
  [tableSizeByte symbols.length, BitVec.ofNat 8 (padCount bits).val]
    ++ symbols.flatMap fun s => entryBytes s (codeIn table s)

/-- `encode(X)` (40_commands.md R136). -/
def encodeFn (X : List Byte) : List Byte :=
  if X = [] then emptyContainer
  else
    let table := codeTable (freqOf X)
    let B := codedInput table X
    headerOf table (presentSymbols (freqOf X)) B.length ++ pack B

/-- What the header of a container says: T and P as read, the number of entries, the entries in reading order, and
the payload's start. -/
structure Parsed where
  tb : Byte
  pb : Byte
  tn : Nat
  entries : List DtEntry
  payStart : Nat
  deriving DecidableEq, Repr

/-- `k` entries from the bytes left, `off` being the offset of the first of them (44_table_codec.md R210, R213);
none where an entry cannot be read. -/
def parseEntries : Nat → Nat → List Byte → Option (List DtEntry × Nat)
  | 0, off, _ => some ([], off)
  | k + 1, off, sym :: len :: rest =>
    if len = 0 ∨ rest.length < ceil8 len.toNat then none
    else
      (parseEntries k (off + entryLength len.toNat) (rest.drop (ceil8 len.toNat))).map fun p =>
        ({ bits := codeword (rest.take (ceil8 len.toNat)) len.toNat, sym := sym } :: p.1, p.2)
  | _ + 1, _, _ => none

/-- The header and table of a container; none is MalformedTable (44_table_codec.md R210 to R214). -/
def parseContainer : List Byte → Option Parsed
  | t :: p :: rest =>
    if t = 0 ∧ p = 0 ∧ rest = [] then some { tb := t, pb := p, tn := 0, entries := [], payStart := 2 }
    else if 7 < p.toNat then none
    else
      (parseEntries (entryCount t) 2 rest).map fun q =>
        { tb := t, pb := p, tn := entryCount t, entries := q.1, payStart := q.2 }
  | _ => none

/-- The largest codeword length (10_state.md R40). -/
def maxLength (dt : List DtEntry) : Nat := dt.foldl (fun m e => max m e.len) 0

/-- `walk(bits, acc, out)` (46_decoder.md R260) with the capacity check of R255. -/
def walkFn (dt : List DtEntry) (lmax cap : Nat) : Bits → Bits → List Byte → Except Err (List Byte)
  | [], acc, out => if acc = [] then .ok out else .error .truncatedPayload
  | bit :: bits, acc, out =>
    match lookup dt (acc ++ [bit]) with
    | some sym => if out.length = cap then .error .capacityExceeded else walkFn dt lmax cap bits [] (out ++ [sym])
    | none => if lmax < (acc ++ [bit]).length then .error .unknownCode else walkFn dt lmax cap bits (acc ++ [bit]) out

/-- The payload bits that are scanned (30_encoding.md R108, 46_decoder.md R260). -/
def scannedBits (payload : List Byte) (p : Nat) : Bits := unpack payload (payloadBits payload.length p)

/-- `decode(C)` (40_commands.md R142, 46_decoder.md R260), with `cap` bytes of room for the result (R255). -/
def decodeFn (cap : Nat) (C : List Byte) : Except Err (List Byte) :=
  match parseContainer C with
  | none => .error .malformedTable
  | some p =>
    walkFn p.entries (maxLength p.entries) cap (scannedBits (C.drop p.payStart) p.pb.toNat) [] []

/-- The tree at a node of the arena (10_state.md R33), looking at most `k` nodes deep. -/
def treeAt (ns : List Node) : Nat → Nat → Option HTree
  | 0, _ => none
  | k + 1, i =>
    match ns[i]? with
    | none => none
    | some nd =>
      match nd.kind with
      | .leaf sym => some (.leaf sym nd.w)
      | .internal l r =>
        match treeAt ns k l, treeAt ns k r with
        | some tl, some tr => some (.node nd.w tl tr)
        | _, _ => none

end Sys2Proof.Machine
end

