-- ==== Sys2Proof/Safety.lean ====
section
/-! DEFINITION. What counts as a safe run, in the terms the statements use: the operand a host must have provided, how a
command ends, and the invariants every step keeps. -/

namespace Sys2Proof.Machine

/-- The host has provided the operand `X`: IN_LEN is its length and every byte is written (70_reset_and_hazards.md
R314, R315). -/
abbrev OperandIs (s : State) (X : List Byte) : Prop :=
  X.length = s.inLen ∧ ∀ i < X.length, s.ibuf.read i = X[i]?

/-- The operand of the running command: `n` bytes, all written, inside the buffer. -/
abbrev LatchedIs (s : State) (X : List Byte) : Prop :=
  X.length = s.n ∧ s.n ≤ s.cfg.ibufBytes ∧ ∀ i < X.length, s.ibuf.read i = X[i]?

/-- A command can be started on the operand `X`: no command is running, the operand is provided and fits
(70_reset_and_hazards.md R314, R315, 40_commands.md R133). -/
abbrev CommandReady (s : State) (X : List Byte) : Prop :=
  s.stat ≠ .busy ∧ OperandIs s X ∧ X.length ≤ s.cfg.ibufBytes

/-- What no instruction touches: the parameters, IN_LEN, IBUF and the host's side (10_state.md R26, 20_memory.md
R60). -/
abbrev SameHostSide (s t : State) : Prop :=
  t.cfg = s.cfg ∧ t.inLen = s.inLen ∧ t.ibuf = s.ibuf ∧ t.host = s.host ∧ t.reply = s.reply

/-- The registers a command start clears hold what it leaves in them (10_state.md R45): those of the encoder. -/
abbrev EncoderCleared (t : State) : Prop :=
  t.freq = Vector.replicate 256 0 ∧ t.nsym = 0 ∧ t.nodes = [] ∧ t.code = Vector.replicate 256 [] ∧ t.totalBits = 0 ∧
    t.pad = 0 ∧ t.pkAcc = 0 ∧ t.pkN = 0 ∧ t.hdrLen = 0

/-- The registers a command start clears hold what it leaves in them (10_state.md R45): those of the decoder. -/
abbrev DecoderCleared (t : State) : Prop := t.dt = [] ∧ t.lmax = 0 ∧ t.acc = [] ∧ t.ocnt = 0

/-- A command has ended with the result `bytes` (40_commands.md R134): OBUF holds exactly them. -/
abbrev EndedWith (t : State) (bytes : List Byte) : Prop :=
  t.stat = .done ∧ t.phase = .none ∧ t.err = .ok ∧ t.outLen = bytes.length ∧
    t.obuf = Memory.ofBytes bytes

/-- A command has ended with the error `e` (60_exceptions.md R280): OUT_LEN is 0 and no OBUF byte holds a value. -/
abbrev EndedWithError (t : State) (e : Err) : Prop :=
  t.stat = .done ∧ t.phase = .none ∧ t.err = e ∧ t.outLen = 0 ∧ ∀ i, t.obuf.read i = none

/-- The buffers are canonical and lie inside their capacities (20_memory.md R60). -/
abbrev BuffersInv (s : State) : Prop :=
  s.ibuf.wf ∧ s.obuf.wf ∧ (∀ c ∈ s.ibuf, c.1 < s.cfg.ibufBytes) ∧ ∀ c ∈ s.obuf, c.1 < s.cfg.obufBytes

/-- The status fields agree (10_state.md R27, R28, R30, 60_exceptions.md R280): PHASE is NONE exactly when STATE is not
BUSY, ERR and OUT_LEN are 0 until a command has ended, and an error leaves no result. -/
abbrev StatusInv (s : State) : Prop :=
  (s.stat = .busy ↔ s.phase ≠ .none) ∧ (s.stat ≠ .done → s.err = .ok ∧ s.outLen = 0) ∧
    (s.stat = .idle → s.obuf = []) ∧ (s.err ≠ .ok → s.outLen = 0 ∧ s.obuf = [])

/-- A node's child indexes, if it has any, name nodes of the arena (10_state.md R33). -/
def Node.childrenIn (nd : Node) (nnode : Nat) : Bool :=
  match nd.kind with
  | .leaf _ => true
  | .internal l r => decide (l < nnode ∧ r < nnode)

/-- IN_LEN, OUT_LEN, n, the cursors and the payload's start hold values of LEN_BITS bits (00_scope.md R10, 10_state.md
R26, R27, R29, R41), with the bounds that make it so: IPOS never passes n, OPOS and OUT_LEN never pass OBUF_BYTES. -/
abbrev LengthsInv (s : State) : Prop :=
  s.inLen < 2 ^ s.cfg.lenBits ∧ s.n < 2 ^ s.cfg.lenBits ∧ s.outLen ≤ s.cfg.obufBytes ∧ s.ipos ≤ s.n ∧
    s.opos ≤ s.cfg.obufBytes ∧ s.payStart < 2 ^ s.cfg.lenBits ∧ (s.phase = .bwalk → s.payStart ≤ s.n)

/-- The encoder's registers and tables hold values of their widths (10_state.md R31 to R37): counts and weights never
exceed n; TOTALBITS fits in LEN_BITS + 8 bits by `255 n`; HDR_LEN is at most the largest header (00_scope.md R9), fits in
OBUF while BPACK or TSER is to run, and passes LEN_BITS bits only after a command that ended with CapacityExceeded (log
14). -/
abbrev EncoderInv (s : State) : Prop :=
  s.freq.toList.sum ≤ s.n ∧ (∀ b : Byte, s.freq.get b.toFin ≤ s.n) ∧
    s.nsym = (alphabet.filter fun b => 1 ≤ s.freq.get b.toFin).length ∧
    s.nnode ≤ 511 ∧ (∀ nd ∈ s.nodes, nd.w ≤ s.n ∧ nd.childrenIn s.nnode = true) ∧ s.root < 512 ∧
    (∀ b : Byte, s.codeLen b ≤ 255) ∧ s.totalBits ≤ 255 * s.n ∧ s.hdrLen ≤ 8706 ∧
    (2 ^ s.cfg.lenBits ≤ s.hdrLen → s.stat ≠ .busy ∧ s.err = .capacityExceeded) ∧
    (s.phase = .bpack → s.hdrLen ≤ s.cfg.obufBytes) ∧
    (s.phase = .tser → s.hdrLen + ceil8 s.totalBits ≤ s.cfg.obufBytes)

/-- The decoder's registers and tables hold values of their widths (10_state.md R38 to R42). -/
abbrev DecoderInv (s : State) : Prop :=
  s.tn ≤ 256 ∧ s.dtN ≤ 256 ∧ (∀ e ∈ s.dt, 1 ≤ e.len ∧ e.len ≤ s.lmax) ∧ s.lmax ≤ 255 ∧ s.accLen ≤ 256 ∧
    s.ocnt ≤ s.cfg.obufBytes

/-- The parameters are within R10's bounds, every register and table holds a value of its width (the bit-vector and
`Fin` fields do by their types), and a table that a running phase fills is still empty when that phase runs
(10_state.md R45). -/
abbrev WidthsInv (s : State) : Prop :=
  s.cfg.wf ∧ LengthsInv s ∧ EncoderInv s ∧ DecoderInv s ∧
    (s.phase = .fcount → EncoderCleared s) ∧ (s.phase = .tbuild → s.nodes = []) ∧
    (s.phase = .tdes → DecoderCleared s)

/-- The encoder's registers and tables are the same in two states. -/
abbrev SameEncoderSide (s t : State) : Prop :=
  t.freq = s.freq ∧ t.nsym = s.nsym ∧ t.nodes = s.nodes ∧ t.root = s.root ∧ t.code = s.code ∧ t.hdrLen = s.hdrLen ∧
    t.totalBits = s.totalBits ∧ t.pad = s.pad ∧ t.pkAcc = s.pkAcc ∧ t.pkN = s.pkN ∧ t.n = s.n ∧ t.freeCtr = s.freeCtr

/-- FREQ as a function of the symbol. -/
abbrev counts (v : Vector Nat 256) : Byte → Nat := fun b => v.get b.toFin

/-- The sum of `2 + ceil8(L)` over the symbols given, and 2: the header's length (40_commands.md R138). -/
abbrev headerSize (table : List (Byte × Bits)) (symbols : List Byte) : Nat :=
  2 + (symbols.map fun b => entryLength (codeIn table b).length).sum

/-- The successions of phases inside a command (40_commands.md R137, R141). -/
def phaseSuccessors : List (Phase × Phase) :=
  [(.fcount, .tbuild), (.tbuild, .cgen), (.cgen, .bpack), (.bpack, .tser), (.tdes, .bwalk)]

/-- The core has the next slot: the host makes no access in it. `t` is the state in which the core moves. -/
abbrev CoreSlot (s t : State) : Prop :=
  (s.host = [] ∧ t = s) ∨ ∃ rest, s.host = .idle :: rest ∧ t = { s with host := rest }

end Sys2Proof.Machine
end

