-- ==== Sys2Proof/Certificates/Slice0/Obligations.lean ====
section
/-! DEFINITION. The statements for the provers, from the numbered rules of spec/. -/

open Sys2Proof Sys2Proof.Machine

/-! ### Encodings and steps -/

/-- 30_encoding.md R91: the command decoder, on every word. -/
def Obligations.CommandWordDecodes : Prop :=
  ∀ v : Word, (v = 1 → decodeCmd v = .ok .encode) ∧ (v = 2 → decodeCmd v = .ok .decode) ∧
    (v ≠ 1 → v ≠ 2 → decodeCmd v = .error (.reservedCommand v))

/-- 30_encoding.md R120: laid-out bytes decode to an instruction exactly when they are its encoding, for all nine
instructions (the byte order of the layout is log 18). -/
def Obligations.BytesDecodeExactlyWhenEncoded : Prop :=
  ∀ (bs : List Byte) (i : Instr), decodeBytes bs = .ok i ↔ bs = encodeBytes i

/-- 30_encoding.md R120: words written out from the table decode to their instructions. -/
def Obligations.TableWordsDecode : Prop :=
  decodeTableWord 32 0x00000001 = some .encode ∧ decodeTableWord 32 0x00000002 = some .decode ∧
    decodeTableWord 8 0b0001 = some .fcount ∧ decodeTableWord 8 0b0101 = some .tser ∧
    decodeTableWord 8 0b1000 = some .tdes ∧ decodeTableWord 8 0b0110 = none

/-- 40_commands.md R131: the step that takes a host write of a command word to CMD is that command's `exec`, in the
state in which the move has been taken from the host's script. -/
def Obligations.StepRunsWrittenCommand : Prop :=
  ∀ (s : State) (v : Word) (rest : List HostMove) (i : Instr),
    s.host = .writeReg 0x00 32 v :: rest → s.stat ≠ .busy → decodeCmd v = .ok i →
      step s = exec i { s with host := rest }

/-- 40_commands.md R132 (finer model): in a BUSY state, in a slot in which the host makes no access, a step is `exec`
of the micro-operation PHASE names, and then, if it has not ended the command, the sequence goes on. -/
def Obligations.StepRunsRunningPhase : Prop :=
  ∀ (s t : State) (i : Instr), CoreSlot s t → s.stat = .busy →
    decodePhase (BitVec.ofNat 4 s.phase.number) = .ok i →
      step s = match exec i t with
        | .next u => if u.stat = .busy then finish (advance s.phase u) else .next u
        | .fault f => .fault f
        | .refused r => .refused r

/-- 10_state.md R28, 40_commands.md R137, R141: what a step of the core in a BUSY state does to PHASE. -/
def Obligations.PhasesRunInOrder : Prop :=
  ∀ s t u : State, CoreSlot s t → s.stat = .busy → step s = .next u →
    (u.stat = .busy ∧ (s.phase, u.phase) ∈ phaseSuccessors) ∨
      (u.stat = .done ∧ u.phase = .none ∧
        (u.err = .ok → s.err = .ok → (s.phase = .fcount ∧ u.nsym = 0) ∨ s.phase = .tser ∨ s.phase = .bwalk))

/-! ### Registers and host moves -/

/-- 10_state.md R25: reading STATUS gives `ERR × 256 + PHASE × 16 + STATE`, with the field values of the table, bits
[31:11] and [3:2] 0; a write to STATUS changes nothing; after reset it reads 0. -/
def Obligations.StatusIsAViewOfThreeFields : Prop :=
  (∀ (s : State) (rest : List HostMove), s.host = .readReg 0x04 32 :: rest →
      step s = .next { s with
        host := rest
        reply := .word (BitVec.ofNat 32 (s.err.number * 256 + s.phase.number * 16 + s.stat.number)) }) ∧
    (∀ (s : State) (rest : List HostMove) (v : Word), s.host = .writeReg 0x04 32 v :: rest →
      step s = .next { s with host := rest }) ∧
    (∀ s : State, (statusWord s).toNat / 2 ^ 11 = 0 ∧ (statusWord s).toNat / 4 % 4 = 0 ∧
      (statusWord s).toNat % 4 = s.stat.number ∧ (statusWord s).toNat / 16 % 16 = s.phase.number ∧
      (statusWord s).toNat / 256 % 8 = s.err.number) ∧
    (Stat.idle.number = 0 ∧ Stat.busy.number = 1 ∧ Stat.done.number = 2) ∧
    (Phase.none.number = 0 ∧ Phase.fcount.number = 1 ∧ Phase.tbuild.number = 2 ∧ Phase.cgen.number = 3 ∧
      Phase.bpack.number = 4 ∧ Phase.tser.number = 5 ∧ Phase.tdes.number = 8 ∧ Phase.bwalk.number = 9) ∧
    (Err.ok.number = 0 ∧ Err.malformedTable.number = 1 ∧ Err.truncatedPayload.number = 2 ∧
      Err.unknownCode.number = 3 ∧ Err.capacityExceeded.number = 4 ∧ Err.illegalCommand.number = 5) ∧
    statusWord State.reset = 0

/-- 10_state.md R23, R24, R26, R27, 20_memory.md R67: the other register accesses while no command runs, in 32-bit words
for every LEN_BITS. A value wider than LEN_BITS leaves a value of LEN_BITS bits in IN_LEN, whichever (log 6); a read of a
byte count that no 32-bit word holds returns a word, whichever (log 23). -/
def Obligations.RegisterMapAccesses : Prop :=
  ∀ (s : State) (rest : List HostMove), s.stat ≠ .busy →
    (s.host = .readReg 0x00 32 :: rest → step s = .next { s with host := rest, reply := .word 0 }) ∧
    (∀ offset k, (offset, k) ∈ [(0x08, s.inLen), (0x0C, s.outLen)] → s.host = .readReg offset 32 :: rest →
      (k < 2 ^ 32 → ∃ v : Word, v.toNat = k ∧ step s = .next { s with host := rest, reply := .word v }) ∧
      (2 ^ 32 ≤ k →
        ∃ v : Word, step s = .next { s with host := rest, reply := .word v, freeCtr := s.freeCtr + 1 })) ∧
    (∀ v : Word, s.host = .writeReg 0x0C 32 v :: rest → step s = .next { s with host := rest }) ∧
    (∀ v : Word, s.host = .writeReg 0x08 32 v :: rest → v.toNat < 2 ^ s.cfg.lenBits →
      step s = .next { s with host := rest, inLen := v.toNat }) ∧
    (∀ v : Word, s.host = .writeReg 0x08 32 v :: rest → 2 ^ s.cfg.lenBits ≤ v.toNat →
      ∃ k < 2 ^ s.cfg.lenBits, step s = .next { s with host := rest, inLen := k, freeCtr := s.freeCtr + 1 })

/-- 20_memory.md R67, R68: a register access that is not one 32-bit word, or at none of the four offsets, is refused; R60:
so is a host write to OBUF, in every state (log 17). 70_reset_and_hazards.md R321, 93_implementation_defined.md U1: while
BUSY the host has no move on CMD, IN_LEN (writes), OUT_LEN and the buffers, and still reads IN_LEN. That the model refuses
there rather than giving any value is log 10; what a read of a byte count past 32 bits returns is log 23. -/
def Obligations.ForbiddenHostAccessesRefused : Prop :=
  (∀ (s : State) (rest : List HostMove) (offset width : Nat) (v : BitVec width),
    s.host = .readReg offset width :: rest ∨ s.host = .writeReg offset width v :: rest →
      (offset ≠ 0x00 → offset ≠ 0x04 → offset ≠ 0x08 → offset ≠ 0x0C → step s = .refused .noSuchRegister) ∧
      (offset = 0x00 ∨ offset = 0x04 ∨ offset = 0x08 ∨ offset = 0x0C → width ≠ 32 →
        step s = .refused .registerWidth)) ∧
    (∀ (s : State) (rest : List HostMove) (i : Nat) (b : Byte), s.host = .writeObuf i b :: rest →
      step s = .refused .obufNotWritable) ∧
    (∀ (s : State) (rest : List HostMove) (m : HostMove), s.stat = .busy → s.host = m :: rest →
      ((∃ v : Word, m = .writeReg 0x00 32 v ∨ m = .writeReg 0x08 32 v ∨ m = .writeReg 0x0C 32 v) ∨
          m = .readReg 0x00 32 ∨ m = .readReg 0x0C 32 ∨ (∃ i b, m = .writeIbuf i b) ∨ (∃ i, m = .readIbuf i) ∨
          (∃ i, m = .readObuf i) ∨ m = .copyback →
        step s = .refused .hostAccessWhileBusy) ∧
      (m = .readReg 0x08 32 →
        ∃ (v : Word) (c : Nat), (s.inLen < 2 ^ 32 → v.toNat = s.inLen ∧ c = s.freeCtr) ∧
          step s = .next { s with host := rest, reply := .word v, freeCtr := c }))

/-- 20_memory.md R60, 10_state.md R48, 70_reset_and_hazards.md R322: the host's buffer accesses while no command runs. A
byte without a value is a fault of the model (log 4), and so is an index at or past the capacity. -/
def Obligations.HostBufferAccesses : Prop :=
  ∀ (s : State) (rest : List HostMove) (i : Nat) (b : Byte), s.stat ≠ .busy →
    (s.host = .writeIbuf i b :: rest → i < s.cfg.ibufBytes →
      step s = .next { s with host := rest, ibuf := s.ibuf.write i b }) ∧
    (s.host = .readIbuf i :: rest → i < s.cfg.ibufBytes → s.ibuf.read i = some b →
      step s = .next { s with host := rest, reply := .byte b }) ∧
    (s.host = .readIbuf i :: rest → i < s.cfg.ibufBytes → s.ibuf.read i = none →
      step s = .fault .ibufUnwritten) ∧
    (s.host = .readObuf i :: rest → i < s.cfg.obufBytes → s.stat = .done → s.err = .ok → i < s.outLen →
      s.obuf.read i = some b → step s = .next { s with host := rest, reply := .byte b }) ∧
    (s.host = .readObuf i :: rest → i < s.cfg.obufBytes →
      (s.stat ≠ .done ∨ s.err ≠ .ok ∨ s.outLen ≤ i) → step s = .fault .obufUnspecified) ∧
    (s.host = .writeIbuf i b :: rest ∨ s.host = .readIbuf i :: rest → s.cfg.ibufBytes ≤ i →
      step s = .fault .noSuchByte) ∧
    (s.host = .readObuf i :: rest → s.cfg.obufBytes ≤ i → step s = .fault .noSuchByte)

/-- 20_memory.md R73: no host read has a side effect. Beside the script and the reply only the counter free values are drawn
with can move (log 9, log 15, log 24), and only when a byte count past 32 bits is read (log 23). -/
def Obligations.HostReadsHaveNoSideEffect : Prop :=
  ∀ (s t : State) (rest : List HostMove) (m : HostMove), s.host = m :: rest →
    ((∃ o w, m = .readReg o w) ∨ (∃ i, m = .readIbuf i) ∨ ∃ i, m = .readObuf i) → step s = .next t →
      t = { s with host := rest, reply := t.reply, freeCtr := t.freeCtr } ∧
      (s.inLen < 2 ^ 32 → s.outLen < 2 ^ 32 → t.freeCtr = s.freeCtr)

/-- 30_encoding.md R118, WAIT: in a DONE state it reads STATUS and is over; in a BUSY state the core moves and WAIT is
still the host's next move; in an IDLE state it reads STATUS and stays (log 16). 10_state.md R47: with no command
running the core's slot changes nothing (log 20). -/
def Obligations.WaitReadsStatusUntilDone : Prop :=
  (∀ (s : State) (rest : List HostMove), s.host = .wait :: rest →
    (s.stat = .done → step s = .next { s with host := rest, reply := .word (statusWord s) }) ∧
    (s.stat = .busy → step s = step { s with host := .idle :: .wait :: rest, reply := .word (statusWord s) }) ∧
    (s.stat = .idle → step s = .next { s with reply := .word (statusWord s) })) ∧
    ∀ s t : State, CoreSlot s t → s.stat ≠ .busy → step s = .next t

/-- 30_encoding.md R118, LOAD: the bytes to IBUF from index 0, then their number to IN_LEN. The number goes there in one
32-bit word (20_memory.md R67), so it is the number itself below 2^32 bytes, as it always is with LEN_BITS of 32 or less;
that IN_LEN takes the low 32 bits of a longer LOAD's number is the model's choice (log 23). -/
def Obligations.LoadProvidesTheOperand : Prop :=
  ∀ (s : State) (X : List Byte) (rest : List HostMove), s.cfg.wf → s.stat ≠ .busy →
    X.length ≤ s.cfg.ibufBytes → s.host = loadMoves X ++ rest →
      ∃ t, Sys2Proof.core.run (X.length + 1) s = .next t ∧ (X.length < 2 ^ 32 → CommandReady t X) ∧
        (s.cfg.lenBits ≤ 32 → X.length < 2 ^ 32) ∧
        t = { s with host := rest, ibuf := s.ibuf.writeBytes 0 X, inLen := X.length % 2 ^ 32 }

/-- 30_encoding.md R118, COPYBACK: OBUF[0 .. OUT_LEN − 1] to IBUF, then OUT_LEN's value to IN_LEN. -/
def Obligations.CopybackMakesTheResultTheOperand : Prop :=
  ∀ (s : State) (Y : List Byte) (rest : List HostMove), s.cfg.wf → EndedWith s Y →
    Y.length ≤ s.cfg.obufBytes → Y.length ≤ s.cfg.ibufBytes → s.host = .copyback :: rest →
      ∃ t, step s = .next t ∧ CommandReady t Y ∧
        t = { s with host := rest, ibuf := s.ibuf.writeBytes 0 Y, inLen := s.outLen }

/-! ### Reset -/

/-- 10_state.md R46, 70_reset_and_hazards.md R310, R311: RESET in any state, a BUSY one too, leaves STATE = IDLE, PHASE =
NONE, ERR = OK, IN_LEN = 0, OUT_LEN = 0 and no buffer byte with a value; the parameters stay. -/
def Obligations.ResetAbandonsAndClears : Prop :=
  ∀ (s : State) (rest : List HostMove), s.host = .reset :: rest →
    ∃ t, step s = .next t ∧ t.stat = .idle ∧ t.phase = .none ∧ t.err = .ok ∧ t.inLen = 0 ∧ t.outLen = 0 ∧
      (∀ i, t.ibuf.read i = none) ∧ (∀ i, t.obuf.read i = none) ∧ t.cfg = s.cfg ∧ t.host = rest ∧
      statusWord t = 0

/-- 10_state.md R46: the state after reset has the spec's values and meets the three invariants. -/
def Obligations.ResetStateMeetsTheInvariants : Prop :=
  State.reset.stat = .idle ∧ State.reset.phase = .none ∧ State.reset.err = .ok ∧ State.reset.inLen = 0 ∧
    State.reset.outLen = 0 ∧ (∀ i, State.reset.ibuf.read i = none) ∧ (∀ i, State.reset.obuf.read i = none) ∧
    BuffersInv State.reset ∧ StatusInv State.reset ∧ WidthsInv State.reset

/-! ### Starting a command, errors -/

/-- 40_commands.md R133: an operand longer than IBUF_BYTES is CapacityExceeded, before any byte is read. -/
def Obligations.InputCapacityIsCheckedFirst : Prop :=
  ∀ (s : State) (i : Instr), i = .encode ∨ i = .decode → s.stat ≠ .busy → s.cfg.ibufBytes < s.inLen →
    exec i s = .next ((s.startCommand).raiseErr .capacityExceeded)

/-- 30_encoding.md R92, 60_exceptions.md R277: a CMD word other than 1 and 2. -/
def Obligations.ReservedCommandIsIllegal : Prop :=
  ∀ (s : State) (v : Word) (rest : List HostMove), s.host = .writeReg 0x00 32 v :: rest → s.stat ≠ .busy →
    v ≠ 1 → v ≠ 2 →
      ∃ t, step s = .next t ∧ EndedWithError t .illegalCommand ∧ SameHostSide { s with host := rest } t

/-- 40_commands.md R131, R132, 10_state.md R45: with one step a micro-operation, ENCODE and DECODE start their command:
the working state R45 names is cleared, n latched and PHASE set; nothing else changes. -/
def Obligations.CommandStartInTheFinerModel : Prop :=
  ∀ s : State, s.stat ≠ .busy → s.cfg.grain = .microOp → s.inLen ≤ s.cfg.ibufBytes →
    ∀ (i : Instr) (p : Phase), (i, p) ∈ [(Instr.encode, Phase.fcount), (Instr.decode, Phase.tdes)] →
      exec i s = .next { s with
        stat := .busy, err := .ok, outLen := 0, phase := p, n := s.inLen, obuf := []
        freq := Vector.replicate 256 0, nsym := 0, nodes := [], code := Vector.replicate 256 []
        totalBits := 0, pad := 0, pkAcc := 0, pkN := 0, hdrLen := 0, dt := [], lmax := 0, acc := [], ocnt := 0
        ipos := 0, opos := 0 }

/-- 60_exceptions.md R280: an instruction that ends with an error leaves the error alone. -/
def Obligations.ErrorEntryLeavesTheErrorAlone : Prop :=
  ∀ (i : Instr) (s t : State), exec i s = .next t → (s.err = .ok ∨ i = .encode ∨ i = .decode) → t.err ≠ .ok →
    EndedWithError t t.err ∧ SameHostSide s t

/-- 60_exceptions.md R279: which command can end with which code. -/
def Obligations.ErrorKindsOfEachCommand : Prop :=
  ∀ s t : State, s.cfg.grain = .command →
    (exec .encode s = .next t → t.err = .ok ∨ t.err = .capacityExceeded) ∧
    (exec .decode s = .next t →
      t.err = .ok ∨ t.err = .malformedTable ∨ t.err = .truncatedPayload ∨ t.err = .unknownCode ∨
        t.err = .capacityExceeded)

/-- 60_exceptions.md R281: STATE, ERR, OUT_LEN and OBUF keep their values until the next CMD write or reset, whatever
else the host does. -/
def Obligations.ResultsStayUntilTheNextCommand : Prop :=
  ∀ s t : State, s.stat = .done → step s = .next t →
    (∀ v rest, s.host ≠ .writeReg 0x00 32 v :: rest) → (∀ rest, s.host ≠ .reset :: rest) →
      t.stat = s.stat ∧ t.err = s.err ∧ t.phase = s.phase ∧ t.outLen = s.outLen ∧ t.obuf = s.obuf

/-! ### FCOUNT -/

/-- 41_frequency_counter.md R161: FCOUNT from cleared counters. Only FREQ, NSYM and the cursor IPOS change. -/
def Obligations.FcountCountsEverySymbol : Prop :=
  ∀ (s : State) (X : List Byte), LatchedIs s X → s.freq = Vector.replicate 256 0 → s.nsym = 0 →
    ∃ f ip, (∀ b, counts f b = freqOf X b) ∧
      exec .fcount s = .next { s with freq := f, nsym := (presentSymbols (freqOf X)).length, ipos := ip }

/-- 41_frequency_counter.md R163: the counts sum to n; NSYM is at most n and 256, and 0 exactly for the empty input;
the order of the input does not matter. -/
def Obligations.FcountLaws : Prop :=
  ∀ (s t : State) (X Y : List Byte), LatchedIs s X → LatchedIs t Y → X.Perm Y →
    s.freq = Vector.replicate 256 0 → t.freq = Vector.replicate 256 0 → s.nsym = 0 → t.nsym = 0 →
      ∃ u v, exec .fcount s = .next u ∧ exec .fcount t = .next v ∧ u.freq = v.freq ∧ u.nsym = v.nsym ∧
        u.freq.toList.sum = s.n ∧ u.nsym ≤ s.n ∧ u.nsym ≤ 256 ∧ (u.nsym = 0 ↔ s.n = 0) ∧
        ∀ b, counts u.freq b ≤ s.n

/-- 10_state.md R48, 70_reset_and_hazards.md R315: FCOUNT of an operand with a byte the host never wrote is a fault of
the model (log 4). -/
def Obligations.FcountOfAnUnwrittenByteFaults : Prop :=
  ∀ (s : State) (i : Nat), s.n ≤ s.cfg.ibufBytes → i < s.n → s.ibuf.read i = none →
    exec .fcount s = .fault .ibufUnwritten

/-! ### TBUILD -/

/-- 42_tree_builder.md R171: the candidate selected is the live node of smallest weight, and of those the one with the
smallest index; there is one exactly when some node is live. -/
def Obligations.LowestCandidateIsSelected : Prop :=
  ∀ ns : List Node,
    (∀ i, lowestLive ns = some i ↔
      ∃ nd, ns[i]? = some nd ∧ nd.live = true ∧
        ∀ j nd', ns[j]? = some nd' → nd'.live = true → j ≠ i → nd.w < nd'.w ∨ (nd.w = nd'.w ∧ i < j)) ∧
    (lowestLive ns = none ↔ ∀ nd ∈ ns, nd.live = false)

/-- 42_tree_builder.md R174, R176: from an empty arena and k symbols present TBUILD makes 2k − 1 nodes, the first k of
them the leaves in ascending symbol order, ROOT the last and the only candidate left, its weight the sum of the
counts. Only NODE and ROOT change. -/
def Obligations.TbuildMakesTheArena : Prop :=
  ∀ (s : State) (syms : List Byte), s.nodes = [] → syms = presentSymbols (counts s.freq) → 1 ≤ syms.length →
    ∃ ns, exec .tbuild s = .next { s with nodes := ns, root := 2 * syms.length - 2 } ∧
      ns.length = 2 * syms.length - 1 ∧
      nodeWeight ns (2 * syms.length - 2) = (syms.map (counts s.freq)).sum ∧
      (∀ i nd, ns[i]? = some nd → (nd.live = true ↔ i = 2 * syms.length - 2)) ∧
      (∀ (i : Nat) (b : Byte), syms[i]? = some b → ∃ nd : Node, ns[i]? = some nd ∧ nd.kind = .leaf b ∧ nd.w = counts s.freq b)

/-- 10_state.md R35: after TBUILD the arena is one tree: children come before their parents, the two children differ,
and every node but the root is the child of exactly one node. -/
def Obligations.ArenaIsATree : Prop :=
  ∀ s t : State, s.nodes = [] → 1 ≤ (presentSymbols (counts s.freq)).length → exec .tbuild s = .next t →
    (∀ (i : Nat) (nd : Node) (l r : Nat), t.nodes[i]? = some nd → nd.kind = .internal l r → l < i ∧ r < i ∧ l ≠ r) ∧
    ∀ j < t.nnode, j ≠ t.root →
      ∃ i, ∀ k : Nat, (∃ (nd : Node) (l r : Nat), t.nodes[k]? = some nd ∧ nd.kind = .internal l r ∧ (l = j ∨ r = j)) ↔ k = i

/-- 42_tree_builder.md R178: the arena holds the tree of the functional form. -/
def Obligations.TbuildBuildsTheFunctionalTree : Prop :=
  ∀ s : State, s.nodes = [] → 1 ≤ (presentSymbols (counts s.freq)).length →
    ∃ t T, exec .tbuild s = .next t ∧ treeOf (counts s.freq) = some T ∧ treeAt t.nodes 256 t.root = some T

/-- 42_tree_builder.md R172 run with no candidate at all, which R170 rules out in a command: TBUILD completes with some
9-bit ROOT (log 7). -/
def Obligations.TbuildWithoutCandidates : Prop :=
  ∀ s : State, s.nodes = [] → s.freq = Vector.replicate 256 0 →
    ∃ r < 512, exec .tbuild s = .next { s with root := r, freeCtr := s.freeCtr + 1 }

/-! ### CGEN -/

/-- 43_code_table_generator.md R192: the root is a leaf. -/
def Obligations.CgenGivesTheOnlySymbolZero : Prop :=
  ∀ (s : State) (nd : Node) (b : Byte), s.root < 511 → s.nodes[s.root]? = some nd → nd.kind = .leaf b →
    exec .cgen s = .next { s with code := s.code.set b.toNat [false] b.isLt }

/-- 43_code_table_generator.md R191, R193: CGEN records the codes of the tree in the arena, each symbol's path from the
root, 0 for left and 1 for right. Only CODE_LEN and CODE_BITS change. -/
def Obligations.CgenRecordsThePathsOfTheTree : Prop :=
  ∀ (s : State) (T : HTree), s.nnode ≤ 511 → treeAt s.nodes 256 s.root = some T → (T.table.map Prod.fst).Nodup →
    ∃ c : Vector Bits 256, exec .cgen s = .next { s with code := c } ∧
      ∀ b : Byte, c.get b.toFin = if b ∈ T.table.map Prod.fst then codeIn T.table b else s.code.get b.toFin

/-- 40_commands.md R150, 43_code_table_generator.md R194, R195: after TBUILD and CGEN exactly the symbols present have a
code, no codeword is a prefix of another, no code is longer than the number of symbols less one (one bit for one
symbol), and with two symbols or more the code is complete: the Kraft sum is 1. -/
def Obligations.CodesArePrefixFreeAndComplete : Prop :=
  ∀ (s : State) (syms : List Byte), s.nodes = [] → s.code = Vector.replicate 256 [] →
    syms = presentSymbols (counts s.freq) → 1 ≤ syms.length →
      ∃ t u, exec .tbuild s = .next t ∧ exec .cgen t = .next u ∧
        (∀ b, 1 ≤ u.codeLen b ↔ 1 ≤ counts s.freq b) ∧
        (∀ a b : Byte, a ≠ b → 1 ≤ u.codeLen a → 1 ≤ u.codeLen b →
          ¬ u.code.get a.toFin <+: u.code.get b.toFin) ∧
        (∀ b, u.codeLen b ≤ max 1 (syms.length - 1)) ∧
        (2 ≤ syms.length → (syms.map fun b => 2 ^ (255 - u.codeLen b)).sum = 2 ^ 255)

/-! ### Bit strings, BPACK, TSER -/

/-- 44_table_codec.md R202, 20_memory.md R65: code bit 8j + t is bit 7 − t of byte j, and positions past the code's end
are 0. -/
def Obligations.CodeBytePlacesEachBit : Prop :=
  ∀ (c : Bits) (j t : Nat), t < 8 → (codeByte c j).getLsbD (7 - t) = c.getD (8 * j + t) false

/-- 00_scope.md R14, 45_bit_packer.md R238: unpacking what was packed gives it back, and packing makes ceil8 bytes. -/
def Obligations.UnpackUndoesPack : Prop :=
  ∀ c : Bits, unpack (pack c) c.length = c ∧ (pack c).length = ceil8 c.length ∧
    8 * (pack c).length = c.length + (padCount c.length).val

/-- 45_bit_packer.md R234: the padding count, with its table. -/
def Obligations.PaddingCountIsNeverEight : Prop :=
  (∀ L, (padCount L).val = (8 - L % 8) % 8 ∧ (padCount L).val ≤ 7 ∧ (L % 8 = 0 → padCount L = 0)) ∧
    (List.range 8).map (fun L => (padCount L).val) = [0, 7, 6, 5, 4, 3, 2, 1]

/-- 20_memory.md R72: bytes written at ascending indexes are read back there, and every other index reads as before. -/
def Obligations.StoredBytesAreReadBack : Prop :=
  ∀ (m : Memory) (i : Nat) (bs : List Byte) (j : Nat),
    (m.writeBytes i bs).read j = if i ≤ j ∧ j < i + bs.length then bs[j - i]? else m.read j

/-- 45_bit_packer.md R231, R236: BPACK packs the codewords of the input, from OBUF[HDR_LEN] on. Only OBUF, TOTALBITS,
PAD, PK_ACC, PK_N and the cursors change, and of OBUF only the payload's bytes. -/
def Obligations.BpackPacksTheCodewords : Prop :=
  ∀ (s : State) (X : List Byte) (B : Bits), LatchedIs s X → B = X.flatMap (fun b => s.code.get b.toFin) →
    s.hdrLen + ceil8 B.length ≤ s.cfg.obufBytes →
      ∃ ip op a k, exec .bpack s = .next { s with
        obuf := s.obuf.writeBytes s.hdrLen (pack B), totalBits := B.length, pad := padCount B.length
        pkAcc := a, pkN := k, ipos := ip, opos := op }

/-- 44_table_codec.md R201, R203, 40_commands.md R138: TSER writes T, P and the entries in ascending symbol order at
OBUF[0 .. HDR_LEN − 1]. Only OBUF and OPOS change. -/
def Obligations.TserWritesTheHeader : Prop :=
  ∀ (s : State) (H : List Byte),
    H = [tableSizeByte s.nsym, BitVec.ofNat 8 s.pad.val]
        ++ (alphabet.filter fun b => 1 ≤ s.codeLen b).flatMap (fun b => entryBytes b (s.code.get b.toFin)) →
    H.length ≤ s.cfg.obufBytes →
      exec .tser s = .next { s with obuf := s.obuf.writeBytes 0 H, opos := H.length } ∧
        H.length = headerLength s.code

/-! ### TDES -/

/-- 44_table_codec.md R211, R212, 30_encoding.md R104: TDES of a container shorter than 2 bytes, of one with P greater
than 7, whatever stands after the two header bytes, and of the empty container. -/
def Obligations.TdesHeaderCases : Prop :=
  ∀ s : State,
    (s.n < 2 → exec .tdes s = .next (s.raiseErr .malformedTable)) ∧
    (∀ t p : Byte, 2 ≤ s.n → s.n ≤ s.cfg.ibufBytes → s.ibuf.read 0 = some t → s.ibuf.read 1 = some p →
      7 < p.toNat → exec .tdes s = .next ({ s with tb := t, pb := p }.raiseErr .malformedTable)) ∧
    (LatchedIs s [0x00, 0x00] →
      exec .tdes s = .next { s with tb := 0, pb := 0, tn := 0, ipos := 2, payStart := 2 })

/-- 44_table_codec.md R210, R213, R214: TDES from an empty decode table. Where the header and table can be read, TB, PB,
TN, DT, LMAX, PAY_START and the cursor get what they say and nothing else changes; otherwise the command ends with
MalformedTable. That the encoder's registers keep their values then is the model's choice (log 13). -/
def Obligations.TdesReadsTheTable : Prop :=
  ∀ (s : State) (X : List Byte), LatchedIs s X → s.dt = [] → s.lmax = 0 →
    (∀ p, parseContainer X = some p →
      exec .tdes s = .next { s with
        tb := p.tb, pb := p.pb, tn := p.tn, dt := p.entries, lmax := maxLength p.entries
        ipos := p.payStart, payStart := p.payStart }) ∧
    (parseContainer X = none →
      ∃ t, exec .tdes s = .next t ∧ EndedWithError t .malformedTable ∧ SameHostSide s t ∧ SameEncoderSide s t)

/-! ### BWALK -/

/-- 10_state.md R39, 30_encoding.md R114: of two entries with the same codeword the later one is found. -/
def Obligations.LaterEntryIsFound : Prop :=
  ∀ (dt : List DtEntry) (e : DtEntry) (a : Bits),
    lookup (dt ++ [e]) a = (if e.bits = a then some e.sym else lookup dt a) ∧ lookup [] a = none

/-- 46_decoder.md R252, R255, R258: what one payload bit does. UnknownCode is raised at the bit that makes the unmatched
accumulator longer than LMAX; an unmatched accumulator of LMAX bits raises nothing. -/
def Obligations.OnePayloadBit : Prop :=
  ∀ (s : State) (bit : Bool) (acc : Bits), acc = s.acc ++ [bit] →
    (lookup s.dt acc = none → acc.length ≤ s.lmax → scanBit bit s = .ok { s with acc := acc }) ∧
    (lookup s.dt acc = none → s.lmax < acc.length →
      scanBit bit s = .error (.raised .unknownCode { s with acc := acc })) ∧
    (∀ sym, lookup s.dt acc = some sym → s.ocnt = s.cfg.obufBytes →
      scanBit bit s = .error (.raised .capacityExceeded { s with acc := acc })) ∧
    (∀ sym, lookup s.dt acc = some sym → s.ocnt < s.cfg.obufBytes →
      ∃ op, scanBit bit s = .ok { s with
        acc := [], ocnt := s.ocnt + 1, obuf := s.obuf.write s.ocnt sym, opos := op })

/-- 46_decoder.md R251, R253, R257, R260: BWALK is the walk of the functional form over the scanned bits. On success only
OBUF[0 .. OCNT − 1], OCNT, ACC and the cursors change. That the encoder's registers keep their values after an error is
the model's choice (log 13). -/
def Obligations.BwalkWalksThePayload : Prop :=
  ∀ (s : State) (X : List Byte), LatchedIs s X → s.pb.toNat ≤ 7 →
    match walkFn s.dt s.lmax s.cfg.obufBytes (scannedBits (X.drop s.payStart) s.pb.toNat) [] [] with
    | .ok out =>
      ∃ ip op, exec .bwalk s = .next { s with
        obuf := s.obuf.writeBytes 0 out, ocnt := out.length, acc := [], ipos := ip, opos := op }
    | .error e =>
      ∃ t, exec .bwalk s = .next t ∧ EndedWithError t e ∧ SameHostSide s t ∧ SameEncoderSide s t

/-- 46_decoder.md R256: no payload byte, whatever PB and the buffers hold. -/
def Obligations.BwalkWithoutPayload : Prop :=
  ∀ s : State, s.payStart = s.n →
    ∃ ip op, exec .bwalk s = .next { s with ocnt := 0, acc := [], ipos := ip, opos := op }

/-! ### The commands -/

/-- 40_commands.md R135, R136, R139, R145: with one atomic step a command, ENCODE of a provided operand X ends with
`encode(X)` in OBUF, or with CapacityExceeded where it does not fit; the host's side and the free-value counter are
untouched. What the clauses on n, TB, TN, PB, PAY_START and the decoder's cleared registers say of hidden registers
after the command has ended is the model's choice (log 13; 93_implementation_defined.md U4 leaves any value). -/
def Obligations.EncodeGivesTheContainer : Prop :=
  ∀ (s : State) (X : List Byte), s.cfg.grain = .command → CommandReady s X →
    ∃ t, exec .encode s = .next t ∧
      (if (encodeFn X).length ≤ s.cfg.obufBytes then EndedWith t (encodeFn X)
        else EndedWithError t .capacityExceeded) ∧
      SameHostSide s t ∧ t.n = X.length ∧ t.tb = s.tb ∧ t.tn = s.tn ∧ t.pb = s.pb ∧ t.payStart = s.payStart ∧
      DecoderCleared t ∧ t.freeCtr = s.freeCtr

/-- 40_commands.md R140, R142, 60_exceptions.md R278: with one atomic step a command, DECODE of a provided operand C ends
with `decode(C)`: its bytes in OBUF or its error; the host's side is untouched. What the clauses on n, ROOT and
the encoder's cleared registers say of hidden registers after the command has ended is the model's choice (log 13;
93_implementation_defined.md U4 leaves any value). -/
def Obligations.DecodeGivesTheBytesOrTheError : Prop :=
  ∀ (s : State) (C : List Byte), s.cfg.grain = .command → CommandReady s C →
    ∃ t, exec .decode s = .next t ∧
      (match decodeFn s.cfg.obufBytes C with
        | .ok out => EndedWith t out
        | .error e => EndedWithError t e) ∧
      SameHostSide s t ∧ t.n = C.length ∧ t.root = s.root ∧ EncoderCleared t ∧ t.freeCtr = s.freeCtr

/-- 40_commands.md R143: decode(encode(X)) = X, on the functions. -/
def Obligations.DecodeUndoesEncode : Prop :=
  ∀ (X : List Byte) (cap : Nat), X.length ≤ cap → decodeFn cap (encodeFn X) = .ok X

/-- 40_commands.md R143: the round trip in register terms. From a provided operand X, ENCODE; WAIT; COPYBACK; DECODE;
WAIT ends with ERR = 0, OUT_LEN = len(X) and X in OBUF, provided no capacity is exceeded. -/
def Obligations.RoundTripOnTheMachine : Prop :=
  ∀ (s : State) (X : List Byte) (rest : List HostMove), s.cfg.wf → s.cfg.grain = .command → CommandReady s X →
    (encodeFn X).length ≤ s.cfg.obufBytes → (encodeFn X).length ≤ s.cfg.ibufBytes →
    X.length ≤ s.cfg.obufBytes →
    s.host = [cmdMove 1, .wait, .copyback, cmdMove 2, .wait] ++ rest →
      ∃ t, Sys2Proof.core.run 5 s = .next t ∧ EndedWith t X ∧ t.host = rest ∧ t.reply = .word 0x00000002 ∧
        OperandIs t (encodeFn X)

/-- 40_commands.md R132: the finer model gives the same final state. Six steps from the CMD write, with no host move in
between, are the atomic command, the grain parameter apart; also where it stops. -/
def Obligations.FinerModelAgreesWithTheAtomicOne : Prop :=
  ∀ (s : State) (i : Instr) (v : Word), decodeCmd v = .ok i → s.stat ≠ .busy → s.cfg.grain = .microOp →
    s.host = [cmdMove v] →
      Sys2Proof.core.run 6 s =
        match exec i { s with host := [], cfg := { s.cfg with grain := .command } } with
        | .next t => .next { t with cfg := s.cfg }
        | .fault f => .fault f
        | .refused r => .refused r

/-- 40_commands.md R134, R149: every command ends. From any BUSY state with a running phase, five steps of the core that
do not stop leave STATE = DONE. -/
def Obligations.RunningCommandEnds : Prop :=
  ∀ s t : State, s.host = [] → s.stat = .busy → s.phase ≠ .none → Sys2Proof.core.run 5 s = .next t → t.stat = .done

/-- 10_state.md R45, R82: the result of a command depends on the operand, IN_LEN, the parameters and the command only,
never on what an earlier command left. -/
def Obligations.ResultDependsOnTheOperandOnly : Prop :=
  ∀ (s s' t : State) (i : Instr), i = .encode ∨ i = .decode → s.cfg.grain = .command → s'.cfg = s.cfg →
    s.stat ≠ .busy → s'.stat ≠ .busy → s'.inLen = s.inLen →
    (∀ j < s.inLen, s'.ibuf.read j = s.ibuf.read j) → exec i s = .next t →
      ∃ t', exec i s' = .next t' ∧ t'.stat = t.stat ∧ t'.phase = t.phase ∧ t'.err = t.err ∧
        t'.outLen = t.outLen ∧ t'.obuf = t.obuf

/-- 40_commands.md R100, R150, 30_encoding.md R96: for a non-empty X the container's length, its table-size byte, its
padding count, and its payload bits as the sum of code length times count. -/
def Obligations.ContainerOfANonEmptyInput : Prop :=
  ∀ (X : List Byte) (table : List (Byte × Bits)) (syms : List Byte) (bits : Nat), X ≠ [] →
    table = codeTable (freqOf X) → syms = presentSymbols (freqOf X) →
    bits = (syms.map fun b => (codeIn table b).length * freqOf X b).sum →
      (encodeFn X).length = headerSize table syms + ceil8 bits ∧
      ((encodeFn X)[0]? = some 0 ↔ syms.length = 256) ∧
      (encodeFn X)[1]? = some (BitVec.ofNat 8 ((8 - bits % 8) % 8)) ∧
      bits = (codedInput table X).length ∧ headerSize table syms < (encodeFn X).length

/-- 42_tree_builder.md R182: inputs with the same counts have the same header and payloads of the same length. -/
def Obligations.HeaderDependsOnTheCountsOnly : Prop :=
  ∀ X Y : List Byte, X.Perm Y →
    ∃ H p q, encodeFn X = H ++ p ∧ encodeFn Y = H ++ q ∧ p.length = q.length ∧
      H.length = headerSize (codeTable (freqOf X)) (presentSymbols (freqOf X))

/-- 44_table_codec.md R216: a container that ENCODE wrote, cut short in its header. -/
def Obligations.TruncationInsideTheTable : Prop :=
  ∀ (X : List Byte) (cap k h : Nat), X ≠ [] → h = headerSize (codeTable (freqOf X)) (presentSymbols (freqOf X)) →
    (2 < k → k < h → decodeFn cap ((encodeFn X).take k) = .error .malformedTable) ∧
    (k = h → decodeFn cap ((encodeFn X).take k) = .ok []) ∧
    (k = 2 → (encodeFn X).take k ≠ [0x00, 0x00] → decodeFn cap ((encodeFn X).take k) = .error .malformedTable) ∧
    (k < 2 → decodeFn cap ((encodeFn X).take k) = .error .malformedTable)

/-! ### Frames and invariants over all instructions -/

/-- 10_state.md R26, 20_memory.md R60: no instruction changes the parameters, IN_LEN, IBUF or the host's side. -/
def Obligations.InstructionsLeaveTheHostSide : Prop :=
  ∀ (i : Instr) (s t : State), exec i s = .next t → SameHostSide s t

/-- 20_memory.md R60, 10_state.md R21: no step changes the parameters, and the buffers stay canonical and inside their
capacities. -/
def Obligations.StepKeepsTheBuffers : Prop :=
  ∀ s t : State, step s = .next t → t.cfg = s.cfg ∧ (BuffersInv s → BuffersInv t)

/-- 10_state.md R27, R28, R30, 60_exceptions.md R280: the status fields stay consistent. -/
def Obligations.StepKeepsTheStatusFields : Prop :=
  ∀ s t : State, StatusInv s → step s = .next t → StatusInv t

/-- 00_scope.md R9, R10, R18, 10_state.md R26, R27, R29, R31 to R42: every register and table stays within its width, HDR_LEN
after a CapacityExceeded excepted, which `WidthsInv` then bounds by the largest header alone (log 14). No count or weight
exceeds n, no cursor its buffer's length. That these relations also hold between commands and after an error rests on
the values the model keeps there (log 3, log 13). -/
def Obligations.StepKeepsTheWidths : Prop :=
  ∀ s t : State, WidthsInv s → step s = .next t → WidthsInv t

/-- 10_state.md R48, 70_reset_and_hazards.md R315: an operand byte the host never wrote stops every instruction that reads
it, as a fault of the model (log 4): ENCODE anywhere in the operand, DECODE and TDES at a header byte, BPACK anywhere,
BWALK at the first payload byte. TDES never takes such a byte into the table it reads, and neither BWALK nor DECODE ends
without an error on one. -/
def Obligations.UnwrittenOperandByteStops : Prop :=
  ∀ (s : State) (i : Nat), s.ibuf.read i = none →
    (s.stat ≠ .busy → s.cfg.grain = .command → s.inLen ≤ s.cfg.ibufBytes → i < s.inLen →
      exec .encode s = .fault .ibufUnwritten ∧ (i < 2 → 2 ≤ s.inLen → exec .decode s = .fault .ibufUnwritten) ∧
        ∀ t, exec .decode s = .next t → t.err ≠ .ok) ∧
    (s.n ≤ s.cfg.ibufBytes → i < s.n →
      ((∀ b, s.codeLen b ≤ 255) → s.hdrLen + 32 * s.n ≤ s.cfg.obufBytes → exec .bpack s = .fault .ibufUnwritten) ∧
      (i < 2 → 2 ≤ s.n → exec .tdes s = .fault .ibufUnwritten) ∧
      (s.stat = .busy → ∀ t, exec .tdes s = .next t → t.stat = .busy → t.payStart ≤ i) ∧
      (s.payStart = i → exec .bwalk s = .fault .ibufUnwritten) ∧
      (s.stat = .busy → s.payStart ≤ i → ∀ t, exec .bwalk s = .next t → EndedWithError t t.err ∧ t.err ≠ .ok))
end

