-- ==== Sys2Proof/Laws/Bitstrings.lean ====
section
/-! SUPPORT. Laws of bit strings, the alphabet and tables indexed by symbol. -/

namespace Sys2Proof.Machine

@[simp] theorem alphabet_length : alphabet.length = 256 := by simp [alphabet]

/-- The alphabet's element at index `i` is the symbol `i`. -/
theorem alphabet_getElem (i : Nat) (h : i < alphabet.length) : alphabet[i] = BitVec.ofNat 8 i := by
  simp [alphabet]

/-- Every byte is a symbol. -/
@[simp] theorem mem_alphabet (b : Byte) : b ∈ alphabet := by
  simp only [alphabet, List.mem_map, List.mem_range]
  exact ⟨b.toNat, b.isLt, by simp⟩

/-- No symbol is listed twice. -/
theorem alphabet_nodup : alphabet.Nodup := by
  unfold alphabet
  refine List.Nodup.map_on ?_ List.nodup_range
  intro x hx y hy h
  have := congrArg BitVec.toNat h
  simp only [BitVec.toNat_ofNat, List.mem_range] at *
  omega

/-- A table listed with its symbols is the alphabet with each symbol's element. -/
theorem symbolTable_eq_map {α : Type} (v : Vector α 256) :
    symbolTable v = alphabet.map fun b => (b, v.get b.toFin) := by
  apply List.ext_getElem
  · simp [symbolTable]
  · intro i h₁ h₂
    have hi : i < 256 := by simpa [symbolTable] using h₁
    simp [symbolTable, alphabet_getElem, Vector.get, Nat.mod_eq_of_lt hi]

@[simp] theorem byteBits_length (b : Byte) : (byteBits b).length = 8 := by simp [byteBits]

@[simp] theorem pack_length (c : Bits) : (pack c).length = ceil8 c.length := by simp [pack]

/-- The bits of a byte sequence. -/
theorem flatMap_byteBits_length (bytes : List Byte) : (bytes.flatMap byteBits).length = 8 * bytes.length := by
  induction bytes with
  | nil => rfl
  | cons b bs ih => simp [ih]; omega

/-- Enough bytes unpack to exactly the number of bits asked for. -/
theorem unpack_length (bytes : List Byte) {n : Nat} (h : n ≤ 8 * bytes.length) : (unpack bytes n).length = n := by
  rw [unpack, List.length_take, flatMap_byteBits_length]
  exact Nat.min_eq_left h

/-- `ceil8` bytes are enough for the bits. -/
theorem le_ceil8 (n : Nat) : n ≤ 8 * ceil8 n := by unfold ceil8; omega

@[simp] theorem padCount_val (n : Nat) : (padCount n).val = (8 - n % 8) % 8 := rfl

/-- An entry is 2 + ceil8(L) bytes long (30_encoding.md R97). -/
@[simp] theorem entryBytes_length (sym : Byte) (c : Bits) : (entryBytes sym c).length = entryLength c.length := by
  simp [entryBytes, entryLength]; omega

/-- An entry is 3 bytes long up to 8 bits and 34 bytes from 249 bits on (30_encoding.md R97). -/
theorem entryLength_bounds {len : Nat} (h : 1 ≤ len) (h' : len ≤ 255) : 3 ≤ entryLength len ∧ entryLength len ≤ 34 := by
  unfold entryLength ceil8; omega

end Sys2Proof.Machine
end

