-- ==== Sys2Proof/Laws/State.lean ====
section
/-! SUPPORT. One lemma for each field of each named update of State, so that no proof unfolds a record update. -/

namespace Sys2Proof.Machine

/-! ### The clearing of 10_state.md R45 -/

@[simp] theorem State.clearWorking_cfg (s : State) : s.clearWorking.cfg = s.cfg := rfl
@[simp] theorem State.clearWorking_stat (s : State) : s.clearWorking.stat = s.stat := rfl
@[simp] theorem State.clearWorking_phase (s : State) : s.clearWorking.phase = s.phase := rfl
@[simp] theorem State.clearWorking_err (s : State) : s.clearWorking.err = s.err := rfl
@[simp] theorem State.clearWorking_inLen (s : State) : s.clearWorking.inLen = s.inLen := rfl
@[simp] theorem State.clearWorking_outLen (s : State) : s.clearWorking.outLen = s.outLen := rfl
@[simp] theorem State.clearWorking_ibuf (s : State) : s.clearWorking.ibuf = s.ibuf := rfl
@[simp] theorem State.clearWorking_obuf (s : State) : s.clearWorking.obuf = s.obuf := rfl
@[simp] theorem State.clearWorking_n (s : State) : s.clearWorking.n = s.n := rfl
@[simp] theorem State.clearWorking_ipos (s : State) : s.clearWorking.ipos = 0 := rfl
@[simp] theorem State.clearWorking_opos (s : State) : s.clearWorking.opos = 0 := rfl
@[simp] theorem State.clearWorking_freq (s : State) : s.clearWorking.freq = Vector.replicate 256 0 := rfl
@[simp] theorem State.clearWorking_nsym (s : State) : s.clearWorking.nsym = 0 := rfl
@[simp] theorem State.clearWorking_nodes (s : State) : s.clearWorking.nodes = [] := rfl
@[simp] theorem State.clearWorking_root (s : State) : s.clearWorking.root = s.root := rfl
@[simp] theorem State.clearWorking_code (s : State) : s.clearWorking.code = Vector.replicate 256 [] := rfl
@[simp] theorem State.clearWorking_hdrLen (s : State) : s.clearWorking.hdrLen = 0 := rfl
@[simp] theorem State.clearWorking_totalBits (s : State) : s.clearWorking.totalBits = 0 := rfl
@[simp] theorem State.clearWorking_pad (s : State) : s.clearWorking.pad = 0 := rfl
@[simp] theorem State.clearWorking_pkAcc (s : State) : s.clearWorking.pkAcc = 0 := rfl
@[simp] theorem State.clearWorking_pkN (s : State) : s.clearWorking.pkN = 0 := rfl
@[simp] theorem State.clearWorking_tb (s : State) : s.clearWorking.tb = s.tb := rfl
@[simp] theorem State.clearWorking_tn (s : State) : s.clearWorking.tn = s.tn := rfl
@[simp] theorem State.clearWorking_pb (s : State) : s.clearWorking.pb = s.pb := rfl
@[simp] theorem State.clearWorking_dt (s : State) : s.clearWorking.dt = [] := rfl
@[simp] theorem State.clearWorking_lmax (s : State) : s.clearWorking.lmax = 0 := rfl
@[simp] theorem State.clearWorking_payStart (s : State) : s.clearWorking.payStart = s.payStart := rfl
@[simp] theorem State.clearWorking_acc (s : State) : s.clearWorking.acc = [] := rfl
@[simp] theorem State.clearWorking_ocnt (s : State) : s.clearWorking.ocnt = 0 := rfl
@[simp] theorem State.clearWorking_host (s : State) : s.clearWorking.host = s.host := rfl
@[simp] theorem State.clearWorking_reply (s : State) : s.clearWorking.reply = s.reply := rfl
@[simp] theorem State.clearWorking_freeCtr (s : State) : s.clearWorking.freeCtr = s.freeCtr := rfl

/-! ### Command start, 40_commands.md R131 -/

@[simp] theorem State.startCommand_cfg (s : State) : s.startCommand.cfg = s.cfg := rfl
@[simp] theorem State.startCommand_stat (s : State) : s.startCommand.stat = .busy := rfl
@[simp] theorem State.startCommand_phase (s : State) : s.startCommand.phase = .none := rfl
@[simp] theorem State.startCommand_err (s : State) : s.startCommand.err = .ok := rfl
@[simp] theorem State.startCommand_inLen (s : State) : s.startCommand.inLen = s.inLen := rfl
@[simp] theorem State.startCommand_outLen (s : State) : s.startCommand.outLen = 0 := rfl
@[simp] theorem State.startCommand_ibuf (s : State) : s.startCommand.ibuf = s.ibuf := rfl
@[simp] theorem State.startCommand_obuf (s : State) : s.startCommand.obuf = [] := rfl
@[simp] theorem State.startCommand_n (s : State) : s.startCommand.n = s.inLen := rfl
@[simp] theorem State.startCommand_ipos (s : State) : s.startCommand.ipos = 0 := rfl
@[simp] theorem State.startCommand_opos (s : State) : s.startCommand.opos = 0 := rfl
@[simp] theorem State.startCommand_freq (s : State) : s.startCommand.freq = Vector.replicate 256 0 := rfl
@[simp] theorem State.startCommand_nsym (s : State) : s.startCommand.nsym = 0 := rfl
@[simp] theorem State.startCommand_nodes (s : State) : s.startCommand.nodes = [] := rfl
@[simp] theorem State.startCommand_root (s : State) : s.startCommand.root = s.root := rfl
@[simp] theorem State.startCommand_code (s : State) : s.startCommand.code = Vector.replicate 256 [] := rfl
@[simp] theorem State.startCommand_hdrLen (s : State) : s.startCommand.hdrLen = 0 := rfl
@[simp] theorem State.startCommand_totalBits (s : State) : s.startCommand.totalBits = 0 := rfl
@[simp] theorem State.startCommand_pad (s : State) : s.startCommand.pad = 0 := rfl
@[simp] theorem State.startCommand_pkAcc (s : State) : s.startCommand.pkAcc = 0 := rfl
@[simp] theorem State.startCommand_pkN (s : State) : s.startCommand.pkN = 0 := rfl
@[simp] theorem State.startCommand_tb (s : State) : s.startCommand.tb = s.tb := rfl
@[simp] theorem State.startCommand_tn (s : State) : s.startCommand.tn = s.tn := rfl
@[simp] theorem State.startCommand_pb (s : State) : s.startCommand.pb = s.pb := rfl
@[simp] theorem State.startCommand_dt (s : State) : s.startCommand.dt = [] := rfl
@[simp] theorem State.startCommand_lmax (s : State) : s.startCommand.lmax = 0 := rfl
@[simp] theorem State.startCommand_payStart (s : State) : s.startCommand.payStart = s.payStart := rfl
@[simp] theorem State.startCommand_acc (s : State) : s.startCommand.acc = [] := rfl
@[simp] theorem State.startCommand_ocnt (s : State) : s.startCommand.ocnt = 0 := rfl
@[simp] theorem State.startCommand_host (s : State) : s.startCommand.host = s.host := rfl
@[simp] theorem State.startCommand_reply (s : State) : s.startCommand.reply = s.reply := rfl
@[simp] theorem State.startCommand_freeCtr (s : State) : s.startCommand.freeCtr = s.freeCtr := rfl

/-! ### `PHASE <- p` -/

@[simp] theorem State.enterPhase_cfg (s : State) (p : Phase) : (s.enterPhase p).cfg = s.cfg := rfl
@[simp] theorem State.enterPhase_stat (s : State) (p : Phase) : (s.enterPhase p).stat = s.stat := rfl
@[simp] theorem State.enterPhase_phase (s : State) (p : Phase) : (s.enterPhase p).phase = p := rfl
@[simp] theorem State.enterPhase_err (s : State) (p : Phase) : (s.enterPhase p).err = s.err := rfl
@[simp] theorem State.enterPhase_inLen (s : State) (p : Phase) : (s.enterPhase p).inLen = s.inLen := rfl
@[simp] theorem State.enterPhase_outLen (s : State) (p : Phase) : (s.enterPhase p).outLen = s.outLen := rfl
@[simp] theorem State.enterPhase_ibuf (s : State) (p : Phase) : (s.enterPhase p).ibuf = s.ibuf := rfl
@[simp] theorem State.enterPhase_obuf (s : State) (p : Phase) : (s.enterPhase p).obuf = s.obuf := rfl
@[simp] theorem State.enterPhase_n (s : State) (p : Phase) : (s.enterPhase p).n = s.n := rfl
@[simp] theorem State.enterPhase_ipos (s : State) (p : Phase) : (s.enterPhase p).ipos = s.ipos := rfl
@[simp] theorem State.enterPhase_opos (s : State) (p : Phase) : (s.enterPhase p).opos = s.opos := rfl
@[simp] theorem State.enterPhase_freq (s : State) (p : Phase) : (s.enterPhase p).freq = s.freq := rfl
@[simp] theorem State.enterPhase_nsym (s : State) (p : Phase) : (s.enterPhase p).nsym = s.nsym := rfl
@[simp] theorem State.enterPhase_nodes (s : State) (p : Phase) : (s.enterPhase p).nodes = s.nodes := rfl
@[simp] theorem State.enterPhase_root (s : State) (p : Phase) : (s.enterPhase p).root = s.root := rfl
@[simp] theorem State.enterPhase_code (s : State) (p : Phase) : (s.enterPhase p).code = s.code := rfl
@[simp] theorem State.enterPhase_hdrLen (s : State) (p : Phase) : (s.enterPhase p).hdrLen = s.hdrLen := rfl
@[simp] theorem State.enterPhase_totalBits (s : State) (p : Phase) : (s.enterPhase p).totalBits = s.totalBits := rfl
@[simp] theorem State.enterPhase_pad (s : State) (p : Phase) : (s.enterPhase p).pad = s.pad := rfl
@[simp] theorem State.enterPhase_pkAcc (s : State) (p : Phase) : (s.enterPhase p).pkAcc = s.pkAcc := rfl
@[simp] theorem State.enterPhase_pkN (s : State) (p : Phase) : (s.enterPhase p).pkN = s.pkN := rfl
@[simp] theorem State.enterPhase_tb (s : State) (p : Phase) : (s.enterPhase p).tb = s.tb := rfl
@[simp] theorem State.enterPhase_tn (s : State) (p : Phase) : (s.enterPhase p).tn = s.tn := rfl
@[simp] theorem State.enterPhase_pb (s : State) (p : Phase) : (s.enterPhase p).pb = s.pb := rfl
@[simp] theorem State.enterPhase_dt (s : State) (p : Phase) : (s.enterPhase p).dt = s.dt := rfl
@[simp] theorem State.enterPhase_lmax (s : State) (p : Phase) : (s.enterPhase p).lmax = s.lmax := rfl
@[simp] theorem State.enterPhase_payStart (s : State) (p : Phase) : (s.enterPhase p).payStart = s.payStart := rfl
@[simp] theorem State.enterPhase_acc (s : State) (p : Phase) : (s.enterPhase p).acc = s.acc := rfl
@[simp] theorem State.enterPhase_ocnt (s : State) (p : Phase) : (s.enterPhase p).ocnt = s.ocnt := rfl
@[simp] theorem State.enterPhase_host (s : State) (p : Phase) : (s.enterPhase p).host = s.host := rfl
@[simp] theorem State.enterPhase_reply (s : State) (p : Phase) : (s.enterPhase p).reply = s.reply := rfl
@[simp] theorem State.enterPhase_freeCtr (s : State) (p : Phase) : (s.enterPhase p).freeCtr = s.freeCtr := rfl

/-! ### Command end, 40_commands.md R134 -/

@[simp] theorem State.endCommand_cfg (s : State) (len : Nat) : (s.endCommand len).cfg = s.cfg := rfl
@[simp] theorem State.endCommand_stat (s : State) (len : Nat) : (s.endCommand len).stat = .done := rfl
@[simp] theorem State.endCommand_phase (s : State) (len : Nat) : (s.endCommand len).phase = .none := rfl
@[simp] theorem State.endCommand_err (s : State) (len : Nat) : (s.endCommand len).err = s.err := rfl
@[simp] theorem State.endCommand_inLen (s : State) (len : Nat) : (s.endCommand len).inLen = s.inLen := rfl
@[simp] theorem State.endCommand_outLen (s : State) (len : Nat) : (s.endCommand len).outLen = len := rfl
@[simp] theorem State.endCommand_ibuf (s : State) (len : Nat) : (s.endCommand len).ibuf = s.ibuf := rfl
@[simp] theorem State.endCommand_obuf (s : State) (len : Nat) : (s.endCommand len).obuf = s.obuf := rfl
@[simp] theorem State.endCommand_n (s : State) (len : Nat) : (s.endCommand len).n = s.n := rfl
@[simp] theorem State.endCommand_ipos (s : State) (len : Nat) : (s.endCommand len).ipos = s.ipos := rfl
@[simp] theorem State.endCommand_opos (s : State) (len : Nat) : (s.endCommand len).opos = s.opos := rfl
@[simp] theorem State.endCommand_freq (s : State) (len : Nat) : (s.endCommand len).freq = s.freq := rfl
@[simp] theorem State.endCommand_nsym (s : State) (len : Nat) : (s.endCommand len).nsym = s.nsym := rfl
@[simp] theorem State.endCommand_nodes (s : State) (len : Nat) : (s.endCommand len).nodes = s.nodes := rfl
@[simp] theorem State.endCommand_root (s : State) (len : Nat) : (s.endCommand len).root = s.root := rfl
@[simp] theorem State.endCommand_code (s : State) (len : Nat) : (s.endCommand len).code = s.code := rfl
@[simp] theorem State.endCommand_hdrLen (s : State) (len : Nat) : (s.endCommand len).hdrLen = s.hdrLen := rfl
@[simp] theorem State.endCommand_totalBits (s : State) (len : Nat) : (s.endCommand len).totalBits = s.totalBits := rfl
@[simp] theorem State.endCommand_pad (s : State) (len : Nat) : (s.endCommand len).pad = s.pad := rfl
@[simp] theorem State.endCommand_pkAcc (s : State) (len : Nat) : (s.endCommand len).pkAcc = s.pkAcc := rfl
@[simp] theorem State.endCommand_pkN (s : State) (len : Nat) : (s.endCommand len).pkN = s.pkN := rfl
@[simp] theorem State.endCommand_tb (s : State) (len : Nat) : (s.endCommand len).tb = s.tb := rfl
@[simp] theorem State.endCommand_tn (s : State) (len : Nat) : (s.endCommand len).tn = s.tn := rfl
@[simp] theorem State.endCommand_pb (s : State) (len : Nat) : (s.endCommand len).pb = s.pb := rfl
@[simp] theorem State.endCommand_dt (s : State) (len : Nat) : (s.endCommand len).dt = s.dt := rfl
@[simp] theorem State.endCommand_lmax (s : State) (len : Nat) : (s.endCommand len).lmax = s.lmax := rfl
@[simp] theorem State.endCommand_payStart (s : State) (len : Nat) : (s.endCommand len).payStart = s.payStart := rfl
@[simp] theorem State.endCommand_acc (s : State) (len : Nat) : (s.endCommand len).acc = s.acc := rfl
@[simp] theorem State.endCommand_ocnt (s : State) (len : Nat) : (s.endCommand len).ocnt = s.ocnt := rfl
@[simp] theorem State.endCommand_host (s : State) (len : Nat) : (s.endCommand len).host = s.host := rfl
@[simp] theorem State.endCommand_reply (s : State) (len : Nat) : (s.endCommand len).reply = s.reply := rfl
@[simp] theorem State.endCommand_freeCtr (s : State) (len : Nat) : (s.endCommand len).freeCtr = s.freeCtr := rfl

/-! ### Taking an error, 60_exceptions.md R280 -/

@[simp] theorem State.raiseErr_cfg (s : State) (e : Err) : (s.raiseErr e).cfg = s.cfg := rfl
@[simp] theorem State.raiseErr_stat (s : State) (e : Err) : (s.raiseErr e).stat = .done := rfl
@[simp] theorem State.raiseErr_phase (s : State) (e : Err) : (s.raiseErr e).phase = .none := rfl
@[simp] theorem State.raiseErr_err (s : State) (e : Err) : (s.raiseErr e).err = e := rfl
@[simp] theorem State.raiseErr_inLen (s : State) (e : Err) : (s.raiseErr e).inLen = s.inLen := rfl
@[simp] theorem State.raiseErr_outLen (s : State) (e : Err) : (s.raiseErr e).outLen = 0 := rfl
@[simp] theorem State.raiseErr_ibuf (s : State) (e : Err) : (s.raiseErr e).ibuf = s.ibuf := rfl
@[simp] theorem State.raiseErr_obuf (s : State) (e : Err) : (s.raiseErr e).obuf = [] := rfl
@[simp] theorem State.raiseErr_n (s : State) (e : Err) : (s.raiseErr e).n = s.n := rfl
@[simp] theorem State.raiseErr_ipos (s : State) (e : Err) : (s.raiseErr e).ipos = s.ipos := rfl
@[simp] theorem State.raiseErr_opos (s : State) (e : Err) : (s.raiseErr e).opos = s.opos := rfl
@[simp] theorem State.raiseErr_freq (s : State) (e : Err) : (s.raiseErr e).freq = s.freq := rfl
@[simp] theorem State.raiseErr_nsym (s : State) (e : Err) : (s.raiseErr e).nsym = s.nsym := rfl
@[simp] theorem State.raiseErr_nodes (s : State) (e : Err) : (s.raiseErr e).nodes = s.nodes := rfl
@[simp] theorem State.raiseErr_root (s : State) (e : Err) : (s.raiseErr e).root = s.root := rfl
@[simp] theorem State.raiseErr_code (s : State) (e : Err) : (s.raiseErr e).code = s.code := rfl
@[simp] theorem State.raiseErr_hdrLen (s : State) (e : Err) : (s.raiseErr e).hdrLen = s.hdrLen := rfl
@[simp] theorem State.raiseErr_totalBits (s : State) (e : Err) : (s.raiseErr e).totalBits = s.totalBits := rfl
@[simp] theorem State.raiseErr_pad (s : State) (e : Err) : (s.raiseErr e).pad = s.pad := rfl
@[simp] theorem State.raiseErr_pkAcc (s : State) (e : Err) : (s.raiseErr e).pkAcc = s.pkAcc := rfl
@[simp] theorem State.raiseErr_pkN (s : State) (e : Err) : (s.raiseErr e).pkN = s.pkN := rfl
@[simp] theorem State.raiseErr_tb (s : State) (e : Err) : (s.raiseErr e).tb = s.tb := rfl
@[simp] theorem State.raiseErr_tn (s : State) (e : Err) : (s.raiseErr e).tn = s.tn := rfl
@[simp] theorem State.raiseErr_pb (s : State) (e : Err) : (s.raiseErr e).pb = s.pb := rfl
@[simp] theorem State.raiseErr_dt (s : State) (e : Err) : (s.raiseErr e).dt = s.dt := rfl
@[simp] theorem State.raiseErr_lmax (s : State) (e : Err) : (s.raiseErr e).lmax = s.lmax := rfl
@[simp] theorem State.raiseErr_payStart (s : State) (e : Err) : (s.raiseErr e).payStart = s.payStart := rfl
@[simp] theorem State.raiseErr_acc (s : State) (e : Err) : (s.raiseErr e).acc = s.acc := rfl
@[simp] theorem State.raiseErr_ocnt (s : State) (e : Err) : (s.raiseErr e).ocnt = s.ocnt := rfl
@[simp] theorem State.raiseErr_host (s : State) (e : Err) : (s.raiseErr e).host = s.host := rfl
@[simp] theorem State.raiseErr_reply (s : State) (e : Err) : (s.raiseErr e).reply = s.reply := rfl
@[simp] theorem State.raiseErr_freeCtr (s : State) (e : Err) : (s.raiseErr e).freeCtr = s.freeCtr := rfl

/-! ### RESET, 10_state.md R46 -/

@[simp] theorem State.applyReset_cfg (s : State) : s.applyReset.cfg = s.cfg := rfl
@[simp] theorem State.applyReset_stat (s : State) : s.applyReset.stat = State.reset.stat := rfl
@[simp] theorem State.applyReset_phase (s : State) : s.applyReset.phase = State.reset.phase := rfl
@[simp] theorem State.applyReset_err (s : State) : s.applyReset.err = State.reset.err := rfl
@[simp] theorem State.applyReset_inLen (s : State) : s.applyReset.inLen = State.reset.inLen := rfl
@[simp] theorem State.applyReset_outLen (s : State) : s.applyReset.outLen = State.reset.outLen := rfl
@[simp] theorem State.applyReset_ibuf (s : State) : s.applyReset.ibuf = State.reset.ibuf := rfl
@[simp] theorem State.applyReset_obuf (s : State) : s.applyReset.obuf = State.reset.obuf := rfl
@[simp] theorem State.applyReset_n (s : State) : s.applyReset.n = State.reset.n := rfl
@[simp] theorem State.applyReset_ipos (s : State) : s.applyReset.ipos = State.reset.ipos := rfl
@[simp] theorem State.applyReset_opos (s : State) : s.applyReset.opos = State.reset.opos := rfl
@[simp] theorem State.applyReset_freq (s : State) : s.applyReset.freq = State.reset.freq := rfl
@[simp] theorem State.applyReset_nsym (s : State) : s.applyReset.nsym = State.reset.nsym := rfl
@[simp] theorem State.applyReset_nodes (s : State) : s.applyReset.nodes = State.reset.nodes := rfl
@[simp] theorem State.applyReset_root (s : State) : s.applyReset.root = State.reset.root := rfl
@[simp] theorem State.applyReset_code (s : State) : s.applyReset.code = State.reset.code := rfl
@[simp] theorem State.applyReset_hdrLen (s : State) : s.applyReset.hdrLen = State.reset.hdrLen := rfl
@[simp] theorem State.applyReset_totalBits (s : State) : s.applyReset.totalBits = State.reset.totalBits := rfl
@[simp] theorem State.applyReset_pad (s : State) : s.applyReset.pad = State.reset.pad := rfl
@[simp] theorem State.applyReset_pkAcc (s : State) : s.applyReset.pkAcc = State.reset.pkAcc := rfl
@[simp] theorem State.applyReset_pkN (s : State) : s.applyReset.pkN = State.reset.pkN := rfl
@[simp] theorem State.applyReset_tb (s : State) : s.applyReset.tb = State.reset.tb := rfl
@[simp] theorem State.applyReset_tn (s : State) : s.applyReset.tn = State.reset.tn := rfl
@[simp] theorem State.applyReset_pb (s : State) : s.applyReset.pb = State.reset.pb := rfl
@[simp] theorem State.applyReset_dt (s : State) : s.applyReset.dt = State.reset.dt := rfl
@[simp] theorem State.applyReset_lmax (s : State) : s.applyReset.lmax = State.reset.lmax := rfl
@[simp] theorem State.applyReset_payStart (s : State) : s.applyReset.payStart = State.reset.payStart := rfl
@[simp] theorem State.applyReset_acc (s : State) : s.applyReset.acc = State.reset.acc := rfl
@[simp] theorem State.applyReset_ocnt (s : State) : s.applyReset.ocnt = State.reset.ocnt := rfl
@[simp] theorem State.applyReset_host (s : State) : s.applyReset.host = s.host := rfl
@[simp] theorem State.applyReset_reply (s : State) : s.applyReset.reply = State.reset.reply := rfl
@[simp] theorem State.applyReset_freeCtr (s : State) : s.applyReset.freeCtr = s.freeCtr := rfl

/-! ### Drawing a free value (log 15) -/

@[simp] theorem State.drawFree_cfg (s : State) (k : Nat) : (s.drawFree k).2.cfg = s.cfg := rfl
@[simp] theorem State.drawFree_stat (s : State) (k : Nat) : (s.drawFree k).2.stat = s.stat := rfl
@[simp] theorem State.drawFree_phase (s : State) (k : Nat) : (s.drawFree k).2.phase = s.phase := rfl
@[simp] theorem State.drawFree_err (s : State) (k : Nat) : (s.drawFree k).2.err = s.err := rfl
@[simp] theorem State.drawFree_inLen (s : State) (k : Nat) : (s.drawFree k).2.inLen = s.inLen := rfl
@[simp] theorem State.drawFree_outLen (s : State) (k : Nat) : (s.drawFree k).2.outLen = s.outLen := rfl
@[simp] theorem State.drawFree_ibuf (s : State) (k : Nat) : (s.drawFree k).2.ibuf = s.ibuf := rfl
@[simp] theorem State.drawFree_obuf (s : State) (k : Nat) : (s.drawFree k).2.obuf = s.obuf := rfl
@[simp] theorem State.drawFree_n (s : State) (k : Nat) : (s.drawFree k).2.n = s.n := rfl
@[simp] theorem State.drawFree_ipos (s : State) (k : Nat) : (s.drawFree k).2.ipos = s.ipos := rfl
@[simp] theorem State.drawFree_opos (s : State) (k : Nat) : (s.drawFree k).2.opos = s.opos := rfl
@[simp] theorem State.drawFree_freq (s : State) (k : Nat) : (s.drawFree k).2.freq = s.freq := rfl
@[simp] theorem State.drawFree_nsym (s : State) (k : Nat) : (s.drawFree k).2.nsym = s.nsym := rfl
@[simp] theorem State.drawFree_nodes (s : State) (k : Nat) : (s.drawFree k).2.nodes = s.nodes := rfl
@[simp] theorem State.drawFree_root (s : State) (k : Nat) : (s.drawFree k).2.root = s.root := rfl
@[simp] theorem State.drawFree_code (s : State) (k : Nat) : (s.drawFree k).2.code = s.code := rfl
@[simp] theorem State.drawFree_hdrLen (s : State) (k : Nat) : (s.drawFree k).2.hdrLen = s.hdrLen := rfl
@[simp] theorem State.drawFree_totalBits (s : State) (k : Nat) : (s.drawFree k).2.totalBits = s.totalBits := rfl
@[simp] theorem State.drawFree_pad (s : State) (k : Nat) : (s.drawFree k).2.pad = s.pad := rfl
@[simp] theorem State.drawFree_pkAcc (s : State) (k : Nat) : (s.drawFree k).2.pkAcc = s.pkAcc := rfl
@[simp] theorem State.drawFree_pkN (s : State) (k : Nat) : (s.drawFree k).2.pkN = s.pkN := rfl
@[simp] theorem State.drawFree_tb (s : State) (k : Nat) : (s.drawFree k).2.tb = s.tb := rfl
@[simp] theorem State.drawFree_tn (s : State) (k : Nat) : (s.drawFree k).2.tn = s.tn := rfl
@[simp] theorem State.drawFree_pb (s : State) (k : Nat) : (s.drawFree k).2.pb = s.pb := rfl
@[simp] theorem State.drawFree_dt (s : State) (k : Nat) : (s.drawFree k).2.dt = s.dt := rfl
@[simp] theorem State.drawFree_lmax (s : State) (k : Nat) : (s.drawFree k).2.lmax = s.lmax := rfl
@[simp] theorem State.drawFree_payStart (s : State) (k : Nat) : (s.drawFree k).2.payStart = s.payStart := rfl
@[simp] theorem State.drawFree_acc (s : State) (k : Nat) : (s.drawFree k).2.acc = s.acc := rfl
@[simp] theorem State.drawFree_ocnt (s : State) (k : Nat) : (s.drawFree k).2.ocnt = s.ocnt := rfl
@[simp] theorem State.drawFree_host (s : State) (k : Nat) : (s.drawFree k).2.host = s.host := rfl
@[simp] theorem State.drawFree_reply (s : State) (k : Nat) : (s.drawFree k).2.reply = s.reply := rfl
@[simp] theorem State.drawFree_freeCtr (s : State) (k : Nat) : (s.drawFree k).2.freeCtr = s.freeCtr + 1 := rfl

/-- A free value of `k` possibilities lies below `k`. -/
theorem State.drawFree_lt (s : State) (k : Nat) (hk : 0 < k) : (s.drawFree k).1 < k := Nat.mod_lt _ hk

end Sys2Proof.Machine
end

