-- ==== Sys2Proof/Laws/Ops.lean ====
section
/-! SUPPORT. One lemma for each shared operation that says all it can do, and a way to carry a relation between states
through a micro-operation. -/

namespace Sys2Proof.Machine

/-! ### `finish` -/

@[simp] theorem finish_ok (s : State) : finish (.ok s) = .next s := rfl

@[simp] theorem finish_raised (e : Err) (s : State) : finish (.error (.raised e s)) = .next (s.raiseErr e) := rfl

@[simp] theorem finish_fault (f : Fault) : finish (.error (.fault f)) = .fault f := rfl

/-- A micro-operation that answers a next state ended normally or took an error. -/
theorem finish_next {r : Except Stop State} {t : State} (h : finish r = .next t) :
    r = .ok t ∨ ∃ e u, r = .error (.raised e u) ∧ t = u.raiseErr e := by
  cases r with
  | ok s => cases h; exact .inl rfl
  | error x =>
    cases x with
    | raised e u => cases h; exact .inr ⟨e, u, rfl, rfl⟩
    | fault f => cases h

/-- A micro-operation never refuses. -/
theorem finish_ne_refused (r : Except Stop State) (x : Refusal) : finish r ≠ .refused x := by
  rcases r with (_ | _) | _ <;> simp [finish]

/-! ### The accesses -/

/-- All that an IBUF read can do. -/
theorem ibufByte_cases (s : State) (i : Nat) :
    (∃ b, ibufByte s i = .ok b ∧ i < s.cfg.ibufBytes ∧ s.ibuf.read i = some b) ∨
      (ibufByte s i = .error .ibufUnwritten ∧ i < s.cfg.ibufBytes ∧ s.ibuf.read i = none) ∨
      (ibufByte s i = .error .noSuchByte ∧ s.cfg.ibufBytes ≤ i) := by
  unfold ibufByte
  split
  · next h =>
    cases hr : s.ibuf.read i with
    | some b => exact .inl ⟨b, by simp, h, rfl⟩
    | none => exact .inr (.inl ⟨by simp, h, rfl⟩)
  · next h => exact .inr (.inr ⟨rfl, Nat.le_of_not_lt h⟩)

/-- A byte that is written and inside the buffer is read. -/
theorem ibufRead_of_read {s : State} {i : Nat} {b : Byte} (h : i < s.cfg.ibufBytes)
    (hr : s.ibuf.read i = some b) : ibufRead s i = .ok b := by
  simp [ibufRead, ibufByte, h, hr]

/-- A read that succeeds read a written byte inside the buffer. -/
theorem ibufRead_ok {s : State} {i : Nat} {b : Byte} (h : ibufRead s i = .ok b) :
    i < s.cfg.ibufBytes ∧ s.ibuf.read i = some b := by
  unfold ibufRead at h
  rcases ibufByte_cases s i with ⟨c, hc, hlt, hr⟩ | ⟨hc, _⟩ | ⟨hc, _⟩ <;> simp [hc] at h
  exact ⟨hlt, h ▸ hr⟩

/-- A read that does not succeed is a fault, never an error of the block. -/
theorem ibufRead_error {s : State} {i : Nat} {x : Stop} (h : ibufRead s i = .error x) : ∃ f, x = .fault f := by
  unfold ibufRead at h
  rcases ibufByte_cases s i with ⟨c, hc, _⟩ | ⟨hc, _⟩ | ⟨hc, _⟩ <;> simp [hc] at h <;> exact ⟨_, h.symm⟩

/-- A write inside the buffer writes one byte. -/
theorem obufWrite_of_lt {s : State} {i : Nat} (b : Byte) (h : i < s.cfg.obufBytes) :
    obufWrite s i b = .ok { s with obuf := s.obuf.write i b } := by
  simp [obufWrite, h]

/-- All that an OBUF write can do. -/
theorem obufWrite_cases (s : State) (i : Nat) (b : Byte) :
    (i < s.cfg.obufBytes ∧ obufWrite s i b = .ok { s with obuf := s.obuf.write i b }) ∨
      (s.cfg.obufBytes ≤ i ∧ obufWrite s i b = .error (.fault .noSuchByte)) := by
  unfold obufWrite
  split
  · next h => exact .inl ⟨h, rfl⟩
  · next h => exact .inr ⟨Nat.le_of_not_lt h, rfl⟩

/-! ### A relation carried through a micro-operation -/

/-- `R s t` holds of the state `t` a micro-operation from `s` ends in, normally or by raising an error. -/
def Ends (R : State → State → Prop) (s : State) : Except Stop State → Prop
  | .ok t => R s t
  | .error (.raised _ t) => R s t
  | .error (.fault _) => True

/-- One micro-operation after another. -/
theorem Ends.bind {R : State → State → Prop} (hR : ∀ {a b c}, R a b → R b c → R a c) {s : State}
    {r : Except Stop State} {f : State → Except Stop State} (h : Ends R s r) (hf : ∀ t, R s t → Ends R t (f t)) :
    Ends R s (r >>= f) := by
  cases r with
  | ok t =>
    have ht := hf t h
    show Ends R s (f t)
    revert ht
    cases f t with
    | ok u => exact fun hu => hR h hu
    | error x =>
      cases x with
      | raised e u => exact fun hu => hR h hu
      | fault _ => exact fun _ => trivial
  | error x => exact h

/-- A read, and then what is done with the byte. -/
theorem Ends.bindRead {R : State → State → Prop} {s : State} {i : Nat} {f : Byte → Except Stop State}
    (hf : ∀ b, Ends R s (f b)) : Ends R s (ibufRead s i >>= f) := by
  cases h : ibufRead s i with
  | ok b => exact hf b
  | error x =>
    obtain ⟨g, rfl⟩ := ibufRead_error h
    exact trivial

/-- A range of bytes that is read at all has the number of bytes asked for; otherwise it is a fault. -/
theorem ibufReadRange_cases (s : State) (i k : Nat) :
    (∃ bs, ibufReadRange s i k = .ok bs ∧ bs.length = k) ∨ ∃ f, ibufReadRange s i k = .error (.fault f) := by
  induction k generalizing i with
  | zero => exact .inl ⟨[], rfl, rfl⟩
  | succ k ih =>
    cases h : ibufRead s i with
    | error x =>
      obtain ⟨f, rfl⟩ := ibufRead_error h
      exact .inr ⟨f, by simp [ibufReadRange, h, bind, Except.bind]⟩
    | ok b =>
      rcases ih (i + 1) with ⟨bs, hbs, hlen⟩ | ⟨f, hf⟩
      · exact .inl ⟨b :: bs, by simp [ibufReadRange, h, hbs, bind, Except.bind], by simp [hlen]⟩
      · exact .inr ⟨f, by simp [ibufReadRange, h, hf, bind, Except.bind]⟩

end Sys2Proof.Machine
end

