-- ==== Sys2Proof/Laws/Frames.lean ====
section
/-! SUPPORT. What each micro-operation leaves alone, whether it ends normally or raises an error: the host's side for all
seven, and the encoder's tables for the decoder's two. -/

namespace Sys2Proof.Machine

theorem SameHostSide.refl (s : State) : SameHostSide s s := ⟨rfl, rfl, rfl, rfl, rfl⟩

theorem SameHostSide.trans {a b c : State} (h : SameHostSide a b) (k : SameHostSide b c) : SameHostSide a c := by
  obtain ⟨h₁, h₂, h₃, h₄, h₅⟩ := h
  obtain ⟨k₁, k₂, k₃, k₄, k₅⟩ := k
  exact ⟨k₁.trans h₁, k₂.trans h₂, k₃.trans h₃, k₄.trans h₄, k₅.trans h₅⟩

theorem SameEncoderSide.refl (s : State) : SameEncoderSide s s :=
  ⟨rfl, rfl, rfl, rfl, rfl, rfl, rfl, rfl, rfl, rfl, rfl, rfl⟩

theorem SameEncoderSide.trans {a b c : State} (h : SameEncoderSide a b) (k : SameEncoderSide b c) :
    SameEncoderSide a c := by
  obtain ⟨h₁, h₂, h₃, h₄, h₅, h₆, h₇, h₈, h₉, h₁₀, h₁₁, h₁₂⟩ := h
  obtain ⟨k₁, k₂, k₃, k₄, k₅, k₆, k₇, k₈, k₉, k₁₀, k₁₁, k₁₂⟩ := k
  exact ⟨k₁.trans h₁, k₂.trans h₂, k₃.trans h₃, k₄.trans h₄, k₅.trans h₅, k₆.trans h₆, k₇.trans h₇, k₈.trans h₈,
    k₉.trans h₉, k₁₀.trans h₁₀, k₁₁.trans h₁₁, k₁₂.trans h₁₂⟩

/-- The relation a micro-operation of the decoder keeps: the host's side and the encoder's tables. -/
def DecoderFrame (s t : State) : Prop := SameHostSide s t ∧ SameEncoderSide s t

theorem DecoderFrame.refl (s : State) : DecoderFrame s s := ⟨.refl s, .refl s⟩

theorem DecoderFrame.trans {a b c : State} (h : DecoderFrame a b) (k : DecoderFrame b c) : DecoderFrame a c :=
  ⟨h.1.trans k.1, h.2.trans k.2⟩

/-- An OBUF write keeps whatever a relation says of states that differ in OBUF only. -/
theorem ends_obufWrite {R : State → State → Prop} (s : State) (i : Nat) (b : Byte)
    (hR : ∀ m : Memory, R s { s with obuf := m }) : Ends R s (obufWrite s i b) := by
  rcases obufWrite_cases s i b with ⟨_, h⟩ | ⟨_, h⟩ <;> rw [h]
  · exact hR _
  · exact trivial

/-! ### The encoder's micro-operations -/

theorem ends_fcountLoop (k : Nat) (s : State) : Ends SameHostSide s (fcountLoop k s) := by
  induction k generalizing s with
  | zero => exact .refl s
  | succ k ih =>
    refine Ends.bindRead fun b => ?_
    exact ih { countByte b s with ipos := (countByte b s).ipos + 1 }

theorem ends_fcount (s : State) : Ends SameHostSide s (fcount s) := ends_fcountLoop s.n { s with ipos := 0 }

theorem sameHostSide_setRoot (s : State) : SameHostSide s (setRoot s) := by
  unfold setRoot
  split
  · exact .refl s
  · exact ⟨rfl, rfl, rfl, rfl, rfl⟩

theorem ends_tbuild (s : State) : Ends SameHostSide s (tbuild s) :=
  sameHostSide_setRoot { s with nodes := buildArena s.nodes s.freq }

/-- CGEN's walk never raises an error of the block. -/
theorem walkTree_ne_raised (ns : List Node) (k i : Nat) (path : Bits) (c : Vector Bits 256) (e : Err) (u : State) :
    walkTree ns k i path c ≠ .error (.raised e u) := by
  induction k generalizing i path c with
  | zero => simp [walkTree]
  | succ k ih =>
    intro h
    unfold walkTree at h
    split at h
    · cases h
    · split at h
      · cases h
      · next l r _ =>
        cases hl : walkTree ns k l (path ++ [false]) c with
        | ok d => exact ih r (path ++ [true]) d (by simpa [hl, bind, Except.bind] using h)
        | error x => exact ih l (path ++ [false]) c (by simpa [hl, bind, Except.bind] using h)

/-- CGEN ends normally with a code table, or is a fault. -/
theorem generateCodes_cases (ns : List Node) (root : Nat) (c : Vector Bits 256) :
    (∃ d, generateCodes ns root c = .ok d) ∨ ∃ f, generateCodes ns root c = .error (.fault f) := by
  have walk : (∃ d, walkTree ns maxNodesOnPath root [] c = .ok d) ∨
      ∃ f, walkTree ns maxNodesOnPath root [] c = .error (.fault f) := by
    cases h : walkTree ns maxNodesOnPath root [] c with
    | ok d => exact .inl ⟨d, rfl⟩
    | error x =>
      cases x with
      | raised e u => exact absurd h (walkTree_ne_raised ns maxNodesOnPath root [] c e u)
      | fault f => exact .inr ⟨f, rfl⟩
  unfold generateCodes
  split
  · exact .inl ⟨_, rfl⟩
  · exact walk

/-- All that CGEN can do: only the code table changes. -/
theorem cgen_cases (s : State) : (∃ d, cgen s = .ok { s with code := d }) ∨ ∃ f, cgen s = .error (.fault f) := by
  rcases generateCodes_cases s.nodes s.root s.code with ⟨d, hd⟩ | ⟨f, hf⟩
  · exact .inl ⟨d, by simp [cgen, hd, bind, Except.bind]⟩
  · exact .inr ⟨f, by simp [cgen, hf, bind, Except.bind]⟩

theorem ends_cgen (s : State) : Ends SameHostSide s (cgen s) := by
  rcases cgen_cases s with ⟨d, h⟩ | ⟨f, h⟩ <;> rw [h]
  · exact .refl s
  · exact trivial

theorem ends_packBit (bit : Bool) (s : State) : Ends SameHostSide s (packBit bit s) := by
  unfold packBit
  split
  · exact Ends.bind .trans
      (show Ends SameHostSide s _ from
        ends_obufWrite (R := SameHostSide) { s with totalBits := s.totalBits + 1 } _ _ fun _ => ⟨rfl, rfl, rfl, rfl, rfl⟩)
      fun t _ => .refl t
  · exact .refl s

theorem ends_packBits (bits : Bits) (s : State) : Ends SameHostSide s (packBits bits s) := by
  induction bits generalizing s with
  | nil => exact .refl s
  | cons bit bits ih => exact Ends.bind .trans (ends_packBit bit s) fun t _ => ih t

theorem ends_bpackLoop (k : Nat) (s : State) : Ends SameHostSide s (bpackLoop k s) := by
  induction k generalizing s with
  | zero => exact .refl s
  | succ k ih =>
    refine Ends.bindRead fun b => ?_
    exact Ends.bind .trans (ends_packBits _ s) fun t _ => ih { t with ipos := t.ipos + 1 }

theorem ends_flushPartial (s : State) : Ends SameHostSide s (flushPartial s) := by
  unfold flushPartial
  split
  · exact Ends.bind .trans (ends_obufWrite s _ _ fun _ => ⟨rfl, rfl, rfl, rfl, rfl⟩) fun t _ => .refl t
  · exact .refl s

theorem ends_bpack (s : State) : Ends SameHostSide s (bpack s) :=
  Ends.bind .trans
    (ends_bpackLoop s.n { s with opos := s.hdrLen, pkAcc := 0, pkN := 0, totalBits := 0, ipos := 0 })
    fun t _ => Ends.bind .trans (ends_flushPartial t) fun u _ => .refl u

theorem ends_obufPut {R : State → State → Prop} (hR : ∀ {a b c}, R a b → R b c → R a c) (h₀ : ∀ a, R a a)
    (h₁ : ∀ (a : State) (m : Memory), R a { a with obuf := m }) (h₂ : ∀ (a : State) (p : Nat), R a { a with opos := p })
    (bs : List Byte) (s : State) : Ends R s (obufPut bs s) := by
  induction bs generalizing s with
  | nil => exact h₀ s
  | cons b bs ih =>
    refine Ends.bind (R := R) hR (ends_obufWrite (R := R) s s.opos b fun m => h₁ s m) fun t _ => ?_
    have := ih { t with opos := t.opos + 1 }
    revert this
    cases obufPut bs { t with opos := t.opos + 1 } with
    | ok u => exact fun hu => hR (h₂ t _) hu
    | error x =>
      cases x with
      | raised e u => exact fun hu => hR (h₂ t _) hu
      | fault f => exact fun _ => trivial

theorem ends_putEntries (entries : List (Byte × Bits)) (s : State) : Ends SameHostSide s (putEntries entries s) := by
  induction entries generalizing s with
  | nil => exact .refl s
  | cons p rest ih =>
    obtain ⟨sym, c⟩ := p
    unfold putEntries
    split
    · exact Ends.bind .trans
        (ends_obufPut .trans .refl (fun _ _ => ⟨rfl, rfl, rfl, rfl, rfl⟩) (fun _ _ => ⟨rfl, rfl, rfl, rfl, rfl⟩) _ s)
        fun t _ => ih t
    · exact ih s

theorem ends_tser (s : State) : Ends SameHostSide s (tser s) :=
  Ends.bind .trans (ends_obufWrite s _ _ fun _ => ⟨rfl, rfl, rfl, rfl, rfl⟩) fun t _ =>
    Ends.bind .trans (ends_obufWrite t _ _ fun _ => ⟨rfl, rfl, rfl, rfl, rfl⟩) fun u _ =>
      ends_putEntries _ { u with opos := 2 }

/-! ### The decoder's micro-operations -/

theorem ends_readEntry (s : State) : Ends DecoderFrame s (readEntry s) := by
  unfold readEntry
  split
  · exact .refl s
  · refine Ends.bindRead fun sym => Ends.bindRead fun len => ?_
    split
    · exact .refl s
    · split
      · exact .refl s
      · rcases ibufReadRange_cases s (s.ipos + 2) (ceil8 len.toNat) with ⟨bs, hbs, _⟩ | ⟨f, hf⟩
        · rw [hbs]; exact .refl s
        · rw [hf]; exact trivial

theorem ends_readEntries (k : Nat) (s : State) : Ends DecoderFrame s (readEntries k s) := by
  induction k generalizing s with
  | zero => exact .refl s
  | succ k ih => exact Ends.bind .trans (ends_readEntry s) fun t _ => ih t

theorem ends_readHeader (s : State) : Ends DecoderFrame s (readHeader s) := by
  unfold readHeader
  split
  · exact .refl s
  · refine Ends.bindRead fun t => Ends.bindRead fun p => ?_
    dsimp only
    split
    · exact .refl s
    · split
      · exact .refl s
      · exact .refl s

theorem ends_tdes (s : State) : Ends DecoderFrame s (tdes s) :=
  Ends.bind .trans (ends_readHeader s) fun t _ =>
    Ends.bind .trans (ends_readEntries t.tn { t with ipos := 2 }) fun u _ => .refl u

theorem ends_emitSymbol (sym : Byte) (s : State) : Ends DecoderFrame s (emitSymbol sym s) := by
  unfold emitSymbol
  split
  · exact .refl s
  · exact Ends.bind .trans (ends_obufWrite s _ _ fun _ => .refl s) fun t _ => .refl t

theorem ends_scanBit (bit : Bool) (s : State) : Ends DecoderFrame s (scanBit bit s) := by
  unfold scanBit
  dsimp only
  split
  · exact ends_emitSymbol _ { s with acc := s.acc ++ [bit] }
  · split
    · exact .refl s
    · exact .refl s

theorem ends_scanBits (bits : Bits) (s : State) : Ends DecoderFrame s (scanBits bits s) := by
  induction bits generalizing s with
  | nil => exact .refl s
  | cons bit bits ih => exact Ends.bind .trans (ends_scanBit bit s) fun t _ => ih t

theorem ends_walkBytes (k : Nat) (s : State) : Ends DecoderFrame s (walkBytes k s) := by
  induction k generalizing s with
  | zero => exact .refl s
  | succ k ih =>
    refine Ends.bindRead fun b => ?_
    exact Ends.bind .trans (ends_scanBits _ s) fun t _ => ih { t with ipos := t.ipos + 1 }

theorem ends_bwalk (s : State) : Ends DecoderFrame s (bwalk s) := by
  refine Ends.bind .trans
    (ends_walkBytes (s.n - s.payStart) { s with acc := [], ocnt := 0, ipos := s.payStart, opos := 0 }) fun t _ => ?_
  split
  · exact .refl t
  · exact .refl t

end Sys2Proof.Machine
end

