-- ==== Sys2Proof/Laws/HostPort.lean ====
section
/-! SUPPORT. The register map and the host's accesses: what each can do, and who has the next slot. -/

namespace Sys2Proof.Machine

/-! ### The register map -/

@[simp] theorem registerOffset_cmd : registerOffset 0x00 = true := rfl
@[simp] theorem registerOffset_status : registerOffset 0x04 = true := rfl
@[simp] theorem registerOffset_inLen : registerOffset 0x08 = true := rfl
@[simp] theorem registerOffset_outLen : registerOffset 0x0C = true := rfl

/-- The four offsets are the only registers. -/
theorem registerOffset_eq_false {offset : Nat} :
    registerOffset offset = false ↔ offset ≠ 0x00 ∧ offset ≠ 0x04 ∧ offset ≠ 0x08 ∧ offset ≠ 0x0C := by
  simp [registerOffset, and_assoc]

/-! ### Reads of IN_LEN and OUT_LEN -/

/-- A byte count that fits in a 32-bit word is returned, and nothing but the reply changes. -/
theorem readCount_of_lt {k : Nat} {s : State} (h : k < 2 ^ 32) :
    ∃ v : Word, v.toNat = k ∧ readCount k s = { s with reply := .word v } :=
  ⟨BitVec.ofNat 32 k, by simpa using Nat.mod_eq_of_lt h, if_pos h⟩

/-- Of a longer byte count some word is returned, and the free-value counter moves. -/
theorem readCount_of_le {k : Nat} {s : State} (h : 2 ^ 32 ≤ k) :
    ∃ v : Word, readCount k s = { s with reply := .word v, freeCtr := s.freeCtr + 1 } :=
  ⟨_, if_neg (Nat.not_lt.2 h)⟩

/-- Whatever is read, only the reply and the free-value counter change. -/
theorem readCount_frame (k : Nat) (s : State) :
    readCount k s = { s with reply := (readCount k s).reply, freeCtr := (readCount k s).freeCtr } := by
  by_cases h : k < 2 ^ 32
  · obtain ⟨v, _, hv⟩ := readCount_of_lt (s := s) h
    rw [hv]
  · obtain ⟨v, hv⟩ := readCount_of_le (s := s) (Nat.le_of_not_lt h)
    rw [hv]

/-! ### Writes to IN_LEN -/

theorem writeInLen_of_lt {v : Nat} {s : State} (h : v < 2 ^ s.cfg.lenBits) : writeInLen v s = { s with inLen := v } :=
  if_pos h

/-- A value that is too wide leaves some value of LEN_BITS bits, and nothing else but the free-value counter moves. -/
theorem writeInLen_of_le {v : Nat} {s : State} (h : 2 ^ s.cfg.lenBits ≤ v) :
    ∃ k < 2 ^ s.cfg.lenBits, writeInLen v s = { s with inLen := k, freeCtr := s.freeCtr + 1 } :=
  ⟨_, Nat.mod_lt _ (Nat.two_pow_pos _), if_neg (Nat.not_lt.2 h)⟩

/-- Whatever is written, IN_LEN holds LEN_BITS bits. -/
theorem writeInLen_lt (v : Nat) (s : State) : (writeInLen v s).inLen < 2 ^ s.cfg.lenBits := by
  by_cases h : v < 2 ^ s.cfg.lenBits
  · rw [writeInLen_of_lt h]
    exact h
  · obtain ⟨k, hk, hs⟩ := writeInLen_of_le (Nat.le_of_not_lt h)
    rw [hs]
    exact hk

/-! ### Accesses -/

theorem whenNotBusy_busy {s : State} (o : Host.Outcome State Fault Refusal) (h : s.stat = .busy) :
    whenNotBusy s o = .refused .hostAccessWhileBusy := by
  simp [whenNotBusy, h]

theorem whenNotBusy_of_ne {s : State} (o : Host.Outcome State Fault Refusal) (h : s.stat ≠ .busy) :
    whenNotBusy s o = o := by
  unfold whenNotBusy
  cases hs : s.stat <;> simp_all

/-- An access at no register's offset. -/
theorem registerAccess_noRegister {offset : Nat} (h : registerOffset offset = false) (width : Nat) (v : BitVec width)
    (s : State) : writeRegister offset width v s = .access (.refused .noSuchRegister) ∧
      readRegister offset width s = .refused .noSuchRegister :=
  ⟨if_pos h, if_pos h⟩

/-- An access that is not one 32-bit word. -/
theorem registerAccess_width {offset width : Nat} (h : registerOffset offset = true) (v : BitVec width) (s : State)
    (hw : width ≠ 32) : writeRegister offset width v s = .access (.refused .registerWidth) ∧
      readRegister offset width s = .refused .registerWidth := by
  simp [writeRegister, readRegister, registerWidth, h, hw]

@[simp] theorem writeRegister_cmd (v : Word) (s : State) : writeRegister 0x00 32 v s = writeCmd v s := by
  simp [writeRegister, registerWidth]

@[simp] theorem writeRegister_status (v : Word) (s : State) : writeRegister 0x04 32 v s = .access (.next s) := by
  simp [writeRegister, registerWidth]

@[simp] theorem writeRegister_inLen (v : Word) (s : State) :
    writeRegister 0x08 32 v s = .access (whenNotBusy s (.next (writeInLen v.toNat s))) := by
  simp [writeRegister, registerWidth]

@[simp] theorem writeRegister_outLen (v : Word) (s : State) :
    writeRegister 0x0C 32 v s = .access (whenNotBusy s (.next s)) := by
  simp [writeRegister, registerWidth]

@[simp] theorem readRegister_cmd (s : State) :
    readRegister 0x00 32 s = whenNotBusy s (.next { s with reply := .word 0 }) := by
  simp [readRegister, registerWidth]

@[simp] theorem readRegister_status (s : State) :
    readRegister 0x04 32 s = .next { s with reply := .word (statusWord s) } := by
  simp [readRegister, registerWidth]

@[simp] theorem readRegister_inLen (s : State) : readRegister 0x08 32 s = .next (readCount s.inLen s) := by
  simp [readRegister, registerWidth]

@[simp] theorem readRegister_outLen (s : State) :
    readRegister 0x0C 32 s = whenNotBusy s (.next (readCount s.outLen s)) := by
  simp [readRegister, registerWidth]

/-! ### Who has the next slot -/

/-- In a slot in which the host makes no access the core moves. -/
theorem nextMove_of_coreSlot {s t : State} (h : CoreSlot s t) : nextMove s = coreMove t := by
  rcases h with ⟨hh, rfl⟩ | ⟨rest, hh, rfl⟩ <;> simp [nextMove, hostMove, hh]

/-- The host's next move is taken from the script before it is made. -/
theorem nextMove_of_host {s : State} {m : HostMove} {rest : List HostMove} (h : s.host = m :: rest) :
    nextMove s = hostMove m { s with host := rest } := by
  simp [nextMove, h]

end Sys2Proof.Machine
end

