-- ==== Sys2Proof/Laws/PerInstr.lean ====
section
/-! SUPPORT. What holds of every instruction as syntax, one lemma for each constructor. -/

namespace Sys2Proof.Laws.Coding

/-- An instruction is well formed, and its code fits its format and is an assigned one (30_encoding.md R120). -/
def Statement (i : Instr) : Prop := i.wf = true ∧ (encode i).wf = true

theorem encode : Statement .encode := by unfold Statement; decide

theorem decode : Statement .decode := by unfold Statement; decide

theorem fcount : Statement .fcount := by unfold Statement; decide

theorem tbuild : Statement .tbuild := by unfold Statement; decide

theorem cgen : Statement .cgen := by unfold Statement; decide

theorem bpack : Statement .bpack := by unfold Statement; decide

theorem tser : Statement .tser := by unfold Statement; decide

theorem tdes : Statement .tdes := by unfold Statement; decide

theorem bwalk : Statement .bwalk := by unfold Statement; decide

end Sys2Proof.Laws.Coding
end

