-- ==== Sys2Proof/Laws/Step.lean ====
section
/-! SUPPORT. All that the step, the sequencer and the commands can do. -/

namespace Sys2Proof.Machine

/-- A step that answers a next state was a host access (or the core waiting), a command, or a micro-operation followed
by what its sequence does next. -/
theorem step_cases {s t : State} (h : step s = .next t) :
    nextMove s = .access (.next t) ∨ (∃ i u, nextMove s = .command i u ∧ exec i u = .next t) ∨
      ∃ i u, nextMove s = .phase i u ∧ sequenceAfter u.phase (exec i u) = .next t := by
  unfold step at h
  split at h
  · next o ho => exact .inl (h ▸ ho)
  · next i u hu => exact .inr (.inl ⟨i, u, hu, h⟩)
  · next i u hu => exact .inr (.inr ⟨i, u, hu, h⟩)

/-- All that follows a micro-operation that ended in a next state: it had ended the command, or the sequence went
on. -/
theorem sequenceAfter_cases {p : Phase} {o : Host.Outcome State Fault Refusal} {t : State}
    (h : sequenceAfter p o = .next t) :
    ∃ u, o = .next u ∧ ((u.stat ≠ .busy ∧ t = u) ∨ (u.stat = .busy ∧ finish (advance p u) = .next t)) := by
  cases o with
  | next u =>
    refine ⟨u, rfl, ?_⟩
    by_cases hb : u.stat = .busy
    · exact .inr ⟨hb, by simpa [sequenceAfter, hb] using h⟩
    · exact .inl ⟨hb, by simpa [sequenceAfter, hb, eq_comm] using h⟩
  | fault f => cases h
  | refused r => cases h

/-- The core's move. -/
theorem coreMove_cases (s : State) :
    (s.stat ≠ .busy ∧ coreMove s = .access (.next s)) ∨
      (s.stat = .busy ∧ s.phase = .none ∧ coreMove s = .access (.refused .busyWithoutPhase)) ∨
      (s.stat = .busy ∧ ∃ i, decodePhase (BitVec.ofNat 4 s.phase.number) = .ok i ∧ coreMove s = .phase i s) := by
  unfold coreMove
  cases hs : s.stat with
  | idle => exact .inl ⟨by simp, rfl⟩
  | done => exact .inl ⟨by simp, rfl⟩
  | busy =>
    right
    cases hp : s.phase with
    | none => exact .inl ⟨rfl, rfl, rfl⟩
    | fcount => exact .inr ⟨rfl, .fcount, by decide, rfl⟩
    | tbuild => exact .inr ⟨rfl, .tbuild, by decide, rfl⟩
    | cgen => exact .inr ⟨rfl, .cgen, by decide, rfl⟩
    | bpack => exact .inr ⟨rfl, .bpack, by decide, rfl⟩
    | tser => exact .inr ⟨rfl, .tser, by decide, rfl⟩
    | tdes => exact .inr ⟨rfl, .tdes, by decide, rfl⟩
    | bwalk => exact .inr ⟨rfl, .bwalk, by decide, rfl⟩

/-- A command started in a BUSY state is refused. -/
theorem execEncode_busy {s : State} (h : s.stat = .busy) : execEncode s = .refused .hostAccessWhileBusy := by
  simp [execEncode, h]

theorem execDecode_busy {s : State} (h : s.stat = .busy) : execDecode s = .refused .hostAccessWhileBusy := by
  simp [execDecode, h]

/-- ENCODE as one atomic step. -/
theorem execEncode_command {s : State} (h : s.stat ≠ .busy) (hg : s.cfg.grain = .command) :
    execEncode s = finish (encodeWhole s) := by
  unfold execEncode
  cases hs : s.stat <;> simp_all

/-- ENCODE in the finer model. -/
theorem execEncode_microOp {s : State} (h : s.stat ≠ .busy) (hg : s.cfg.grain = .microOp) :
    execEncode s = finish (beginCommand .fcount s) := by
  unfold execEncode
  cases hs : s.stat <;> simp_all

/-- DECODE as one atomic step. -/
theorem execDecode_command {s : State} (h : s.stat ≠ .busy) (hg : s.cfg.grain = .command) :
    execDecode s = finish (decodeWhole s) := by
  unfold execDecode
  cases hs : s.stat <;> simp_all

/-- DECODE in the finer model. -/
theorem execDecode_microOp {s : State} (h : s.stat ≠ .busy) (hg : s.cfg.grain = .microOp) :
    execDecode s = finish (beginCommand .tdes s) := by
  unfold execDecode
  cases hs : s.stat <;> simp_all

/-- All that a command start can do. -/
theorem beginCommand_cases (p : Phase) (s : State) :
    (s.cfg.ibufBytes < s.inLen ∧
        beginCommand p s = .error (.raised .capacityExceeded s.startCommand)) ∨
      (s.inLen ≤ s.cfg.ibufBytes ∧ beginCommand p s = .ok (s.startCommand.enterPhase p)) := by
  unfold beginCommand
  simp only [State.startCommand_cfg, State.startCommand_n]
  by_cases h : s.cfg.ibufBytes < s.inLen
  · exact .inl ⟨h, if_pos h⟩
  · exact .inr ⟨Nat.le_of_not_lt h, if_neg h⟩

end Sys2Proof.Machine
end

