-- ==== Sys2Proof/Tests/Slice0.lean ====
section
/-! SUPPORT. Tests: ill-formed terms refused, codes written out from the spec, the spec's worked examples and vectors
(95_test_vectors.md), and for every statement with hypotheses a state and operands that meet them. -/

namespace Sys2Proof.Tests

open Sys2Proof.Machine

set_option Elab.async false

/-! ### Small states -/

/-- One step for each micro-operation. -/
def fine : Config := { Config.standard with grain := .microOp }

/-- Buffers of the capacities given, LEN_BITS = 8. -/
def small (ibuf obuf : Nat) : Config := { lenBits := 8, ibufBytes := ibuf, obufBytes := obuf, grain := .command }

/-- LEN_BITS = 40: byte counts that do not fit in a 32-bit word. -/
def wide : Config := { lenBits := 40, ibufBytes := 2 ^ 40 - 1, obufBytes := 2 ^ 40 - 1, grain := .command }

/-- The operand `X` provided after reset. -/
def provided (c : Config) (X : List Byte) : State :=
  { State.reset with cfg := c, ibuf := Memory.ofBytes X, inLen := X.length }

/-- Phase `p` of a command on `X` is about to run, the working state still cleared. -/
def inPhase (p : Phase) (X : List Byte) : State :=
  { provided fine X with stat := .busy, phase := p, n := X.length }

/-- A command has ended with `Y`. -/
def ended (c : Config) (Y : List Byte) : State :=
  { State.reset with cfg := c, stat := .done, outLen := Y.length, obuf := Memory.ofBytes Y }

/-- The host's script. -/
def script (ms : List HostMove) (s : State) : State := { s with host := ms }

/-- AAAB, and its container (V1). -/
def aaab : List Byte := [0x41, 0x41, 0x41, 0x42]
def aaabContainer : List Byte := [0x02, 0x04, 0x41, 0x01, 0x80, 0x42, 0x01, 0x00, 0xE0]

/-- The counters of AAAB, its arena, and its codes (V1). -/
def aaabFreq : Vector Nat 256 := ((Vector.replicate 256 0).set 0x41 3).set 0x42 1
def oneFreq : Vector Nat 256 := (Vector.replicate 256 0).set 0x41 1
def aaabNodes : List Node := [⟨.leaf 0x41, 3, false⟩, ⟨.leaf 0x42, 1, false⟩, ⟨.internal 1 0, 4, true⟩]
def aaabCode : Vector Bits 256 := ((Vector.replicate 256 []).set 0x41 [true]).set 0x42 [false]
def aaabEntries : List DtEntry := [⟨[true], 0x41⟩, ⟨[false], 0x42⟩]

/-- AAAB before TBUILD, CGEN, BPACK and TSER. -/
def beforeTbuild : State := { inPhase .tbuild aaab with freq := aaabFreq, nsym := 2 }
def beforeCgen : State := { inPhase .cgen aaab with freq := aaabFreq, nsym := 2, nodes := aaabNodes, root := 2 }
def beforeBpack : State :=
  { inPhase .bpack aaab with
    freq := aaabFreq, nsym := 2, nodes := aaabNodes, root := 2, code := aaabCode, hdrLen := 8 }
def beforeTser : State := { beforeBpack with phase := .tser, totalBits := 4, pad := 4 }

/-- AAAB's container before BWALK. -/
def beforeBwalk : State :=
  { inPhase .bwalk aaabContainer with
    tb := 2, pb := 4, tn := 2, dt := aaabEntries, lmax := 1, payStart := 8 }

/-- The next state of an outcome, if it is one. -/
def nextOf (o : Host.Outcome State Fault Refusal) : Option State :=
  match o with
  | .next s => some s
  | .fault _ => none
  | .refused _ => none

/-- What a reader sees of an outcome that is a next state. -/
def seen {α : Type} (f : State → α) (o : Host.Outcome State Fault Refusal) : Option α := (nextOf o).map f

/-- ERR, OUT_LEN and the bytes of OBUF. -/
def result (s : State) : Nat × Nat × List Byte := (s.err.number, s.outLen, s.obuf.map Prod.snd)

theorem exists_next {o : Host.Outcome State Fault Refusal} (h : (nextOf o).isSome = true) : ∃ t, o = .next t := by
  cases o with
  | next t => exact ⟨t, rfl⟩
  | fault f => cases h
  | refused r => cases h

/-- An outcome that is a next state with a decidable property. -/
theorem exists_next_with {o : Host.Outcome State Fault Refusal} {P : State → Prop}
    (h : ∃ t ∈ nextOf o, P t) : ∃ t, o = .next t ∧ P t := by
  obtain ⟨t, ht, hp⟩ := h
  cases o with
  | next u => exact ⟨t, by cases ht; rfl, hp⟩
  | fault f => cases ht
  | refused r => cases ht

/-! ### Ill-formed terms are refused -/

theorem test_code_too_wide : (Coded.mk .phase 16).fits = false ∧ (Coded.mk .cmd (2 ^ 32)).fits = false := by decide
theorem test_code_not_assigned :
    [0, 6, 7, 10, 15].map (fun v => (Coded.mk .phase v).assigned) = [false, false, false, false, false] ∧
      [0, 3, 0x80000001].map (fun v => (Coded.mk .cmd v).assigned) = [false, false, false] := by decide
theorem test_ill_formed_codes : (Coded.mk .phase 16).wf = false ∧ (Coded.mk .cmd 3).wf = false := by decide
theorem test_move_offset :
    HostMove.wf (small 4 4) (.readReg 0x02 32) = false ∧ HostMove.wf (small 4 4) (.writeReg 0x10 32 1) = false := by
  decide
theorem test_move_width :
    HostMove.wf (small 4 4) (.readReg 0x04 8) = false ∧ HostMove.wf (small 4 4) (.writeReg 0x00 16 1) = false := by
  decide
theorem test_move_ibuf_index :
    HostMove.wf (small 4 4) (.writeIbuf 4 0) = false ∧ HostMove.wf (small 4 4) (.readIbuf 4) = false := by decide
theorem test_move_obuf :
    HostMove.wf (small 4 4) (.writeObuf 0 0) = false ∧ HostMove.wf (small 4 4) (.readObuf 4) = false := by decide

/-- 20_memory.md R67: 32-bit accesses only, LEN_BITS = 40 or not. -/
theorem test_move_wide :
    HostMove.wf wide (.writeReg 0x08 32 1) = true ∧ HostMove.wf wide (.writeReg 0x08 40 1) = false ∧
      HostMove.wf wide (.readReg 0x0C 40) = false := by decide

/-! ### Codes written out from 30_encoding.md R91, R93 and R120 -/

theorem test_decode_encode : decodeTableWord 32 0b00000000000000000000000000000001 = some .encode := by decide
theorem test_decode_decode : decodeTableWord 32 0b00000000000000000000000000000010 = some .decode := by decide
theorem test_decode_fcount : decodeTableWord 8 0b0001 = some .fcount := by decide
theorem test_decode_tbuild : decodeTableWord 8 0b0010 = some .tbuild := by decide
theorem test_decode_cgen : decodeTableWord 8 0b0011 = some .cgen := by decide
theorem test_decode_bpack : decodeTableWord 8 0b0100 = some .bpack := by decide
theorem test_decode_tser : decodeTableWord 8 0b0101 = some .tser := by decide
theorem test_decode_tdes : decodeTableWord 8 0b1000 = some .tdes := by decide
theorem test_decode_bwalk : decodeTableWord 8 0b1001 = some .bwalk := by decide
theorem test_reject_commands :
    decodeCmd 0 = .error (.reservedCommand 0) ∧ decodeCmd 3 = .error (.reservedCommand 3) ∧
      decodeCmd 0x80000001 = .error (.reservedCommand 0x80000001) := by decide
theorem test_reject_phases :
    decodePhase 0 = .error .phaseNone ∧ decodePhase 6 = .error (.reservedPhase 6) ∧
      decodePhase 7 = .error (.reservedPhase 7) ∧ decodePhase 10 = .error (.reservedPhase 10) ∧
      decodePhase 15 = .error (.reservedPhase 15) := by decide
theorem test_reject_layouts :
    decodeBytes [0x11] = .error .phaseTooWide ∧ decodeBytes [] = .error .badLength ∧
      decodeBytes [1, 0] = .error .badLength := by decide

/-! ### The host's next step is the placed instruction -/

theorem test_fetch_encode :
    seen result (step (State.reset.withFetchWord 32 1)) = some (0, 2, [0, 0]) := by decide +kernel
theorem test_fetch_tbuild :
    seen State.phase (step (beforeTbuild.withFetchWord 8 0b0010)) = some .cgen := by decide +kernel

/-! ### The host's registers -/

/-- 10_state.md R26, 20_memory.md R67 with LEN_BITS = 40: a 32-bit write and a read back; a wider access is refused. -/
theorem test_wide_in_len :
    seen State.inLen (step (script [.writeReg 0x08 32 0xFFFFFFFF] (provided wide []))) = some (2 ^ 32 - 1) ∧
      seen State.reply (step (script [.readReg 0x08 32] { provided wide [] with inLen := 2 ^ 32 - 1 })) =
        some (.word 0xFFFFFFFF) ∧
      seen State.inLen (step (script [.writeReg 0x08 40 1] (provided wide []))) = none := by decide +kernel

/-- V85, the STATUS read: DONE, NONE, IllegalCommand. -/
theorem test_status_illegal :
    seen State.reply (step (script [.readReg 0x04 32] { provided Config.standard [] with
      stat := .done, err := .illegalCommand })) = some (.word 0x00000502) := by decide +kernel

/-! ### The spec's examples, one step each -/

/-- V1. -/
theorem test_encode_aaab :
    seen result (exec .encode (provided Config.standard aaab)) = some (0, 9, aaabContainer) := by decide +kernel

/-- V12, a tie at the second selection. -/
theorem test_encode_tie :
    seen result (exec .encode (provided Config.standard [0x41, 0x41, 0x42, 0x42, 0x43])) =
      some (0, 12, [0x03, 0x00, 0x41, 0x02, 0xC0, 0x42, 0x01, 0x00, 0x43, 0x02, 0x80, 0xF2]) := by decide +kernel

/-- V13 decoded (V30). -/
theorem test_decode_abracadabra :
    seen result (exec .decode (provided Config.standard
      [0x05, 0x01, 0x41, 0x01, 0x00, 0x42, 0x03, 0xC0, 0x43, 0x03, 0x80, 0x44, 0x03, 0xA0, 0x52, 0x03, 0xE0, 0x6E,
        0x8A,
        0xDC])) =
      some (0, 11, [0x41, 0x42, 0x52, 0x41, 0x43, 0x41, 0x44, 0x41, 0x42, 0x52, 0x41]) := by decide +kernel

/-- V39: the payload ends inside a codeword. -/
theorem test_decode_truncated :
    seen result (exec .decode (provided Config.standard
      [0x03, 0x05, 0x41, 0x02, 0x80, 0x42, 0x02, 0xC0, 0x43, 0x01, 0x00, 0xB0])) = some (2, 0, []) :=
        by decide +kernel

/-- V1, 41_frequency_counter.md R161. -/
theorem test_fcount_aaab :
    seen (fun t => (t.freq.toList, t.nsym)) (exec .fcount (inPhase .fcount aaab)) = some (aaabFreq.toList, 2) := by decide +kernel

/-- V1, 42_tree_builder.md R172. -/
theorem test_tbuild_aaab :
    seen (fun t => (t.nodes, t.root)) (exec .tbuild beforeTbuild) = some (aaabNodes, 2) := by decide +kernel

/-- 42_tree_builder.md R180 (d): internal nodes against each other. -/
theorem test_tbuild_internal_tie :
    seen (fun t => (t.nodes.map (·.kind), t.root)) (exec .tbuild { inPhase .tbuild [] with
      freq := ((((Vector.replicate 256 0).set 0x41 1).set 0x42 1).set 0x43 1).set 0x44 1 }) =
      some ([.leaf 0x41, .leaf 0x42, .leaf 0x43, .leaf 0x44, .internal 0 1, .internal 2 3, .internal 4 5], 6) := by
  decide +kernel

/-- V1, 43_code_table_generator.md R191. -/
theorem test_cgen_aaab : seen (fun t => t.code.toList) (exec .cgen beforeCgen) = some aaabCode.toList := by decide +kernel

/-- V3: the only symbol gets "0". -/
theorem test_cgen_only_symbol :
    seen (fun t => t.code.get (0x41 : Byte).toFin)
      (exec .cgen { inPhase .cgen [] with nodes := [⟨.leaf 0x41, 1, true⟩], root := 0 }) = some [false] := by
  decide +kernel

/-- V1, 45_bit_packer.md R231. -/
theorem test_bpack_aaab :
    seen (fun t => (t.obuf, t.totalBits, t.pad.val)) (exec .bpack beforeBpack) = some ([(8, 0xE0)], 4, 4) := by
  decide +kernel

/-- V17: ten bits, two payload bytes. -/
theorem test_bpack_two_bytes :
    seen (fun t => (t.obuf.map Prod.snd, t.totalBits, t.pad.val)) (exec .bpack { inPhase .bpack
        [0x41, 0x42, 0x43, 0x41, 0x42, 0x43] with
      code := (((Vector.replicate 256 []).set 0x41 [true, false]).set 0x42 [true, true]).set 0x43 [false] }) =
      some ([0xB5, 0x80], 10, 6) := by decide +kernel

/-- V1, 44_table_codec.md R201. -/
theorem test_tser_aaab :
    seen (fun t => (t.obuf.map Prod.snd, t.opos)) (exec .tser beforeTser) =
      some ([0x02, 0x04, 0x41, 0x01, 0x80, 0x42, 0x01, 0x00], 8) := by decide +kernel

/-- V14: a codeword of nine bits takes two bytes. -/
theorem test_tser_nine_bits :
    seen (fun t => (t.obuf.map Prod.snd, t.opos)) (exec .tser { inPhase .tser [] with
      nsym := 1, pad := 5, code := (Vector.replicate 256 []).set 0x30
        [true, true, true, true, true, true, true, true, false] }) =
      some ([0x01, 0x05, 0x30, 0x09, 0xFF, 0x00], 6) := by decide +kernel

/-- V1, 44_table_codec.md R210. -/
theorem test_tdes_aaab :
    seen (fun t => (t.tb, t.pb, t.tn, t.dt, t.lmax, t.payStart)) (exec .tdes (inPhase .tdes aaabContainer)) =
      some (2, 4, 2, aaabEntries, 1, 8) := by decide +kernel

/-- V47: the table is cut one byte in. -/
theorem test_tdes_truncated :
    seen result (exec .tdes (inPhase .tdes [0x02, 0x04, 0x41])) = some (1, 0, []) := by decide +kernel

/-- V1, 46_decoder.md R251. -/
theorem test_bwalk_aaab :
    seen (fun t => (t.obuf.map Prod.snd, t.ocnt, t.acc)) (exec .bwalk beforeBwalk) = some (aaab, 4, []) := by
  decide +kernel

/-- 46_decoder.md R258: the unassigned codeword "1" of a one-entry table. -/
theorem test_bwalk_unknown :
    seen result (exec .bwalk { beforeBwalk with tn := 1, dt := [⟨[false], 0x42⟩] }) = some (3, 0, []) := by
  decide +kernel

/-! ### Hypotheses that are met -/

theorem witness_CommandWordDecodes :
    ((1 : Word) = 1) ∧ ((2 : Word) = 2) ∧ (0 : Word) ≠ 1 ∧ (0 : Word) ≠ 2 ∧ (3 : Word) ≠ 1 ∧ (3 : Word) ≠ 2 :=
      by decide

theorem witness_StepRunsWrittenCommand :
    ∃ (s : State) (v : Word) (rest : List HostMove) (i : Instr), s.host = .writeReg 0x00 32 v :: rest ∧
      s.stat ≠ .busy ∧ decodeCmd v = .ok i :=
  ⟨script [cmdMove 1, .wait] (provided fine aaab), 1, [.wait], .encode, by decide⟩

theorem witness_StepRunsRunningPhase :
    (∃ (s t : State) (i : Instr), CoreSlot s t ∧ s.host = [] ∧ s.stat = .busy ∧
      decodePhase (BitVec.ofNat 4 s.phase.number) = .ok i) ∧
      ∃ (s t : State) (i : Instr), CoreSlot s t ∧ s.host ≠ [] ∧ s.stat = .busy ∧
        decodePhase (BitVec.ofNat 4 s.phase.number) = .ok i :=
  ⟨⟨beforeTbuild, beforeTbuild, .tbuild, .inl ⟨rfl, rfl⟩, rfl, rfl, by decide⟩,
    ⟨script [.idle] (inPhase .fcount aaab), inPhase .fcount aaab, .fcount, .inr ⟨[], rfl, rfl⟩, by decide, rfl,
      by decide⟩⟩

theorem witness_PhasesRunInOrder :
    (∃ (s t u : State), CoreSlot s t ∧ s.stat = .busy ∧ step s = .next u ∧ u.stat = .busy) ∧
      (∃ (s t u : State), CoreSlot s t ∧ s.stat = .busy ∧ step s = .next u ∧ u.stat = .done ∧ u.err = .ok ∧
        s.phase = .fcount) ∧
      ∃ (s t u : State), CoreSlot s t ∧ s.stat = .busy ∧ step s = .next u ∧ u.stat = .done ∧ u.err = .ok ∧
        s.phase = .bwalk := by
  refine ⟨?_, ?_, ?_⟩
  · obtain ⟨u, h, hu⟩ := exists_next_with (o := step beforeTbuild) (P := fun u => u.stat = .busy) (by decide +kernel)
    exact ⟨beforeTbuild, beforeTbuild, u, .inl ⟨rfl, rfl⟩, rfl, h, hu⟩
  · obtain ⟨u, h, hu⟩ := exists_next_with (o := step (inPhase .fcount []))
      (P := fun u => u.stat = .done ∧ u.err = .ok) (by decide +kernel)
    exact ⟨inPhase .fcount [], _, u, .inl ⟨rfl, rfl⟩, rfl, h, hu.1, hu.2, rfl⟩
  · obtain ⟨u, h, hu⟩ := exists_next_with (o := step beforeBwalk)
      (P := fun u => u.stat = .done ∧ u.err = .ok) (by decide +kernel)
    exact ⟨beforeBwalk, _, u, .inl ⟨rfl, rfl⟩, rfl, h, hu.1, hu.2, rfl⟩

theorem witness_StatusIsAViewOfThreeFields :
    (∃ (s : State) (rest : List HostMove), s.stat = .busy ∧ s.host = .readReg 0x04 32 :: rest) ∧
      ∃ (s : State) (rest : List HostMove) (v : Word), s.host = .writeReg 0x04 32 v :: rest :=
  ⟨⟨script [.readReg 0x04 32] beforeCgen, [], rfl, rfl⟩, ⟨script [.writeReg 0x04 32 0xFFFFFFFF] beforeCgen, [], _,
    rfl⟩⟩

theorem witness_RegisterMapAccesses :
    (∃ (s : State) (rest : List HostMove), s.stat ≠ .busy ∧ s.host = .readReg 0x00 32 :: rest) ∧
      (∃ (s : State) (rest : List HostMove), s.stat ≠ .busy ∧ s.host = .readReg 0x08 32 :: rest ∧
        s.inLen + 1 = 2 ^ 32) ∧
      (∃ (s : State) (rest : List HostMove), s.stat ≠ .busy ∧ s.host = .readReg 0x08 32 :: rest ∧ s.inLen = 2 ^ 32) ∧
      (∃ (s : State) (rest : List HostMove), s.stat ≠ .busy ∧ s.host = .readReg 0x0C 32 :: rest ∧
        s.outLen + 1 = 2 ^ 32) ∧
      (∃ (s : State) (rest : List HostMove), s.stat ≠ .busy ∧ s.host = .readReg 0x0C 32 :: rest ∧ s.outLen = 2 ^ 32) ∧
      (∃ (s : State) (rest : List HostMove) (v : Word), s.stat ≠ .busy ∧ s.host = .writeReg 0x0C 32 v :: rest) ∧
      (∃ (s : State) (rest : List HostMove) (v : Word), s.stat ≠ .busy ∧ s.host = .writeReg 0x08 32 v :: rest ∧
        v.toNat + 1 = 2 ^ s.cfg.lenBits) ∧
      ∃ (s : State) (rest : List HostMove) (v : Word), s.stat ≠ .busy ∧ s.host = .writeReg 0x08 32 v :: rest ∧
        v.toNat = 2 ^ s.cfg.lenBits :=
  ⟨⟨script [.readReg 0x00 32] State.reset, [], by decide⟩,
    ⟨script [.readReg 0x08 32] { provided wide [] with inLen := 2 ^ 32 - 1 }, [], by decide⟩,
    ⟨script [.readReg 0x08 32] { provided wide [] with inLen := 2 ^ 32 }, [], by decide⟩,
    ⟨script [.readReg 0x0C 32] { provided wide [] with outLen := 2 ^ 32 - 1 }, [], by decide⟩,
    ⟨script [.readReg 0x0C 32] { provided wide [] with outLen := 2 ^ 32 }, [], by decide⟩,
    ⟨script [.writeReg 0x0C 32 5] State.reset, [], 5, by decide⟩,
    ⟨script [.writeReg 0x08 32 255] (provided (small 255 255) []), [], 255, by decide⟩,
    ⟨script [.writeReg 0x08 32 256] (provided (small 255 255) []), [], 256, by decide⟩⟩

theorem witness_ForbiddenHostAccessesRefused :
    (∃ (s : State) (rest : List HostMove), s.host = .readReg 0x04 8 :: rest) ∧
      (∃ (s : State) (rest : List HostMove), s.host = .writeReg 0x03 32 1 :: rest) ∧
      (∃ (s : State) (rest : List HostMove), s.host = .writeReg 0x08 40 1 :: rest ∧ s.cfg.lenBits = 40) ∧
      (∃ (s : State) (rest : List HostMove), s.host = .writeObuf 0 1 :: rest) ∧
      ∀ m : HostMove, ∃ (s : State) (rest : List HostMove), s.stat = .busy ∧ s.host = m :: rest :=
  ⟨⟨script [.readReg 0x04 8] State.reset, [], rfl⟩, ⟨script [.writeReg 0x03 32 1] State.reset, [], rfl⟩,
    ⟨script [.writeReg 0x08 40 1] (provided wide []), [], rfl, rfl⟩, ⟨script [.writeObuf 0 1] State.reset, [], rfl⟩,
    fun m => ⟨script [m] beforeCgen, [], rfl, rfl⟩⟩

theorem witness_HostBufferAccesses :
    (∃ (s : State) (rest : List HostMove) (i : Nat) (b : Byte), s.stat ≠ .busy ∧ s.host = .writeIbuf i b :: rest ∧
      i < s.cfg.ibufBytes) ∧
      (∃ (s : State) (rest : List HostMove) (i : Nat) (b : Byte), s.stat ≠ .busy ∧ s.host = .readIbuf i :: rest ∧
        i < s.cfg.ibufBytes ∧
        s.ibuf.read i = some b) ∧
      (∃ (s : State) (rest : List HostMove) (i : Nat), s.stat ≠ .busy ∧ s.host = .readIbuf i :: rest ∧
        i < s.cfg.ibufBytes ∧ s.ibuf.read i = none) ∧
      (∃ (s : State) (rest : List HostMove) (i : Nat) (b : Byte), s.stat = .done ∧ s.err = .ok ∧
        s.host = .readObuf i :: rest ∧ i < s.cfg.obufBytes ∧
        i < s.outLen ∧ s.obuf.read i = some b) ∧
      (∃ (s : State) (rest : List HostMove) (i : Nat), s.stat = .idle ∧ s.host = .readObuf i :: rest ∧
        i < s.cfg.obufBytes) ∧
      (∃ (s : State) (rest : List HostMove) (i : Nat), s.stat = .done ∧ s.host = .readObuf i :: rest ∧
        i < s.cfg.obufBytes ∧ s.outLen = i) ∧
      (∃ (s : State) (rest : List HostMove) (i : Nat) (b : Byte), s.stat ≠ .busy ∧ s.host = .writeIbuf i b :: rest ∧
        s.cfg.ibufBytes = i) ∧
      (∃ (s : State) (rest : List HostMove) (i : Nat), s.stat ≠ .busy ∧ s.host = .readIbuf i :: rest ∧
        s.cfg.ibufBytes = i) ∧
      ∃ (s : State) (rest : List HostMove) (i : Nat), s.stat ≠ .busy ∧ s.host = .readObuf i :: rest ∧
        s.cfg.obufBytes = i :=
  ⟨⟨script [.writeIbuf 3 7] (provided (small 4 4) []), [], 3, 7, by decide⟩,
    ⟨script [.readIbuf 3] (provided (small 4 4) aaab), [], 3, 0x42, by decide⟩,
    ⟨script [.readIbuf 3] (provided (small 4 4) []), [], 3, by decide⟩,
    ⟨script [.readObuf 1] (ended (small 4 4) [7, 8]), [], 1, 8, by decide⟩,
    ⟨script [.readObuf 3] (provided (small 4 4) []), [], 3, by decide⟩,
    ⟨script [.readObuf 2] (ended (small 4 4) [7, 8]), [], 2, by decide⟩,
    ⟨script [.writeIbuf 4 7] (provided (small 4 5) []), [], 4, 7, by decide⟩,
    ⟨script [.readIbuf 4] (provided (small 4 5) []), [], 4, by decide⟩,
    ⟨script [.readObuf 5] (ended (small 4 5) [7, 8]), [], 5, by decide⟩⟩

theorem witness_HostReadsHaveNoSideEffect :
    (∃ (s t : State) (rest : List HostMove), s.host = .readReg 0x04 32 :: rest ∧ step s = .next t) ∧
      (∃ (s t : State) (rest : List HostMove), s.host = .readIbuf 3 :: rest ∧ step s = .next t) ∧
      ∃ (s t : State) (rest : List HostMove), s.host = .readObuf 1 :: rest ∧ step s = .next t := by
  refine ⟨?_, ?_, ?_⟩
  · obtain ⟨t, h⟩ := exists_next (o := step (script [.readReg 0x04 32] beforeCgen)) (by decide +kernel)
    exact ⟨_, t, [], rfl, h⟩
  · obtain ⟨t, h⟩ := exists_next (o := step (script [.readIbuf 3] (provided (small 4 4) aaab))) (by decide +kernel)
    exact ⟨_, t, [], rfl, h⟩
  · obtain ⟨t, h⟩ := exists_next (o := step (script [.readObuf 1] (ended (small 4 4) [7, 8]))) (by decide +kernel)
    exact ⟨_, t, [], rfl, h⟩

theorem witness_WaitReadsStatusUntilDone :
    (∃ (s : State) (rest : List HostMove), s.host = .wait :: rest ∧ s.stat = .done) ∧
      (∃ (s : State) (rest : List HostMove), s.host = .wait :: rest ∧ s.stat = .busy) ∧
      (∃ (s : State) (rest : List HostMove), s.host = .wait :: rest ∧ s.stat = .idle) ∧
      (∃ s t : State, CoreSlot s t ∧ s.host = [] ∧ s.stat = .idle) ∧
      ∃ s t : State, CoreSlot s t ∧ s.host ≠ [] ∧ s.stat = .done :=
  ⟨⟨script [.wait] (ended fine [7]), [], rfl, rfl⟩, ⟨script [.wait] beforeCgen, [], rfl, rfl⟩,
    ⟨script [.wait] State.reset, [], rfl, rfl⟩, ⟨State.reset, State.reset, .inl ⟨rfl, rfl⟩, rfl, rfl⟩,
    ⟨script [.idle] (ended fine [7]), ended fine [7], .inr ⟨[], rfl, rfl⟩, by decide, rfl⟩⟩

theorem witness_LoadProvidesTheOperand :
    (∃ (s : State) (rest : List HostMove), s.cfg.wf ∧ s.stat ≠ .busy ∧
      ([] : List Byte).length ≤ s.cfg.ibufBytes ∧
        s.host = loadMoves [] ++ rest) ∧
      ∃ (s : State) (rest : List HostMove), s.cfg.wf ∧ s.stat ≠ .busy ∧ aaab.length = s.cfg.ibufBytes ∧
        s.host = loadMoves aaab ++ rest :=
  ⟨⟨script (loadMoves []) State.reset, [], by decide⟩,
    ⟨script (loadMoves aaab ++ [cmdMove 1]) (provided (small 4 4) []), [cmdMove 1], by decide⟩⟩

theorem witness_CopybackMakesTheResultTheOperand :
    ∃ (s : State) (Y : List Byte) (rest : List HostMove), s.cfg.wf ∧ EndedWith s Y ∧
      Y.length = s.cfg.obufBytes ∧ Y.length = s.cfg.ibufBytes ∧
      s.host = .copyback :: rest :=
  ⟨script [.copyback] (ended (small 2 2) [7, 8]), [7, 8], [], by decide⟩

theorem witness_ResetAbandonsAndClears : ∃ (s : State) (rest : List HostMove), s.stat = .busy ∧
  s.host = .reset :: rest :=
  ⟨script [.reset] beforeCgen, [], rfl, rfl⟩

theorem witness_InputCapacityIsCheckedFirst :
    ∃ (s : State) (i : Instr), (i = .encode ∨ i = .decode) ∧ s.stat ≠ .busy ∧
      s.cfg.ibufBytes + 1 = s.inLen :=
  ⟨provided (small 3 3) aaab, Instr.decode, by decide⟩

theorem witness_ReservedCommandIsIllegal :
    (∃ (s : State) (v : Word) (rest : List HostMove), s.host = .writeReg 0x00 32 v :: rest ∧ s.stat ≠ .busy ∧ v = 0) ∧
      (∃ (s : State) (v : Word) (rest : List HostMove), s.host = .writeReg 0x00 32 v :: rest ∧ s.stat ≠ .busy ∧
        v = 3) ∧
      ∃ (s : State) (v : Word) (rest : List HostMove), s.host = .writeReg 0x00 32 v :: rest ∧ s.stat ≠ .busy ∧
        v = 0xFFFFFFFF :=
  ⟨⟨script [cmdMove 0] State.reset, 0, [], by decide⟩, ⟨script [cmdMove 3] (ended fine [7]), 3, [], by decide⟩,
    ⟨script [cmdMove 0xFFFFFFFF] State.reset, 0xFFFFFFFF, [], by decide⟩⟩

theorem witness_CommandStartInTheFinerModel :
    ∃ s : State, s.stat ≠ .busy ∧ s.cfg.grain = .microOp ∧ s.inLen = s.cfg.ibufBytes :=
  ⟨provided { small 4 4 with grain := .microOp } aaab, by decide⟩

theorem witness_ErrorEntryLeavesTheErrorAlone :
    (∃ (s t : State), s.err = .ok ∧ exec .tdes s = .next t ∧ t.err ≠ .ok) ∧
      (∃ (s t : State), s.err ≠ .ok ∧ exec .decode s = .next t ∧ t.err ≠ .ok) ∧
      ∃ (s t : State), s.err ≠ .ok ∧ exec .encode s = .next t ∧ t.err ≠ .ok := by
  refine ⟨?_, ?_, ?_⟩
  · obtain ⟨t, h, ht⟩ := exists_next_with (o := exec .tdes (inPhase .tdes [0x00])) (P := fun t => t.err ≠ .ok)
      (by decide +kernel)
    exact ⟨_, t, rfl, h, ht⟩
  · obtain ⟨t, h, ht⟩ := exists_next_with
      (o := exec .decode { provided Config.standard [0x00] with err := .unknownCode }) (P := fun t => t.err ≠ .ok)
      (by decide +kernel)
    exact ⟨_, t, by decide, h, ht⟩
  · obtain ⟨t, h, ht⟩ := exists_next_with
      (o := exec .encode { provided (small 3 3) aaab with err := .unknownCode }) (P := fun t => t.err ≠ .ok)
      (by decide +kernel)
    exact ⟨_, t, by decide, h, ht⟩

theorem witness_ErrorKindsOfEachCommand :
    (∃ (s t : State), s.cfg.grain = .command ∧ exec .encode s = .next t ∧ t.err = .capacityExceeded) ∧
      ∃ (s t : State), s.cfg.grain = .command ∧ exec .decode s = .next t ∧ t.err = .truncatedPayload := by
  constructor
  · obtain ⟨t, h, ht⟩ := exists_next_with (o := exec .encode (provided (small 4 8) aaab))
      (P := fun t => t.err = .capacityExceeded) (by decide +kernel)
    exact ⟨_, t, rfl, h, ht⟩
  · obtain ⟨t, h, ht⟩ := exists_next_with
      (o := exec .decode (provided Config.standard
        [0x03, 0x05, 0x41, 0x02, 0x80, 0x42, 0x02, 0xC0, 0x43, 0x01, 0x00, 0xB0]))
      (P := fun t => t.err = .truncatedPayload) (by decide +kernel)
    exact ⟨_, t, rfl, h, ht⟩

theorem witness_ResultsStayUntilTheNextCommand :
    ∃ (s t : State), s.stat = .done ∧ step s = .next t ∧ (∀ v rest, s.host ≠ .writeReg 0x00 32 v :: rest) ∧
      ∀ rest, s.host ≠ .reset :: rest := by
  obtain ⟨t, h⟩ := exists_next (o := step (script [.copyback] (ended (small 2 2) [7, 8]))) (by decide +kernel)
  exact ⟨_, t, rfl, h, by intros; simp [script], by intros; simp [script]⟩

theorem witness_FcountCountsEverySymbol :
    (∃ (s : State) (X : List Byte), LatchedIs s X ∧ X.length = s.cfg.ibufBytes ∧
      s.freq = Vector.replicate 256 0 ∧ s.nsym = 0) ∧
      ∃ (s : State) (X : List Byte), LatchedIs s X ∧ X = [] ∧ s.freq = Vector.replicate 256 0 ∧ s.nsym = 0 :=
  ⟨⟨{ inPhase .fcount aaab with cfg := small 4 4 }, aaab, by decide, rfl, rfl, rfl⟩,
    ⟨inPhase .fcount [], [], by decide, rfl, rfl, rfl⟩⟩

theorem witness_FcountLaws :
    ∃ (s t : State) (X Y : List Byte), LatchedIs s X ∧ LatchedIs t Y ∧ X.Perm Y ∧ X ≠ Y ∧
      s.freq = Vector.replicate 256 0 ∧
      t.freq = Vector.replicate 256 0 ∧ s.nsym = 0 ∧ t.nsym = 0 :=
  ⟨inPhase .fcount [0x41, 0x42], inPhase .fcount [0x42, 0x41], [0x41, 0x42], [0x42, 0x41], by decide, by decide,
    by decide, by decide, rfl, rfl, rfl, rfl⟩

theorem witness_FcountOfAnUnwrittenByteFaults :
    ∃ (s : State) (i : Nat), s.n ≤ s.cfg.ibufBytes ∧ i + 1 = s.n ∧ s.ibuf.read i = none :=
  ⟨{ inPhase .fcount aaab with n := 5 }, 4, by decide⟩

theorem presentSymbols_one : presentSymbols (counts oneFreq) = [0x41] := by decide +kernel

theorem presentSymbols_aaab : presentSymbols (counts aaabFreq) = [0x41, 0x42] := by decide +kernel

theorem presentSymbols_all : presentSymbols (counts (Vector.replicate 256 1)) = alphabet := by
  simp [presentSymbols, counts, Vector.get]

theorem witness_TbuildMakesTheArena :
    (∃ (s : State) (syms : List Byte), s.nodes = [] ∧ syms = presentSymbols (counts s.freq) ∧ syms.length = 1) ∧
      ∃ (s : State) (syms : List Byte), s.nodes = [] ∧ syms = presentSymbols (counts s.freq) ∧ syms.length = 256 :=
  ⟨⟨{ inPhase .tbuild [] with freq := oneFreq }, [0x41], rfl, presentSymbols_one.symm, rfl⟩,
    ⟨{ inPhase .tbuild [] with freq := Vector.replicate 256 1 }, alphabet, rfl, presentSymbols_all.symm, by simp [alphabet]⟩⟩

theorem witness_ArenaIsATree :
    ∃ (s t : State), s.nodes = [] ∧ 1 ≤ (presentSymbols (counts s.freq)).length ∧ exec .tbuild s = .next t := by
  obtain ⟨t, h⟩ := exists_next (o := exec .tbuild beforeTbuild) (by decide +kernel)
  exact ⟨beforeTbuild, t, rfl, by show 1 ≤ (presentSymbols (counts aaabFreq)).length; simp [presentSymbols_aaab], h⟩

theorem witness_TbuildBuildsTheFunctionalTree :
    ∃ s : State, s.nodes = [] ∧ 1 ≤ (presentSymbols (counts s.freq)).length :=
  ⟨beforeTbuild, rfl, by show 1 ≤ (presentSymbols (counts aaabFreq)).length; simp [presentSymbols_aaab]⟩

theorem witness_TbuildWithoutCandidates : ∃ s : State, s.nodes = [] ∧ s.freq = Vector.replicate 256 0 :=
  ⟨inPhase .tbuild [], rfl, rfl⟩

theorem witness_CgenGivesTheOnlySymbolZero :
    (∃ (s : State) (nd : Node) (b : Byte), s.root = 0 ∧ s.nodes[s.root]? = some nd ∧ nd.kind = .leaf b) ∧
      ∃ (s : State) (nd : Node) (b : Byte), s.root = 510 ∧ s.nodes[s.root]? = some nd ∧ nd.kind = .leaf b :=
  ⟨⟨{ inPhase .cgen [] with nodes := [⟨.leaf 0x41, 1, true⟩], root := 0 }, ⟨.leaf 0x41, 1, true⟩, 0x41, by decide⟩,
    ⟨{ inPhase .cgen [] with nodes := List.replicate 511 ⟨.leaf 0xFF, 1, true⟩, root := 510 }, ⟨.leaf 0xFF, 1,
      true⟩, 0xFF,
      by decide +kernel⟩⟩

theorem witness_CgenRecordsThePathsOfTheTree :
    ∃ (s : State) (T : HTree), s.nnode ≤ 511 ∧ treeAt s.nodes 256 s.root = some T ∧ (T.table.map Prod.fst).Nodup :=
  ⟨beforeCgen, .node 4 (.leaf 0x42 1) (.leaf 0x41 3), by decide +kernel⟩

theorem witness_CodesArePrefixFreeAndComplete :
    (∃ (s : State) (syms : List Byte), s.nodes = [] ∧ s.code = Vector.replicate 256 [] ∧
        syms = presentSymbols (counts s.freq) ∧ syms.length = 1) ∧
      ∃ (s : State) (syms : List Byte), s.nodes = [] ∧ s.code = Vector.replicate 256 [] ∧
        syms = presentSymbols (counts s.freq) ∧ syms.length = 2 :=
  ⟨⟨{ inPhase .tbuild [] with freq := oneFreq }, [0x41], rfl, rfl, presentSymbols_one.symm, rfl⟩,
    ⟨beforeTbuild, [0x41, 0x42], rfl, rfl, presentSymbols_aaab.symm, rfl⟩⟩

theorem witness_CodeBytePlacesEachBit : ∃ t : Nat, t < 8 ∧ t + 1 = 8 := ⟨7, by decide⟩

theorem witness_BpackPacksTheCodewords :
    ∃ (s : State) (X : List Byte) (B : Bits), LatchedIs s X ∧ B = X.flatMap (fun b => s.code.get b.toFin) ∧
      s.hdrLen + ceil8 B.length = s.cfg.obufBytes :=
  ⟨{ beforeBpack with cfg := small 4 9 }, aaab, [true, true, true, false], by decide +kernel⟩

theorem witness_TserWritesTheHeader :
    ∃ (s : State) (H : List Byte), H = [tableSizeByte s.nsym, BitVec.ofNat 8 s.pad.val]
        ++ (alphabet.filter fun b => 1 ≤ s.codeLen b).flatMap (fun b => entryBytes b (s.code.get b.toFin)) ∧
      H.length = s.cfg.obufBytes :=
  ⟨{ beforeTser with cfg := small 4 8 }, [0x02, 0x04, 0x41, 0x01, 0x80, 0x42, 0x01, 0x00], by decide +kernel⟩

theorem witness_TdesHeaderCases :
    (∃ s : State, s.n + 1 = 2) ∧
      (∃ (s : State) (t p : Byte), 2 = s.n ∧ s.n ≤ s.cfg.ibufBytes ∧ s.ibuf.read 0 = some t ∧
        s.ibuf.read 1 = some p ∧ p.toNat = 8) ∧
      ∃ (s : State), LatchedIs s [0x00, 0x00] :=
  ⟨⟨inPhase .tdes [0x00], rfl⟩, ⟨inPhase .tdes [0x01, 0x08], 0x01, 0x08, by decide⟩,
    ⟨inPhase .tdes [0x00, 0x00], by decide⟩⟩

theorem witness_TdesReadsTheTable :
    (∃ (s : State) (X : List Byte) (p : Parsed), LatchedIs s X ∧ s.dt = [] ∧ s.lmax = 0 ∧
      parseContainer X = some p ∧ p.payStart < X.length) ∧
      (∃ (s : State) (X : List Byte) (p : Parsed), LatchedIs s X ∧ s.dt = [] ∧ s.lmax = 0 ∧
        parseContainer X = some p ∧ p.payStart = X.length) ∧
      ∃ (s : State) (X : List Byte), LatchedIs s X ∧ s.dt = [] ∧ s.lmax = 0 ∧ parseContainer X = none :=
  ⟨⟨inPhase .tdes aaabContainer, aaabContainer, ⟨2, 4, 2, aaabEntries, 8⟩, by decide +kernel⟩,
    ⟨inPhase .tdes (aaabContainer.take 8), aaabContainer.take 8, ⟨2, 4, 2, aaabEntries, 8⟩, by decide +kernel⟩,
    ⟨inPhase .tdes (aaabContainer.take 7), aaabContainer.take 7, by decide +kernel⟩⟩

theorem witness_OnePayloadBit :
    (∃ (s : State) (bit : Bool) (acc : Bits), acc = s.acc ++ [bit] ∧ lookup s.dt acc = none ∧ acc.length = s.lmax) ∧
      (∃ (s : State) (bit : Bool) (acc : Bits), acc = s.acc ++ [bit] ∧ lookup s.dt acc = none ∧
        acc.length = s.lmax + 1) ∧
      (∃ (s : State) (bit : Bool) (acc : Bits) (sym : Byte), acc = s.acc ++ [bit] ∧ lookup s.dt acc = some sym ∧
        s.ocnt = s.cfg.obufBytes) ∧
      ∃ (s : State) (bit : Bool) (acc : Bits) (sym : Byte), acc = s.acc ++ [bit] ∧ lookup s.dt acc = some sym ∧
        s.ocnt + 1 = s.cfg.obufBytes :=
  ⟨⟨{ beforeBwalk with dt := [⟨[false, false], 0x41⟩], lmax := 2, acc := [true] }, false, [true, false], by decide⟩,
    ⟨{ beforeBwalk with dt := [⟨[false], 0x41⟩], lmax := 1, acc := [true] }, false, [true, false], by decide⟩,
    ⟨{ beforeBwalk with cfg := small 9 3, ocnt := 3 }, false, [false], 0x42, by decide⟩,
    ⟨{ beforeBwalk with cfg := small 9 4, ocnt := 3 }, false, [false], 0x42, by decide⟩⟩

theorem witness_BwalkWalksThePayload :
    (∃ (s : State) (X out : List Byte), LatchedIs s X ∧ s.pb.toNat ≤ 7 ∧ walkFn s.dt s.lmax s.cfg.obufBytes
        (scannedBits (X.drop s.payStart) s.pb.toNat) [] [] = .ok out ∧ out.length = s.cfg.obufBytes) ∧
      ∃ (s : State) (X : List Byte) (e : Err), LatchedIs s X ∧ s.pb.toNat = 7 ∧
        walkFn s.dt s.lmax s.cfg.obufBytes
        (scannedBits (X.drop s.payStart) s.pb.toNat) [] [] = .error e :=
  ⟨⟨{ beforeBwalk with cfg := small 9 4 }, aaabContainer, aaab, by decide +kernel⟩,
    ⟨{ beforeBwalk with pb := 7, dt := [⟨[false], 0x42⟩] }, aaabContainer, .truncatedPayload, by decide +kernel⟩⟩

theorem witness_BwalkWithoutPayload : ∃ s : State, s.payStart = s.n :=
  ⟨{ inPhase .bwalk [0x00, 0x00] with payStart := 2 }, rfl⟩

theorem witness_EncodeGivesTheContainer :
    (∃ (s : State) (X : List Byte), s.cfg.grain = .command ∧ CommandReady s X ∧
      (encodeFn X).length = s.cfg.obufBytes) ∧
      ∃ (s : State) (X : List Byte), s.cfg.grain = .command ∧ CommandReady s X ∧
        (encodeFn X).length = s.cfg.obufBytes + 1 :=
  ⟨⟨provided (small 4 9) aaab, aaab, by decide +kernel⟩, ⟨provided (small 4 8) aaab, aaab, by decide +kernel⟩⟩

theorem witness_DecodeGivesTheBytesOrTheError :
    (∃ (s : State) (C : List Byte), s.cfg.grain = .command ∧ CommandReady s C ∧
      decodeFn s.cfg.obufBytes C = .ok aaab) ∧
      ∃ (s : State) (C : List Byte), s.cfg.grain = .command ∧ CommandReady s C ∧
        decodeFn s.cfg.obufBytes C = .error .capacityExceeded :=
  ⟨⟨provided (small 9 4) aaabContainer, aaabContainer, by decide +kernel⟩,
    ⟨provided (small 9 3) aaabContainer, aaabContainer, by decide +kernel⟩⟩

theorem witness_DecodeUndoesEncode : ∃ (X : List Byte) (cap : Nat), X.length = cap ∧ 1 ≤ cap := ⟨aaab, 4, by decide⟩

theorem witness_RoundTripOnTheMachine :
    ∃ (s : State) (X : List Byte) (rest : List HostMove), s.cfg.wf ∧ s.cfg.grain = .command ∧ CommandReady s X ∧
      (encodeFn X).length = s.cfg.obufBytes ∧ (encodeFn X).length = s.cfg.ibufBytes ∧
      X.length ≤ s.cfg.obufBytes ∧ s.host = [cmdMove 1, .wait, .copyback, cmdMove 2, .wait] ++ rest :=
  ⟨script [cmdMove 1, .wait, .copyback, cmdMove 2, .wait] (provided (small 9 9) aaab), aaab, [], by decide +kernel⟩

theorem witness_FinerModelAgreesWithTheAtomicOne :
    ∃ (s : State) (i : Instr) (v : Word), decodeCmd v = .ok i ∧ s.stat ≠ .busy ∧ s.cfg.grain = .microOp ∧
      s.host = [cmdMove v] :=
  ⟨script [cmdMove 1] (provided fine aaab), .encode, 1, by decide⟩

theorem witness_RunningCommandEnds :
    ∃ (s t : State), s.host = [] ∧ s.stat = .busy ∧ s.phase ≠ .none ∧ Sys2Proof.core.run 5 s = .next t := by
  obtain ⟨t, h⟩ := exists_next (o := Sys2Proof.core.run 5 (inPhase .fcount aaab)) (by decide +kernel)
  exact ⟨inPhase .fcount aaab, t, rfl, rfl, by decide, h⟩

theorem witness_ResultDependsOnTheOperandOnly :
    ∃ (s s' t : State) (i : Instr), (i = .encode ∨ i = .decode) ∧ s.cfg.grain = .command ∧ s'.cfg = s.cfg ∧
      s.stat ≠ .busy ∧
      s'.stat ≠ .busy ∧ s'.inLen = s.inLen ∧ (∀ j < s.inLen, s'.ibuf.read j = s.ibuf.read j) ∧
      s'.nsym ≠ s.nsym ∧ exec i s = .next t := by
  obtain ⟨t, h⟩ := exists_next (o := exec .encode (provided Config.standard aaab)) (by decide +kernel)
  exact ⟨provided Config.standard aaab, { provided Config.standard aaab with freq := aaabFreq, nsym := 2 }, t, .encode,
    .inl rfl, rfl, rfl, by decide, by decide, rfl, fun _ _ => rfl, by decide, h⟩

theorem witness_ContainerOfANonEmptyInput :
    ∃ (X : List Byte) (table : List (Byte × Bits)) (syms : List Byte) (bits : Nat), X ≠ [] ∧
      table = codeTable (freqOf X) ∧ syms = presentSymbols (freqOf X) ∧
      bits = (syms.map fun b => (codeIn table b).length * freqOf X b).sum :=
  ⟨aaab, [(0x42, [false]), (0x41, [true])], [0x41, 0x42], 4, by decide +kernel⟩

theorem witness_HeaderDependsOnTheCountsOnly : ∃ X Y : List Byte, X.Perm Y ∧ X ≠ Y :=
  ⟨[0x41, 0x42], [0x42, 0x41], by decide⟩

theorem witness_TruncationInsideTheTable :
    ∃ (X : List Byte) (h : Nat), X ≠ [] ∧
      h = headerSize (codeTable (freqOf X)) (presentSymbols (freqOf X)) ∧ (2 < 3 ∧ 3 < h) ∧ 2 < h - 1 ∧ h - 1 < h ∧
      (encodeFn X).take 2 ≠ [0x00, 0x00] ∧ 1 < 2 :=
  ⟨aaab, 8, by decide +kernel⟩

theorem witness_InstructionsLeaveTheHostSide : ∀ i : Instr, ∃ (s t : State), exec i s = .next t := by
  intro i
  cases i with
  | encode => exact ⟨_, exists_next (o := exec .encode (provided Config.standard aaab)) (by decide +kernel)⟩
  | decode => exact ⟨_, exists_next (o := exec .decode (provided Config.standard aaabContainer)) (by decide +kernel)⟩
  | fcount => exact ⟨_, exists_next (o := exec .fcount (inPhase .fcount aaab)) (by decide +kernel)⟩
  | tbuild => exact ⟨_, exists_next (o := exec .tbuild beforeTbuild) (by decide +kernel)⟩
  | cgen => exact ⟨_, exists_next (o := exec .cgen beforeCgen) (by decide +kernel)⟩
  | bpack => exact ⟨_, exists_next (o := exec .bpack beforeBpack) (by decide +kernel)⟩
  | tser => exact ⟨_, exists_next (o := exec .tser beforeTser) (by decide +kernel)⟩
  | tdes => exact ⟨_, exists_next (o := exec .tdes (inPhase .tdes aaabContainer)) (by decide +kernel)⟩
  | bwalk => exact ⟨_, exists_next (o := exec .bwalk beforeBwalk) (by decide +kernel)⟩

/-- The three invariants together, in the middle of a command and after one. -/
theorem witness_StepKeepsTheInvariants :
    (∃ s t : State, BuffersInv s ∧ StatusInv s ∧ WidthsInv s ∧ s.phase = .tbuild ∧ step s = .next t) ∧
      (∃ s t : State, BuffersInv s ∧ StatusInv s ∧ WidthsInv s ∧ s.phase = .tser ∧ step s = .next t) ∧
      ∃ s t : State, BuffersInv s ∧ StatusInv s ∧ WidthsInv s ∧ s.phase = .bwalk ∧ step s = .next t := by
  refine ⟨?_, ?_, ?_⟩
  · obtain ⟨t, h⟩ := exists_next (o := step beforeTbuild) (by decide +kernel)
    exact ⟨beforeTbuild, t, by decide +kernel, by decide +kernel, ⟨by decide, by decide, by decide +kernel, by decide +kernel,
      by decide, by decide, by decide⟩, rfl, h⟩
  · obtain ⟨t, h⟩ := exists_next (o := step beforeTser) (by decide +kernel)
    exact ⟨beforeTser, t, by decide +kernel, by decide +kernel, ⟨by decide, by decide, by decide +kernel, by decide +kernel,
      by decide, by decide, by decide⟩, rfl, h⟩
  · obtain ⟨t, h⟩ := exists_next (o := step beforeBwalk) (by decide +kernel)
    exact ⟨beforeBwalk, t, by decide +kernel, by decide +kernel, ⟨by decide, by decide, by decide +kernel, by decide +kernel,
      by decide, by decide, by decide⟩, rfl, h⟩

/-- Each clause, with the byte missing at a boundary. -/
theorem witness_UnwrittenOperandByteStops :
    (∃ (s : State) (i : Nat), s.ibuf.read i = none ∧ s.stat ≠ .busy ∧ s.cfg.grain = .command ∧
        s.inLen = s.cfg.ibufBytes ∧ i + 1 = s.inLen) ∧
      (∃ (s : State) (i : Nat), s.ibuf.read i = none ∧ s.stat ≠ .busy ∧ s.cfg.grain = .command ∧
        s.inLen ≤ s.cfg.ibufBytes ∧ i = 1 ∧ 2 = s.inLen) ∧
      (∃ (s t : State) (i : Nat), s.ibuf.read i = none ∧ s.stat ≠ .busy ∧ s.cfg.grain = .command ∧
        s.inLen ≤ s.cfg.ibufBytes ∧ i < s.inLen ∧ exec .decode s = .next t) ∧
      (∃ (s : State) (i : Nat), s.ibuf.read i = none ∧ s.n ≤ s.cfg.ibufBytes ∧ i + 1 = s.n ∧
        (∀ b, s.codeLen b ≤ 255) ∧ s.hdrLen + 32 * s.n = s.cfg.obufBytes) ∧
      (∃ (s : State) (i : Nat), s.ibuf.read i = none ∧ s.n ≤ s.cfg.ibufBytes ∧ i = 1 ∧ 2 = s.n) ∧
      (∃ (s t : State) (i : Nat), s.ibuf.read i = none ∧ s.n ≤ s.cfg.ibufBytes ∧ i < s.n ∧ s.stat = .busy ∧
        exec .tdes s = .next t ∧ t.stat = .busy) ∧
      (∃ (s : State) (i : Nat), s.ibuf.read i = none ∧ s.n ≤ s.cfg.ibufBytes ∧ i + 1 = s.n ∧ s.payStart = i) ∧
      ∃ (s t : State) (i : Nat), s.ibuf.read i = none ∧ s.n ≤ s.cfg.ibufBytes ∧ i < s.n ∧ s.stat = .busy ∧
        s.payStart < i ∧ exec .bwalk s = .next t := by
  refine ⟨⟨{ provided (small 4 9) aaab with ibuf := Memory.ofBytes [0x41, 0x41, 0x41] }, 3, by decide⟩,
    ⟨{ provided Config.standard [0x01] with inLen := 2 }, 1, by decide⟩, ?_,
    ⟨{ beforeBpack with cfg := small 5 168, n := 5 }, 4, by decide +kernel⟩,
    ⟨{ inPhase .tdes [0x01] with n := 2 }, 1, by decide⟩, ?_,
    ⟨{ beforeBwalk with ibuf := Memory.ofBytes (aaabContainer.take 8) }, 8, by decide⟩, ?_⟩
  · obtain ⟨t, h⟩ := exists_next (o := exec .decode { provided Config.standard [0x01, 0x08] with inLen := 3 })
      (by decide +kernel)
    exact ⟨_, t, 2, by decide, by decide, rfl, by decide, by decide, h⟩
  · obtain ⟨t, h, ht⟩ := exists_next_with
      (o := exec .tdes { inPhase .tdes (aaabContainer.take 8) with n := 9 }) (P := fun t => t.stat = .busy)
      (by decide +kernel)
    exact ⟨_, t, 8, by decide, by decide, by decide, rfl, h, ht⟩
  · obtain ⟨t, h⟩ := exists_next (o := exec .bwalk { beforeBwalk with n := 10, pb := 0, dt := [⟨[false], 0x42⟩] })
      (by decide +kernel)
    exact ⟨_, t, 9, by decide, by decide, by decide, rfl, by decide, h⟩

end Sys2Proof.Tests
end

/-! ## Packing and unpacking bit strings -/

namespace Sys2Proof.Machine

/-- The weights of the eight bits at stream positions 0 to 7 add up to the byte whose bit `7 - t` is the one at `t`. -/
theorem sum_bitWeight_eq_ofBits (f : Nat → Bool) :
    ((List.range 8).map fun t => bitWeight (f t) t).sum = Nat.ofBits fun i : Fin 8 => f (7 - i) := by
  have weight (b : Bool) (t : Nat) : bitWeight b t = b.toNat * 2 ^ (7 - t) := by cases b <;> simp [bitWeight]
  simp only [weight, Nat.ofBits, List.range_succ, Fin.foldr_succ, Fin.foldr_zero]
  simp
  omega

/-- 44_table_codec.md R202: code bit 8j + t is bit 7 - t of byte j, and positions past the code's end are 0. -/
theorem codeByte_getLsbD (c : Bits) (j : Nat) {t : Nat} (ht : t < 8) :
    (codeByte c j).getLsbD (7 - t) = c.getD (8 * j + t) false := by
  have hlt : 7 - t < 8 := by omega
  rw [codeByte, sum_bitWeight_eq_ofBits fun t => c.getD (8 * j + t) false, BitVec.getLsbD_ofNat,
    Nat.testBit_ofBits_lt _ _ hlt, decide_eq_true hlt, Bool.true_and]
  congr 2
  show 7 - (7 - t) = t
  omega

/-- The bits of a code byte are eight consecutive code bits. -/
theorem byteBits_codeByte (c : Bits) (j : Nat) :
    byteBits (codeByte c j) = (List.range 8).map fun t => c.getD (8 * j + t) false :=
  List.map_congr_left fun _ ht => codeByte_getLsbD c j (List.mem_range.1 ht)

/-- `m` code bytes hold the first `8 m` code bits, the missing ones 0. -/
theorem flatMap_byteBits_codeByte (c : Bits) (m : Nat) :
    ((List.range m).map (codeByte c)).flatMap byteBits = (List.range (8 * m)).map fun i => c.getD i false := by
  induction m with
  | zero => rfl
  | succ m ih =>
    rw [List.range_succ, List.map_append, List.flatMap_append, ih, Nat.mul_succ, List.range_add, List.map_append]
    simp [byteBits_codeByte, Function.comp_def]

/-- The first `len(c)` code bits are the code. -/
theorem map_getD_range_length (c : Bits) : ((List.range c.length).map fun i => c.getD i false) = c := by
  apply List.ext_getElem <;> simp +contextual

/-- 00_scope.md R14: unpacking what was packed gives it back. -/
theorem unpack_pack (c : Bits) : unpack (pack c) c.length = c := by
  rw [unpack, pack, flatMap_byteBits_codeByte, ← List.map_take, List.take_range, Nat.min_eq_left (le_ceil8 _),
    map_getD_range_length]

/-- The padding fills the last byte (45_bit_packer.md R234). -/
theorem eight_mul_ceil8 (len : Nat) : 8 * ceil8 len = len + (padCount len).val := by
  rw [padCount_val, ceil8]
  omega

/-- Settles O35. -/
theorem unpackUndoesPack : Obligations.UnpackUndoesPack := by
  intro c
  refine ⟨unpack_pack c, pack_length c, ?_⟩
  rw [pack_length]
  exact eight_mul_ceil8 c.length

end Sys2Proof.Machine

/-! ## Register accesses -/

namespace Sys2Proof.Machine

/-- A host move that is an access is the whole step. -/
theorem step_of_access {s : State} {m : HostMove} {rest : List HostMove} {o : Host.Outcome State Fault Refusal}
    (h : s.host = m :: rest) (hm : hostMove m { s with host := rest } = .access o) : step s = o := by
  rw [step, nextMove_of_host h, hm]

/-- A host's register read is the whole step. -/
theorem step_readReg {s : State} {rest : List HostMove} {offset width : Nat}
    (h : s.host = .readReg offset width :: rest) : step s = readRegister offset width { s with host := rest } :=
  step_of_access h rfl

/-- A host's write of a word to IN_LEN while no command runs. -/
theorem step_writeInLen {s : State} {rest : List HostMove} {v : Word} (hb : s.stat ≠ .busy)
    (h : s.host = .writeReg 0x08 32 v :: rest) : step s = .next (writeInLen v.toNat { s with host := rest }) := by
  have hb' : ({ s with host := rest } : State).stat ≠ .busy := hb
  exact step_of_access h (by rw [hostMove, writeRegister_inLen, whenNotBusy_of_ne _ hb'])

/-- A host's write of a word to OUT_LEN while no command runs changes nothing. -/
theorem step_writeOutLen {s : State} {rest : List HostMove} {v : Word} (hb : s.stat ≠ .busy)
    (h : s.host = .writeReg 0x0C 32 v :: rest) : step s = .next { s with host := rest } := by
  have hb' : ({ s with host := rest } : State).stat ≠ .busy := hb
  exact step_of_access h (by rw [hostMove, writeRegister_outLen, whenNotBusy_of_ne _ hb'])

/-- A step that reads the byte count `k`: the count itself where a word holds it, some word where none does. -/
theorem readCount_of_step {s : State} {rest : List HostMove} {k : Nat}
    (h : step s = .next (readCount k { s with host := rest })) :
    (k < 2 ^ 32 → ∃ v : Word, v.toNat = k ∧ step s = .next { s with host := rest, reply := .word v }) ∧
      (2 ^ 32 ≤ k →
        ∃ v : Word, step s = .next { s with host := rest, reply := .word v, freeCtr := s.freeCtr + 1 }) := by
  refine ⟨fun hk => ?_, fun hk => ?_⟩
  · obtain ⟨v, hv, hr⟩ := readCount_of_lt (s := { s with host := rest }) hk
    exact ⟨v, hv, h.trans (by rw [hr])⟩
  · obtain ⟨v, hr⟩ := readCount_of_le (s := { s with host := rest }) hk
    exact ⟨v, h.trans (by rw [hr])⟩

/-- Settles O8: each access is one step, and the laws of `readCount` and `writeInLen` say what it does. -/
theorem registerMapAccesses : Obligations.RegisterMapAccesses := by
  intro s rest hb
  have notBusy (o) : whenNotBusy { s with host := rest } o = o := whenNotBusy_of_ne o hb
  refine ⟨fun h => ?readCmd, fun offset k hk h => ?readCounts, fun v h => ?writeOutLen, fun v h hv => ?writeInLen,
    fun v h hv => ?writeInLenWide⟩
  case readCmd => rw [step_readReg h, readRegister_cmd, notBusy]
  case readCounts =>
    apply readCount_of_step
    simp only [List.mem_cons, List.not_mem_nil, or_false, Prod.mk.injEq] at hk
    obtain ⟨rfl, rfl⟩ | ⟨rfl, rfl⟩ := hk
    · rw [step_readReg h, readRegister_inLen]
    · rw [step_readReg h, readRegister_outLen, notBusy]
  case writeOutLen => exact step_writeOutLen hb h
  case writeInLen => rw [step_writeInLen hb h, writeInLen_of_lt (s := { s with host := rest }) hv]
  case writeInLenWide =>
    obtain ⟨k, hk, hs⟩ := writeInLen_of_le (s := { s with host := rest }) hv
    exact ⟨k, hk, by rw [step_writeInLen hb h, hs]⟩

end Sys2Proof.Machine

/-! ## FCOUNT -/

namespace Sys2Proof.Machine

/-! ### One byte counted -/

/-- One turn of FCOUNT's loop: the byte is counted and the cursor moves on. -/
def countNext (s : State) (b : Byte) : State :=
  let t := countByte b s
  { t with ipos := t.ipos + 1 }

theorem countNext_freq_get (s : State) (b c : Byte) :
    counts (countNext s b).freq c = counts s.freq c + if b = c then 1 else 0 := by
  have hbc : b.toNat = c.toNat ↔ b = c := BitVec.toNat_inj
  simp only [counts, countNext, countByte, Vector.get_eq_getElem, BitVec.val_toFin, Vector.getElem_set, hbc]
  split <;> simp_all

theorem countNext_freq_sum (s : State) (b : Byte) :
    (countNext s b).freq.toList.sum = s.freq.toList.sum + 1 := by
  have hb : b.toNat < s.freq.toList.length := by simpa using b.isLt
  have hs := List.sum_set s.freq.toList b.toNat s.freq.toList[b.toNat]
  rw [List.set_getElem_self] at hs
  simp only [countNext, countByte, Vector.toList_set, List.sum_set, hb, if_true] at hs ⊢
  simp only [Vector.get_eq_getElem, BitVec.val_toFin, Vector.getElem_toList] at hs ⊢
  omega

/-- A table of counts that changes at one symbol only, from 0 to a positive count or between positive counts. -/
theorem presentSymbols_length_of_count {f g : Byte → Nat} {b : Byte} (hb : g b = f b + 1)
    (hne : ∀ c, c ≠ b → g c = f c) :
    (presentSymbols g).length = if f b = 0 then (presentSymbols f).length + 1 else (presentSymbols f).length := by
  obtain ⟨l₁, l₂, hl⟩ := List.append_of_mem (mem_alphabet b)
  have hnd := alphabet_nodup
  rw [hl, List.nodup_middle, List.nodup_cons] at hnd
  have same (l : List Byte) (hbl : b ∉ l) :
      (l.filter fun c => decide (1 ≤ g c)) = l.filter fun c => decide (1 ≤ f c) :=
    List.filter_congr fun c hc => by rw [hne c fun h => hbl (h ▸ hc)]
  have h₁ := same l₁ fun h => hnd.1 (List.mem_append_left _ h)
  have h₂ := same l₂ fun h => hnd.1 (List.mem_append_right _ h)
  simp only [presentSymbols, hl, List.filter_append, List.filter_cons, h₁, h₂, hb]
  split <;> simp_all [Nat.one_le_iff_ne_zero]; omega

/-- NSYM goes on being the number of symbols present (10_state.md R32). -/
theorem countNext_nsym {s : State} (b : Byte) (h : s.nsym = (presentSymbols (counts s.freq)).length) :
    (countNext s b).nsym = (presentSymbols (counts (countNext s b).freq)).length := by
  rw [presentSymbols_length_of_count (f := counts s.freq) (b := b) (by simp [countNext_freq_get])
    fun c hc => by simp [countNext_freq_get, hc.symm], ← h]
  rfl

/-! ### The loop -/

/-- Counting bytes changes FREQ, NSYM and IPOS only. -/
theorem foldl_countNext_eq (X : List Byte) (s : State) : ∃ f k, X.foldl countNext s =
    { s with freq := f, nsym := k, ipos := s.ipos + X.length } := by
  induction X generalizing s with
  | nil => exact ⟨_, _, rfl⟩
  | cons b X ih =>
    obtain ⟨f, k, h⟩ := ih (countNext s b)
    refine ⟨f, k, h.trans ?_⟩
    simp only [countNext, countByte, List.length_cons, State.mk.injEq, true_and, and_true]
    omega

theorem foldl_countNext_freq_get (X : List Byte) (s : State) (c : Byte) :
    counts (X.foldl countNext s).freq c = counts s.freq c + X.count c := by
  induction X generalizing s with
  | nil => rfl
  | cons b X ih => rw [List.foldl_cons, ih, countNext_freq_get, List.count_cons]; simp only [beq_iff_eq]; omega

theorem foldl_countNext_freq_sum (X : List Byte) (s : State) :
    (X.foldl countNext s).freq.toList.sum = s.freq.toList.sum + X.length := by
  induction X generalizing s with
  | nil => rfl
  | cons b X ih => rw [List.foldl_cons, ih, countNext_freq_sum, List.length_cons]; omega

theorem foldl_countNext_nsym (X : List Byte) {s : State} (h : s.nsym = (presentSymbols (counts s.freq)).length) :
    (X.foldl countNext s).nsym = (presentSymbols (counts (X.foldl countNext s).freq)).length := by
  induction X generalizing s with
  | nil => exact h
  | cons b X ih => exact ih (countNext_nsym b h)

/-- A byte that is read is counted. -/
theorem fcountLoop_succ {k : Nat} {s : State} {b : Byte} (hb : ibufRead s s.ipos = .ok b) :
    fcountLoop (k + 1) s = fcountLoop k (countNext s b) := by
  simp [fcountLoop, hb, countNext, bind, Except.bind]

/-- All that FCOUNT's loop can do: it counts some `k` bytes, or it is a fault. -/
theorem fcountLoop_cases (k : Nat) (s : State) :
    (∃ X : List Byte, X.length = k ∧ fcountLoop k s = .ok (X.foldl countNext s)) ∨
      ∃ f, fcountLoop k s = .error (.fault f) := by
  induction k generalizing s with
  | zero => exact .inl ⟨[], rfl, rfl⟩
  | succ k ih =>
    cases hb : ibufRead s s.ipos with
    | error x =>
      obtain ⟨f, rfl⟩ := ibufRead_error hb
      exact .inr ⟨f, by simp [fcountLoop, hb, bind, Except.bind]⟩
    | ok b =>
      rw [fcountLoop_succ hb]
      rcases ih (countNext s b) with ⟨X, hX, h⟩ | ⟨f, h⟩
      · exact .inl ⟨b :: X, by simp [hX], h⟩
      · exact .inr ⟨f, h⟩

/-- FCOUNT's loop counts bytes that are all written and inside the buffer. -/
theorem fcountLoop_of_read (X : List Byte) (s : State) (hcap : s.ipos + X.length ≤ s.cfg.ibufBytes)
    (hX : ∀ i < X.length, s.ibuf.read (s.ipos + i) = X[i]?) :
    fcountLoop X.length s = .ok (X.foldl countNext s) := by
  induction X generalizing s with
  | nil => rfl
  | cons b X ih =>
    rw [List.length_cons] at hcap hX
    have hb : ibufRead s s.ipos = .ok b := ibufRead_of_read (by omega) (by simpa using hX 0 (by omega))
    rw [List.length_cons, fcountLoop_succ hb]
    refine ih (countNext s b) ?_ fun i hi => ?_
    · show s.ipos + 1 + X.length ≤ s.cfg.ibufBytes
      omega
    · show s.ibuf.read (s.ipos + 1 + i) = X[i]?
      rw [Nat.add_assoc, Nat.add_comm 1]
      simpa using hX (i + 1) (by omega)

/-! ### FCOUNT from cleared counters -/

@[simp] theorem counts_replicate_zero (b : Byte) : counts (Vector.replicate 256 0) b = 0 := by
  simp [counts, Vector.get_eq_getElem]

theorem sum_replicate_zero : (Vector.replicate 256 0).toList.sum = 0 := by
  rw [Vector.toList_replicate, List.sum_replicate, smul_zero]

/-- Two tables of counts that agree at every symbol are the same. -/
theorem freq_ext {f g : Vector Nat 256} (h : ∀ b : Byte, counts f b = counts g b) : f = g := by
  apply Vector.ext
  intro i hi
  simpa [counts, Vector.get_eq_getElem, Nat.mod_eq_of_lt hi] using h (BitVec.ofNat 8 i)

/-- No count exceeds the sum of the counts. -/
theorem counts_le_sum (f : Vector Nat 256) (b : Byte) : counts f b ≤ f.toList.sum :=
  List.le_sum_of_mem (by simp [counts, Vector.get_eq_getElem])

/-- Cleared counters and NSYM = 0 agree: no symbol is present. -/
theorem nsym_of_cleared {s : State} (hf : s.freq = Vector.replicate 256 0) (hn : s.nsym = 0) :
    s.nsym = (presentSymbols (counts s.freq)).length := by
  rw [hn, hf, show counts (Vector.replicate 256 0) = fun _ => 0 from funext counts_replicate_zero]
  simp [presentSymbols]

/-- 41_frequency_counter.md R161, R162: counting from cleared counters. -/
theorem foldl_countNext_of_cleared (X : List Byte) {s : State} (hf : s.freq = Vector.replicate 256 0)
    (hn : s.nsym = 0) :
    ∃ f, (∀ b, counts f b = freqOf X b) ∧ f.toList.sum = X.length ∧ X.foldl countNext s =
      { s with freq := f, nsym := (presentSymbols (freqOf X)).length, ipos := s.ipos + X.length } := by
  have hcounts (b : Byte) : counts (X.foldl countNext s).freq b = freqOf X b := by
    rw [foldl_countNext_freq_get, hf, counts_replicate_zero, Nat.zero_add, freqOf]
  have hsum : (X.foldl countNext s).freq.toList.sum = X.length := by
    rw [foldl_countNext_freq_sum, hf, sum_replicate_zero, Nat.zero_add]
  have hnsym : (X.foldl countNext s).nsym = (presentSymbols (freqOf X)).length := by
    rw [foldl_countNext_nsym X (nsym_of_cleared hf hn), funext hcounts]
  obtain ⟨f, k, hu⟩ := foldl_countNext_eq X s
  rw [hu] at hcounts hsum hnsym
  exact ⟨f, hcounts, hsum, hnsym ▸ hu⟩

/-- FCOUNT of a latched operand from cleared counters. -/
theorem fcount_of_latched {s : State} {X : List Byte} (hX : LatchedIs s X) (hf : s.freq = Vector.replicate 256 0)
    (hn : s.nsym = 0) :
    ∃ f, (∀ b, counts f b = freqOf X b) ∧ f.toList.sum = X.length ∧ exec .fcount s =
      .next { s with freq := f, nsym := (presentSymbols (freqOf X)).length, ipos := 0 + X.length } := by
  obtain ⟨hlen, hcap, hread⟩ := hX
  obtain ⟨f, hcounts, hsum, hu⟩ := foldl_countNext_of_cleared X (s := { s with ipos := 0 }) hf hn
  have hloop := fcountLoop_of_read X { s with ipos := 0 } (by simpa [hlen] using hcap) (by simpa using hread)
  rw [hlen, hu] at hloop
  exact ⟨f, hcounts, hsum, congrArg finish hloop⟩

/-! ### The number of symbols present -/

theorem presentSymbols_length_le (f : Byte → Nat) : (presentSymbols f).length ≤ 256 := by
  simpa [presentSymbols] using List.length_filter_le (fun s => decide (1 ≤ f s)) alphabet

theorem mem_presentSymbols {f : Byte → Nat} {b : Byte} : b ∈ presentSymbols f ↔ 1 ≤ f b := by
  simp [presentSymbols]

/-- There are at most as many different symbols as symbols. -/
theorem presentSymbols_freqOf_length_le (X : List Byte) : (presentSymbols (freqOf X)).length ≤ X.length := by
  have hsub : presentSymbols (freqOf X) ⊆ X := fun b hb => List.count_pos_iff.1 (mem_presentSymbols.1 hb)
  exact ((alphabet_nodup.filter _).subperm hsub).length_le

theorem presentSymbols_freqOf_eq_nil {X : List Byte} : presentSymbols (freqOf X) = [] ↔ X = [] := by
  refine ⟨fun h => List.eq_nil_iff_forall_not_mem.2 fun b hb => ?_, fun h => by simp [h, presentSymbols, freqOf]⟩
  have : b ∈ presentSymbols (freqOf X) := mem_presentSymbols.2 (List.count_pos_iff.2 hb)
  simp [h] at this

/-- Settles O24: both tables are `freqOf` of the operand, which a permutation leaves alone. -/
theorem fcountLaws : Obligations.FcountLaws := by
  intro s t X Y hX hY hperm hsf htf hsn htn
  obtain ⟨f, hf, hsum, hu⟩ := fcount_of_latched hX hsf hsn
  obtain ⟨g, hg, -, hv⟩ := fcount_of_latched hY htf htn
  have hfreq : freqOf X = freqOf Y := funext hperm.count_eq
  have hlen : X.length = s.n := hX.1
  refine ⟨_, _, hu, hv, freq_ext fun b => by rw [hf, hg, hfreq], by rw [hfreq], hsum.trans hlen, ?_,
    presentSymbols_length_le _, ?_, fun b => ?_⟩
  · exact hlen ▸ presentSymbols_freqOf_length_le X
  · rw [List.length_eq_zero_iff, presentSymbols_freqOf_eq_nil, ← hlen, List.length_eq_zero_iff]
  · exact hlen ▸ hsum ▸ counts_le_sum f b

end Sys2Proof.Machine

/-! ## The arena TBUILD makes -/

namespace Sys2Proof.Machine

/-- The sum of the candidates' weights, which no merge changes (42_tree_builder.md R172). -/
def liveWeight (ns : List Node) : Nat := ((ns.filter Node.live).map Node.w).sum

/-- What every merge keeps: a candidate takes the place of two, so the arena and the candidates together stay at most
512, and a candidate is always left (42_tree_builder.md R176); weights stay at most `n` and child indexes name nodes. -/
structure ArenaInv (n : Nat) (ns : List Node) : Prop where
  room : ns.length + liveCount ns ≤ 512
  left : ns = [] ∨ 1 ≤ liveCount ns
  weight : liveWeight ns ≤ n
  nodes : ∀ nd ∈ ns, nd.w ≤ n ∧ nd.childrenIn ns.length = true

/-- The arena has 511 elements (00_scope.md R9). -/
theorem ArenaInv.length_le {n : Nat} {ns : List Node} (h : ArenaInv n ns) : ns.length ≤ 511 := by
  have := h.room
  rcases h.left with rfl | h
  · simp
  · omega

/-! ### Candidates -/

/-- The lowest candidate is a live node of the arena. -/
theorem lowestFrom_live {base : Nat} {ns : List Node} {i w : Nat} (h : lowestFrom base ns = some (i, w)) :
    base ≤ i ∧ ∃ nd, ns[i - base]? = some nd ∧ nd.live = true := by
  induction ns generalizing base i w with
  | nil => cases h
  | cons nd rest ih =>
    have later {j v : Nat} (hj : lowestFrom (base + 1) rest = some (j, v)) :
        base ≤ j ∧ ∃ md, (nd :: rest)[j - base]? = some md ∧ md.live = true := by
      obtain ⟨hle, md, hmd, hlive⟩ := ih hj
      have : j - base = (j - (base + 1)) + 1 := by omega
      exact ⟨by omega, md, by simpa [this] using hmd, hlive⟩
    unfold lowestFrom at h
    split at h
    · split at h
      · next hlive => cases h; exact ⟨le_rfl, nd, by simp, hlive⟩
      · cases h
    · next j v hj =>
      split at h
      · next hlive =>
        cases h
        rw [Bool.and_eq_true] at hlive
        exact ⟨le_rfl, nd, by simp, hlive.1⟩
      · cases h; exact later hj

theorem lowestLive_live {ns : List Node} {i : Nat} (h : lowestLive ns = some i) :
    ∃ nd, ns[i]? = some nd ∧ nd.live = true := by
  obtain ⟨⟨j, w⟩, hj, rfl⟩ := Option.map_eq_some_iff.1 h
  exact (lowestFrom_live hj).2

theorem lowestLive_lt {ns : List Node} {i : Nat} (h : lowestLive ns = some i) : i < ns.length := by
  obtain ⟨nd, hnd, -⟩ := lowestLive_live h
  exact (List.getElem?_eq_some_iff.1 hnd).1

/-! ### Taking a candidate away -/

@[simp] theorem markMerged_length (ns : List Node) (i : Nat) : (markMerged ns i).length = ns.length :=
  List.length_modify ..

/-- A node marked as merged keeps its weight. -/
@[simp] theorem nodeWeight_markMerged (ns : List Node) (i j : Nat) :
    nodeWeight (markMerged ns i) j = nodeWeight ns j := by
  simp only [nodeWeight, markMerged, List.getElem?_modify]
  cases ns[j]? with
  | none => rfl
  | some nd => by_cases h : i = j <;> simp [h]

/-- Marking changes `live` only. -/
theorem mem_markMerged {ns : List Node} {i : Nat} {nd : Node} (h : nd ∈ markMerged ns i) :
    ∃ md ∈ ns, nd.w = md.w ∧ nd.kind = md.kind := by
  obtain ⟨j, hj, rfl⟩ := List.mem_iff_getElem.1 h
  have hj' : j < ns.length := by simpa using hj
  refine ⟨ns[j], List.getElem_mem hj', ?_⟩
  simp only [markMerged, List.getElem_modify]
  split <;> exact ⟨rfl, rfl⟩

/-- A candidate marked as merged is one candidate less, and its weight is no longer counted. -/
theorem markMerged_live {ns : List Node} {i : Nat} {nd : Node} (h : ns[i]? = some nd) (hl : nd.live = true) :
    liveCount (markMerged ns i) + 1 = liveCount ns ∧
      liveWeight (markMerged ns i) + nodeWeight ns i = liveWeight ns := by
  have hw : nodeWeight ns i = nd.w := by simp [nodeWeight, h]
  obtain ⟨hi, hnd⟩ := List.getElem?_eq_some_iff.1 h
  obtain ⟨l₁, md, l₂, hns, hlen, hmod⟩ := List.exists_of_modify (fun nd : Node => { nd with live := false }) hi
  have hmd : md = nd := by rw [← hnd]; simp [hns, ← hlen]
  subst hmd
  rw [hw, markMerged, hmod, hns]
  simp [liveCount, liveWeight, hl]
  omega

/-! ### A merge -/

theorem Node.childrenIn_mono {nd : Node} {k m : Nat} (h : nd.childrenIn k = true) (hkm : k ≤ m) :
    nd.childrenIn m = true := by
  unfold Node.childrenIn at h ⊢
  split
  · rfl
  · simp_all; omega

/-- All that a merge can do: nothing, or two candidates become the children of a new one. -/
theorem mergeStep_cases (ns : List Node) :
    mergeStep ns = ns ∨ ∃ a b, lowestLive ns = some a ∧ lowestLive (markMerged ns a) = some b ∧
      mergeStep ns = markMerged (markMerged ns a) b ++
        [{ kind := .internal a b, w := nodeWeight ns a + nodeWeight ns b, live := true }] := by
  unfold mergeStep
  cases ha : lowestLive ns with
  | none => exact .inl rfl
  | some a =>
    cases hb : lowestLive (markMerged ns a) with
    | none => exact .inl (by simp [hb])
    | some b => exact .inr ⟨a, b, rfl, hb, by simp [hb]⟩

theorem mergeStep_keeps_arena {n : Nat} {ns : List Node} (h : ArenaInv n ns) : ArenaInv n (mergeStep ns) := by
  rcases mergeStep_cases ns with he | ⟨a, b, ha, hb, he⟩ <;> rw [he]
  · exact h
  obtain ⟨x, hx, hxl⟩ := lowestLive_live ha
  obtain ⟨y, hy, hyl⟩ := lowestLive_live hb
  have hal := lowestLive_lt ha
  have hbl := lowestLive_lt hb
  obtain ⟨hc₁, hw₁⟩ := markMerged_live hx hxl
  obtain ⟨hc₂, hw₂⟩ := markMerged_live hy hyl
  rw [nodeWeight_markMerged] at hw₂
  rw [markMerged_length] at hbl
  obtain ⟨room, left, weight, nodes⟩ := h
  have count (l : List Node) (nd : Node) (hl : nd.live = true) : liveCount (l ++ [nd]) = liveCount l + 1 := by
    simp [liveCount, hl]
  have total (l : List Node) (nd : Node) (hl : nd.live = true) : liveWeight (l ++ [nd]) = liveWeight l + nd.w := by
    simp [liveWeight, hl]
  refine ⟨?_, .inr ?_, ?_, fun nd hnd => ?_⟩
  · rw [count _ _ rfl]; simp only [List.length_append, markMerged_length, List.length_singleton]; omega
  · rw [count _ _ rfl]; omega
  · rw [total _ _ rfl]; dsimp only; omega
  · rw [List.length_append, markMerged_length, markMerged_length]
    rcases List.mem_append.1 hnd with hnd | hnd
    · obtain ⟨nd', hnd', hw', hk'⟩ := mem_markMerged hnd
      obtain ⟨md, hmd, hw, hk⟩ := mem_markMerged hnd'
      obtain ⟨hle, hch⟩ := nodes md hmd
      refine ⟨by omega, Node.childrenIn_mono ?_ (Nat.le_add_right ..)⟩
      rwa [Node.childrenIn, hk', hk]
    · rw [List.mem_singleton.1 hnd]
      refine ⟨by dsimp only; omega, ?_⟩
      simp only [Node.childrenIn, List.length_singleton, decide_eq_true_eq]
      omega

theorem mergeLoop_keeps_arena {n : Nat} (k : Nat) {ns : List Node} (h : ArenaInv n ns) :
    ArenaInv n (mergeLoop k ns) := by
  induction k generalizing ns with
  | zero => exact h
  | succ k ih =>
    unfold mergeLoop
    split
    · exact ih (mergeStep_keeps_arena h)
    · exact h

/-! ### The leaves -/

/-- Every leaf is a candidate, with a count of the table as its weight. -/
theorem mem_leafNodes {f : Vector Nat 256} {nd : Node} (h : nd ∈ leafNodes f) :
    nd.live = true ∧ (∃ b, nd.kind = .leaf b) ∧ nd.w ≤ f.toList.sum := by
  simp only [leafNodes, symbolTable_eq_map, List.mem_map, List.mem_filter] at h
  obtain ⟨p, ⟨⟨b, -, rfl⟩, -⟩, rfl⟩ := h
  exact ⟨rfl, ⟨b, rfl⟩, counts_le_sum f b⟩

theorem leafNodes_length_le (f : Vector Nat 256) : (leafNodes f).length ≤ 256 := by
  rw [leafNodes, List.length_map]
  exact (List.length_filter_le _ _).trans (by simp [symbolTable])

/-- The leaves' weights are counts of the table, each once. -/
theorem leafNodes_weight_le (f : Vector Nat 256) : ((leafNodes f).map Node.w).sum ≤ f.toList.sum := by
  have hsnd : (symbolTable f).map Prod.snd = f.toList := by
    rw [symbolTable, List.map_snd_zip (by simp)]
  rw [leafNodes, List.map_map, ← hsnd]
  exact (List.filter_sublist.map Prod.snd).sum_le_sum fun _ _ => Nat.zero_le _

theorem leafNodes_arena {n : Nat} {f : Vector Nat 256} (h : f.toList.sum ≤ n) : ArenaInv n (leafNodes f) := by
  have hall : (leafNodes f).filter Node.live = leafNodes f :=
    List.filter_eq_self.2 fun nd hnd => (mem_leafNodes hnd).1
  have hcount : liveCount (leafNodes f) = (leafNodes f).length := by
    rw [liveCount, List.countP_eq_length_filter, hall]
  have hlen := leafNodes_length_le f
  refine ⟨by omega, ?_, ?_, fun nd hnd => ?_⟩
  · rw [hcount, ← List.length_eq_zero_iff]; omega
  · rw [liveWeight, hall]; exact (leafNodes_weight_le f).trans h
  · obtain ⟨-, ⟨b, hb⟩, hw⟩ := mem_leafNodes hnd
    exact ⟨hw.trans h, by rw [Node.childrenIn, hb]⟩

/-- TBUILD's arena, from an empty one and counts that add up to at most `n`. -/
theorem buildArena_arena {n : Nat} {f : Vector Nat 256} (h : f.toList.sum ≤ n) : ArenaInv n (buildArena [] f) :=
  mergeLoop_keeps_arena _ (leafNodes_arena h)

/-! ## Code lengths -/

/-- Every codeword has at most 255 bits (43_code_table_generator.md R195). -/
def CodesFit (code : Vector Bits 256) : Prop := ∀ b : Byte, (code.get b.toFin).length ≤ 255

theorem CodesFit.set {code : Vector Bits 256} (h : CodesFit code) (sym : Byte) {path : Bits}
    (hp : path.length ≤ 255) : CodesFit (code.set sym.toNat path sym.isLt) := by
  intro b
  have := h b
  simp only [Vector.get_eq_getElem, BitVec.val_toFin, Vector.getElem_set] at this ⊢
  split
  · exact hp
  · exact this

theorem codesFit_replicate_nil : CodesFit (Vector.replicate 256 []) := by
  intro b
  simp [Vector.get_eq_getElem]

/-- The walk's depth bound keeps every path, and so every codeword, within 255 bits. -/
theorem walkTree_codesFit {ns : List Node} {depth i : Nat} {path : Bits} {code d : Vector Bits 256}
    (hp : path.length + depth ≤ 256) (hc : CodesFit code) (h : walkTree ns depth i path code = .ok d) :
    CodesFit d := by
  induction depth generalizing i path code d with
  | zero => cases h
  | succ depth ih =>
    unfold walkTree at h
    split at h
    · cases h
    · split at h
      · cases h; exact hc.set _ (by omega)
      · next l r _ =>
        cases hl : walkTree ns depth l (path ++ [false]) code with
        | error x => simp [hl, bind, Except.bind] at h
        | ok c =>
          have hr : walkTree ns depth r (path ++ [true]) c = .ok d := by simpa [hl, bind, Except.bind] using h
          have hp' (bit : Bool) : (path ++ [bit]).length + depth ≤ 256 := by simp; omega
          exact ih (hp' true) (ih (hp' false) hc hl) hr

theorem generateCodes_codesFit {ns : List Node} {root : Nat} {code d : Vector Bits 256} (hc : CodesFit code)
    (h : generateCodes ns root code = .ok d) : CodesFit d := by
  unfold generateCodes at h
  split at h
  · cases h; exact hc.set _ (by simp)
  · exact walkTree_codesFit (by simp [maxNodesOnPath]) hc h

/-- The largest header: 2 bytes and 256 entries of 34 (00_scope.md R9). -/
theorem headerLength_le {code : Vector Bits 256} (h : CodesFit code) : headerLength code ≤ 8706 := by
  have hsum := List.sum_le_card_nsmul
    ((symbolTable code).map fun p => if 0 < p.2.length then entryLength p.2.length else 0) 34 fun x hx => by
      rw [symbolTable_eq_map] at hx
      obtain ⟨p, hp, rfl⟩ := List.mem_map.1 hx
      obtain ⟨b, -, rfl⟩ := List.mem_map.1 hp
      dsimp only
      split
      · next hpos => exact (entryLength_bounds hpos (h b)).2
      · omega
  rw [List.length_map, symbolTable_eq_map, List.length_map, alphabet_length, smul_eq_mul] at hsum
  rw [headerLength, symbolTable_eq_map]
  omega

end Sys2Proof.Machine

/-! ## The widths invariant, apart from STATE, ERR and PHASE -/

namespace Sys2Proof.Machine

/-- What `WidthsInv` says whatever STATE, ERR and PHASE are. -/
structure RegsInv (s : State) : Prop where
  cfg : s.cfg.wf
  inLen : s.inLen < 2 ^ s.cfg.lenBits
  n : s.n < 2 ^ s.cfg.lenBits
  outLen : s.outLen ≤ s.cfg.obufBytes
  ipos : s.ipos ≤ s.n
  opos : s.opos ≤ s.cfg.obufBytes
  payStart : s.payStart < 2 ^ s.cfg.lenBits
  freqSum : s.freq.toList.sum ≤ s.n
  nsym : s.nsym = (presentSymbols (counts s.freq)).length
  nnode : s.nnode ≤ 511
  nodes : ∀ nd ∈ s.nodes, nd.w ≤ s.n ∧ nd.childrenIn s.nnode = true
  root : s.root < 512
  code : CodesFit s.code
  totalBits : s.totalBits ≤ 255 * s.n
  hdrLen : s.hdrLen ≤ 8706
  tn : s.tn ≤ 256
  dtN : s.dtN ≤ 256
  entries : ∀ e ∈ s.dt, 1 ≤ e.len ∧ e.len ≤ s.lmax
  lmax : s.lmax ≤ 255
  accLen : s.accLen ≤ 256
  ocnt : s.ocnt ≤ s.cfg.obufBytes

/-- What `WidthsInv` asks of a state in which the phase `p` is to run. -/
def Ready : Phase → State → Prop
  | .none, _ => True
  | .fcount, s => EncoderCleared s
  | .tbuild, s => s.nodes = []
  | .cgen, _ => True
  | .bpack, s => s.hdrLen ≤ s.cfg.obufBytes
  | .tser, s => s.hdrLen + ceil8 s.totalBits ≤ s.cfg.obufBytes
  | .tdes, s => DecoderCleared s
  | .bwalk, s => s.payStart ≤ s.n

/-- HDR_LEN passes LEN_BITS bits only after a command that ended with CapacityExceeded (log 14). -/
def HdrFits (s : State) : Prop := 2 ^ s.cfg.lenBits ≤ s.hdrLen → s.stat ≠ .busy ∧ s.err = .capacityExceeded

theorem widthsInv_iff {s : State} : WidthsInv s ↔ RegsInv s ∧ HdrFits s ∧ Ready s.phase s := by
  constructor
  · rintro ⟨cfg, ⟨inLen, n, outLen, ipos, opos, payStart, bwalk⟩,
      ⟨freqSum, -, nsym, nnode, nodes, root, code, totalBits, hdrLen, fits, bpack, tser⟩,
      ⟨tn, dtN, entries, lmax, accLen, ocnt⟩, fcount, tbuild, tdes⟩
    refine ⟨⟨cfg, inLen, n, outLen, ipos, opos, payStart, freqSum, nsym, nnode, nodes, root, code, totalBits, hdrLen, tn,
      dtN, entries, lmax, accLen, ocnt⟩, fits, ?_⟩
    cases hp : s.phase with
    | none => trivial
    | fcount => exact fcount hp
    | tbuild => exact tbuild hp
    | cgen => trivial
    | bpack => exact bpack hp
    | tser => exact tser hp
    | tdes => exact tdes hp
    | bwalk => exact bwalk hp
  · rintro ⟨h, fits, ready⟩
    have at_phase {p : Phase} (hp : s.phase = p) : Ready p s := hp ▸ ready
    exact ⟨h.cfg, ⟨h.inLen, h.n, h.outLen, h.ipos, h.opos, h.payStart, at_phase⟩,
      ⟨h.freqSum, fun b => (counts_le_sum s.freq b).trans h.freqSum, h.nsym, h.nnode, h.nodes, h.root, h.code,
        h.totalBits, h.hdrLen, fits, at_phase, at_phase⟩,
      ⟨h.tn, h.dtN, h.entries, h.lmax, h.accLen, h.ocnt⟩, at_phase, at_phase, at_phase⟩

/-! ### A running command -/

/-- What holds inside a running command, between and in its micro-operations. -/
structure Running (s : State) : Prop extends RegsInv s where
  busy : s.stat = .busy
  hdrFits : s.hdrLen < 2 ^ s.cfg.lenBits

/-- A command is running and its phase `p` can run. -/
def Runs (p : Phase) (s : State) : Prop := Running s ∧ Ready p s

theorem WidthsInv.running {s : State} (h : WidthsInv s) (hb : s.stat = .busy) : Runs s.phase s := by
  obtain ⟨regs, fits, ready⟩ := widthsInv_iff.1 h
  exact ⟨{ regs with busy := hb, hdrFits := Nat.lt_of_not_le fun hle => (fits hle).1 hb }, ready⟩

theorem Runs.enterPhase {p : Phase} {s : State} (h : Runs p s) : Runs p (s.enterPhase p) :=
  ⟨{ h.1 with }, by cases p <;> exact h.2⟩

theorem Running.widths {s : State} (h : Running s) (hr : Ready s.phase s) : WidthsInv s :=
  widthsInv_iff.2 ⟨h.toRegsInv, fun hle => absurd h.hdrFits (Nat.not_lt.2 hle), hr⟩

/-- `PHASE <- p`, when that phase can run. -/
theorem Runs.widths_enterPhase {p : Phase} {s : State} (h : Runs p s) : WidthsInv (s.enterPhase p) :=
  h.enterPhase.1.widths h.enterPhase.2

/-- The end of a command, with a result that fits in OBUF. -/
theorem Running.widths_endCommand {s : State} (h : Running s) {len : Nat} (hlen : len ≤ s.cfg.obufBytes) :
    WidthsInv (s.endCommand len) :=
  widthsInv_iff.2 ⟨{ h with outLen := hlen }, fun hle => absurd h.hdrFits (Nat.not_lt.2 hle), trivial⟩

/-- An error taken while the command ran. -/
theorem Running.widths_raiseErr {s : State} (h : Running s) (e : Err) : WidthsInv (s.raiseErr e) :=
  widthsInv_iff.2 ⟨{ h with outLen := Nat.zero_le _ }, fun hle => absurd h.hdrFits (Nat.not_lt.2 hle), trivial⟩

/-- Command start. -/
theorem RegsInv.startCommand {s : State} (h : RegsInv s) : Running s.startCommand :=
  { h with
    n := h.inLen
    outLen := Nat.zero_le _
    ipos := Nat.zero_le _
    opos := Nat.zero_le _
    freqSum := sum_replicate_zero.le.trans (Nat.zero_le _)
    nsym := nsym_of_cleared (s := s.startCommand) rfl rfl
    nnode := Nat.zero_le _
    nodes := by simp
    code := codesFit_replicate_nil
    totalBits := Nat.zero_le _
    hdrLen := Nat.zero_le _
    dtN := Nat.zero_le _
    entries := by simp
    lmax := Nat.zero_le _
    accLen := Nat.zero_le _
    ocnt := Nat.zero_le _
    busy := rfl
    hdrFits := Nat.two_pow_pos _ }

/-! ### A condition on the state a micro-operation ends in -/

/-- A micro-operation that ends normally ends in a state with `P`, and one that raises an error ends the command within
the widths. -/
def Keeps (P : State → Prop) : Except Stop State → Prop
  | .ok t => P t
  | .error (.raised e u) => WidthsInv (u.raiseErr e)
  | .error (.fault _) => True

/-- One micro-operation after another. -/
theorem Keeps.bind {P Q : State → Prop} {r : Except Stop State} {f : State → Except Stop State} (h : Keeps P r)
    (hf : ∀ t, P t → Keeps Q (f t)) : Keeps Q (r >>= f) := by
  cases r with
  | ok t => exact hf t h
  | error x => cases x <;> exact h

/-- An IBUF read, and then what is done with the byte. -/
theorem Keeps.bindRead {Q : State → Prop} {s : State} {i : Nat} {f : Byte → Except Stop State}
    (hf : ∀ b, Keeps Q (f b)) : Keeps Q (ibufRead s i >>= f) := by
  cases h : ibufRead s i with
  | ok b => exact hf b
  | error x =>
    obtain ⟨g, rfl⟩ := ibufRead_error h
    exact trivial

/-- An OBUF write, and then what is done in the state it leaves. -/
theorem Keeps.bindWrite {Q : State → Prop} {s : State} {i : Nat} {b : Byte} {f : State → Except Stop State}
    (hf : i < s.cfg.obufBytes → ∀ m : Memory, Keeps Q (f { s with obuf := m })) : Keeps Q (obufWrite s i b >>= f) := by
  rcases obufWrite_cases s i b with ⟨hi, h⟩ | ⟨_, h⟩ <;> rw [h]
  · exact hf hi _
  · exact trivial

/-! ### The encoder's micro-operations -/

theorem fcount_keeps {s : State} (h : Runs .fcount s) : Keeps (Runs .tbuild) (fcount s) := by
  obtain ⟨run, freq, nsym, nodes, -⟩ := h
  rw [fcount]
  rcases fcountLoop_cases s.n { s with ipos := 0 } with ⟨X, hX, hloop⟩ | ⟨f, hloop⟩ <;> rw [hloop]
  · obtain ⟨f, hf, hsum, hu⟩ := foldl_countNext_of_cleared X (s := { s with ipos := 0 }) freq nsym
    rw [hu]
    refine ⟨{ run with ipos := ?_, freqSum := ?_, nsym := ?_ }, nodes⟩
    · exact (Nat.zero_add X.length ▸ hX).le
    · exact (hsum.trans hX).le
    · exact congrArg (fun g => (presentSymbols g).length) (funext hf).symm
  · exact trivial

theorem setRoot_running {s : State} (h : Running s) : Running (setRoot s) := by
  unfold setRoot
  split
  · next i hi => exact { h with root := (lowestLive_lt hi).trans_le (h.nnode.trans (by decide)) }
  · exact { h with root := State.drawFree_lt s 512 (by decide) }

theorem tbuild_keeps {s : State} (h : Runs .tbuild s) : Keeps (Runs .cgen) (tbuild s) := by
  obtain ⟨run, hnodes⟩ := h
  have arena : ArenaInv s.n (buildArena s.nodes s.freq) := hnodes ▸ buildArena_arena run.freqSum
  exact ⟨setRoot_running { run with nnode := arena.length_le, nodes := arena.nodes }, trivial⟩

theorem cgen_keeps {s : State} (h : Runs .cgen s) : Keeps (Runs .cgen) (cgen s) := by
  rw [cgen]
  rcases generateCodes_cases s.nodes s.root s.code with ⟨d, hd⟩ | ⟨f, hf⟩
  · rw [hd]
    exact ⟨{ h.1 with code := generateCodes_codesFit h.1.code hd }, trivial⟩
  · rw [hf]
    exact trivial

/-- Between CGEN and BPACK: past the capacity, HDR_LEN may be wider than LEN_BITS, and the command ends. -/
theorem measureOutput_keeps {s : State} (h : Runs .cgen s) : Keeps (Runs .bpack) (measureOutput s) := by
  have run := h.1
  have hdr := headerLength_le run.code
  unfold measureOutput
  dsimp only
  split
  · exact widthsInv_iff.2 ⟨{ run with hdrLen := hdr, outLen := Nat.zero_le _ }, fun _ => ⟨by simp, rfl⟩, trivial⟩
  · next hcap =>
    have hle : headerLength s.code ≤ s.cfg.obufBytes := by omega
    exact ⟨{ run with hdrLen := hdr, hdrFits := hle.trans_lt run.cfg.2 }, hle⟩

/-- Inside BPACK, with `k` input bytes to come and room for `r` more bits: OPOS and PK_N follow TOTALBITS. -/
structure Packing (k r : Nat) (s : State) : Prop extends Running s where
  bytes : s.ipos + k ≤ s.n
  bits : s.totalBits + r ≤ 255 * s.n
  written : s.opos = s.hdrLen + s.totalBits / 8
  pending : s.pkN.val = s.totalBits % 8

theorem packBit_keeps {k r : Nat} (bit : Bool) {s : State} (h : Packing k (r + 1) s) :
    Keeps (Packing k r) (packBit bit s) := by
  obtain ⟨run, bytes, bits, written, pending⟩ := h
  unfold packBit
  dsimp only
  split
  · next hfull =>
    refine Keeps.bindWrite fun hroom m => ?_
    have hroom : s.opos < s.cfg.obufBytes := hroom
    have hpend : s.totalBits % 8 = 7 := by rw [← pending, hfull]; rfl
    exact { run with
      opos := hroom
      totalBits := by dsimp only; omega
      bytes := bytes
      bits := by dsimp only; omega
      written := by dsimp only; omega
      pending := by dsimp only; omega }
  · next hnotFull =>
    have hlt : s.pkN.val < 7 := by
      have := s.pkN.isLt
      have : s.pkN.val ≠ 7 := fun h => hnotFull (Fin.ext h)
      omega
    have hnext : (s.pkN + 1).val = s.pkN.val + 1 := by rw [Fin.val_add]; simp; omega
    exact { run with
      totalBits := by dsimp only; omega
      bytes := bytes
      bits := by dsimp only; omega
      written := by dsimp only; omega
      pending := by dsimp only; omega }

theorem packBits_keeps {k r : Nat} (bits : Bits) {s : State} (h : Packing k (bits.length + r) s) :
    Keeps (Packing k r) (packBits bits s) := by
  induction bits generalizing s with
  | nil => rwa [List.length_nil, Nat.zero_add] at h
  | cons bit bits ih =>
    rw [List.length_cons, Nat.add_right_comm] at h
    exact Keeps.bind (packBit_keeps bit h) fun t ht => ih ht

theorem bpackLoop_keeps (k : Nat) {s : State} (h : Packing k (255 * k) s) :
    Keeps (Packing 0 0) (bpackLoop k s) := by
  induction k generalizing s with
  | zero => exact h
  | succ k ih =>
    refine Keeps.bindRead fun b => ?_
    have hlen : (s.code.get b.toFin).length ≤ 255 := h.code b
    have hbits := h.bits
    have hstart : Packing (k + 1) ((s.code.get b.toFin).length + 255 * k) s := { h with bits := by omega }
    refine Keeps.bind (packBits_keeps _ hstart) fun t ht => ih ?_
    have := ht.bytes
    exact { ht with ipos := by dsimp only; omega, bytes := by dsimp only; omega }

/-- After the partial byte the payload's bytes are all written, so they fit in OBUF. -/
theorem flushPartial_keeps {s : State} (h : Packing 0 0 s) : Keeps (Runs .tser) (flushPartial s) := by
  obtain ⟨run, -, -, written, pending⟩ := h
  have hopos := run.opos
  unfold flushPartial
  split
  · refine Keeps.bindWrite fun hroom m => ⟨{ run with opos := hroom }, ?_⟩
    simp only [Ready, ceil8]
    omega
  · refine ⟨run, ?_⟩
    simp only [Ready, ceil8]
    omega

theorem bpack_keeps {s : State} (h : Runs .bpack s) : Keeps (Runs .tser) (bpack s) := by
  obtain ⟨run, hfits⟩ := h
  have hstart : Packing s.n (255 * s.n)
      { s with opos := s.hdrLen, pkAcc := 0, pkN := 0, totalBits := 0, ipos := 0 } :=
    { run with
      ipos := Nat.zero_le _
      opos := hfits
      totalBits := Nat.zero_le _
      bytes := (Nat.zero_add _).le
      bits := (Nat.zero_add _).le
      written := by dsimp only; omega
      pending := rfl }
  exact Keeps.bind (bpackLoop_keeps _ hstart) fun t ht =>
    Keeps.bind (flushPartial_keeps ht) fun u hu => ⟨{ hu.1 with }, hu.2⟩

theorem obufPut_keeps (bs : List Byte) {s : State} (h : Runs .tser s) : Keeps (Runs .tser) (obufPut bs s) := by
  induction bs generalizing s with
  | nil => exact h
  | cons b bs ih => exact Keeps.bindWrite fun hroom m => ih ⟨{ h.1 with opos := hroom }, h.2⟩

theorem putEntries_keeps (entries : List (Byte × Bits)) {s : State} (h : Runs .tser s) :
    Keeps (Runs .tser) (putEntries entries s) := by
  induction entries generalizing s with
  | nil => exact h
  | cons p rest ih =>
    unfold putEntries
    split
    · exact Keeps.bind (obufPut_keeps _ h) fun t ht => ih ht
    · exact ih h

theorem tser_keeps {s : State} (h : Runs .tser s) : Keeps (Runs .tser) (tser s) :=
  Keeps.bindWrite fun _ _ => Keeps.bindWrite fun hroom _ =>
    putEntries_keeps _ ⟨{ h.1 with opos := hroom }, h.2⟩

/-! ### The decoder's micro-operations -/

theorem entryCount_le (t : Byte) : entryCount t ≤ 256 := by
  have := t.isLt
  unfold entryCount
  split <;> omega

/-- The header has been read: there are at least its 2 bytes, and no table entry yet. -/
structure HeaderRead (s : State) : Prop extends Running s where
  header : 2 ≤ s.n
  noEntries : s.dt = []

theorem readHeader_keeps {s : State} (h : Runs .tdes s) : Keeps HeaderRead (readHeader s) := by
  obtain ⟨run, hdt, -⟩ := h
  unfold readHeader
  split
  · exact run.widths_raiseErr _
  · next hn =>
    have hn : 2 ≤ s.n := Nat.le_of_not_lt hn
    refine Keeps.bindRead fun t => Keeps.bindRead fun p => ?_
    dsimp only
    split
    · exact { run with tn := Nat.zero_le _, header := hn, noEntries := hdt }
    · split
      · exact Running.widths_raiseErr (s := { s with tb := t, pb := p }) { run with } _
      · exact { run with tn := entryCount_le t, header := hn, noEntries := hdt }

/-- Inside TDES's loop, with `k` entries to come. -/
structure Reading (k : Nat) (s : State) : Prop extends Running s where
  room : s.dtN + k ≤ 256

theorem readEntry_keeps {k : Nat} {s : State} (h : Reading (k + 1) s) : Keeps (Reading k) (readEntry s) := by
  obtain ⟨run, room⟩ := h
  unfold readEntry
  split
  · exact run.widths_raiseErr _
  · refine Keeps.bindRead fun sym => Keeps.bindRead fun len => ?_
    split
    · exact run.widths_raiseErr _
    · next hlen0 =>
      split
      · exact run.widths_raiseErr _
      · next hn =>
        rcases ibufReadRange_cases s (s.ipos + 2) (ceil8 len.toNat) with ⟨bs, hbs, hlen⟩ | ⟨f, hf⟩
        · rw [hbs]
          have hcode : (codeword bs len.toNat).length = len.toNat := unpack_length bs (hlen ▸ le_ceil8 _)
          have hpos : 1 ≤ len.toNat := Nat.one_le_iff_ne_zero.2 fun h => hlen0 (BitVec.eq_of_toNat_eq h)
          have hlt := len.isLt
          have hroom : (s.dt ++ [(⟨codeword bs len.toNat, sym⟩ : DtEntry)]).length + k ≤ 256 := by
            rw [List.length_append, List.length_singleton, Nat.add_assoc, Nat.add_comm 1]; exact room
          refine { run with ipos := Nat.le_of_not_lt hn, dtN := ?_, entries := fun e he => ?_, lmax := ?_, room := hroom }
          · exact (Nat.le_add_right _ _).trans hroom
          · rcases List.mem_append.1 he with he | he
            · exact (run.entries e he).imp_right fun hle => hle.trans (Nat.le_max_left _ _)
            · rw [List.mem_singleton.1 he, DtEntry.len, hcode]
              exact ⟨hpos, Nat.le_max_right _ _⟩
          · exact max_le run.lmax (by omega)
        · rw [hf]
          exact trivial

theorem readEntries_keeps (k : Nat) {s : State} (h : Reading k s) : Keeps (Reading 0) (readEntries k s) := by
  induction k generalizing s with
  | zero => exact h
  | succ k ih => exact Keeps.bind (readEntry_keeps h) fun t ht => ih ht

theorem tdes_keeps {s : State} (h : Runs .tdes s) : Keeps (Runs .bwalk) (tdes s) := by
  refine Keeps.bind (readHeader_keeps h) fun t ht => ?_
  have hroom : t.dtN + t.tn ≤ 256 := by rw [State.dtN, ht.noEntries, List.length_nil, Nat.zero_add]; exact ht.tn
  have hstart : Reading t.tn { t with ipos := 2 } := { ht with ipos := ht.header, room := hroom }
  exact Keeps.bind (readEntries_keeps _ hstart) fun u hu => ⟨{ hu with payStart := hu.ipos.trans_lt hu.n }, hu.ipos⟩

/-- A codeword that is found is an entry's. -/
theorem lookup_mem {dt : List DtEntry} {a : Bits} {sym : Byte} (h : lookup dt a = some sym) :
    ∃ e ∈ dt, e.bits = a := by
  obtain ⟨e, he, -⟩ := Option.map_eq_some_iff.1 h
  exact ⟨e, List.mem_reverse.1 (List.mem_of_find?_eq_some he), by simpa using List.find?_some he⟩

/-- Inside BWALK's loop, with `k` payload bytes to come: the accumulator is no longer than the longest codeword. -/
structure Walking (k : Nat) (s : State) : Prop extends Running s where
  bytes : s.ipos + k ≤ s.n
  acc : s.accLen ≤ s.lmax

theorem emitSymbol_keeps {k : Nat} (sym : Byte) {s : State} (h : Walking k s) :
    Keeps (Walking k) (emitSymbol sym s) := by
  unfold emitSymbol
  split
  · exact h.toRunning.widths_raiseErr _
  · exact Keeps.bindWrite fun hroom m =>
      { h with opos := hroom, accLen := Nat.zero_le _, ocnt := hroom, acc := Nat.zero_le _ }

theorem scanBit_keeps {k : Nat} (bit : Bool) {s : State} (h : Walking k s) : Keeps (Walking k) (scanBit bit s) := by
  have hacc := h.acc
  have hlmax := h.lmax
  have hlen : (s.acc ++ [bit]).length = s.accLen + 1 := by simp
  have run : Running { s with acc := s.acc ++ [bit] } := { h with accLen := by rw [State.accLen, hlen]; omega }
  have walking (hle : (s.acc ++ [bit]).length ≤ s.lmax) : Walking k { s with acc := s.acc ++ [bit] } :=
    { run with bytes := h.bytes, acc := hle }
  unfold scanBit
  dsimp only
  split
  · next sym hsym =>
    obtain ⟨e, he, hbits⟩ := lookup_mem hsym
    exact emitSymbol_keeps sym (walking (hbits ▸ (h.entries e he).2))
  · split
    · exact run.widths_raiseErr _
    · next hle => exact walking (Nat.le_of_not_lt hle)

theorem scanBits_keeps {k : Nat} (bits : Bits) {s : State} (h : Walking k s) :
    Keeps (Walking k) (scanBits bits s) := by
  induction bits generalizing s with
  | nil => exact h
  | cons bit bits ih => exact Keeps.bind (scanBit_keeps bit h) fun t ht => ih ht

theorem walkBytes_keeps (k : Nat) {s : State} (h : Walking k s) : Keeps (Walking 0) (walkBytes k s) := by
  induction k generalizing s with
  | zero => exact h
  | succ k ih =>
    refine Keeps.bindRead fun b => Keeps.bind (scanBits_keeps _ h) fun t ht => ih ?_
    have := ht.bytes
    exact { ht with ipos := by dsimp only; omega, bytes := by dsimp only; omega }

theorem bwalk_keeps {s : State} (h : Runs .bwalk s) : Keeps (Runs .none) (bwalk s) := by
  obtain ⟨run, hpay⟩ := h
  have hstart : Walking (s.n - s.payStart) { s with acc := [], ocnt := 0, ipos := s.payStart, opos := 0 } :=
    { run with
      ipos := hpay
      opos := Nat.zero_le _
      accLen := Nat.zero_le _
      ocnt := Nat.zero_le _
      bytes := (Nat.add_sub_cancel' hpay).le
      acc := Nat.zero_le _ }
  refine Keeps.bind (walkBytes_keeps _ hstart) fun t ht => ?_
  split
  · exact ht.toRunning.widths_raiseErr _
  · exact ⟨ht.toRunning, trivial⟩

/-! ### The commands -/

theorem beginCommand_keeps {p : Phase} {s : State} (h : WidthsInv s) (hp : Ready p s.startCommand) :
    Keeps (Runs p) (beginCommand p s) := by
  have run := (widthsInv_iff.1 h).1.startCommand
  rcases beginCommand_cases p s with ⟨-, hb⟩ | ⟨-, hb⟩ <;> rw [hb]
  · exact run.widths_raiseErr _
  · exact Runs.enterPhase ⟨run, hp⟩

/-- A command start clears the encoder's registers (10_state.md R45). -/
theorem ready_fcount_startCommand (s : State) : Ready .fcount s.startCommand :=
  ⟨rfl, rfl, rfl, rfl, rfl, rfl, rfl, rfl, rfl⟩

/-- A command start clears the decoder's registers (10_state.md R45). -/
theorem ready_tdes_startCommand (s : State) : Ready .tdes s.startCommand := ⟨rfl, rfl, rfl, rfl⟩

theorem endEmpty_keeps {s : State} (h : Running s) : Keeps WidthsInv (endEmpty s) := by
  unfold endEmpty
  split
  · exact h.widths_raiseErr _
  · next hcap =>
    refine Keeps.bindWrite fun _ m => Keeps.bindWrite fun _ m' => ?_
    have run : Running { s with obuf := m' } := { h with }
    exact run.widths_endCommand (Nat.le_of_not_lt hcap)

theorem endEncode_widths {s : State} (h : Runs .tser s) : WidthsInv (endEncode s) := h.1.widths_endCommand h.2

theorem endDecode_widths {s : State} (h : Running s) : WidthsInv (endDecode s) := h.widths_endCommand h.ocnt

theorem encodeWhole_keeps {s : State} (h : WidthsInv s) : Keeps WidthsInv (encodeWhole s) := by
  refine Keeps.bind (beginCommand_keeps h (ready_fcount_startCommand s)) fun a ha => ?_
  refine Keeps.bind (fcount_keeps ha) fun b hb => ?_
  split
  · exact endEmpty_keeps hb.1
  · refine Keeps.bind (tbuild_keeps hb.enterPhase) fun c hc => ?_
    refine Keeps.bind (cgen_keeps hc.enterPhase) fun d hd => ?_
    refine Keeps.bind (measureOutput_keeps hd) fun e he => ?_
    refine Keeps.bind (bpack_keeps he.enterPhase) fun f hf => ?_
    exact Keeps.bind (tser_keeps hf.enterPhase) fun g hg => endEncode_widths hg

theorem decodeWhole_keeps {s : State} (h : WidthsInv s) : Keeps WidthsInv (decodeWhole s) := by
  refine Keeps.bind (beginCommand_keeps h (ready_tdes_startCommand s)) fun a ha => ?_
  refine Keeps.bind (tdes_keeps ha) fun b hb => ?_
  exact Keeps.bind (bwalk_keeps hb.enterPhase) fun c hc => endDecode_widths hc.1

/-! ### Outcomes and the sequence -/

/-- An outcome that is a next state is one within the widths. -/
def NextWithin (o : Host.Outcome State Fault Refusal) : Prop := ∀ t, o = .next t → WidthsInv t

theorem nextWithin_next {s : State} (h : WidthsInv s) : NextWithin (.next s) := fun _ ht => by cases ht; exact h

theorem nextWithin_refused (r : Refusal) : NextWithin (.refused r) := fun _ ht => by cases ht

theorem nextWithin_fault (f : Fault) : NextWithin (.fault f) := fun _ ht => by cases ht

theorem Keeps.nextWithin {r : Except Stop State} (h : Keeps WidthsInv r) : NextWithin (finish r) := by
  intro t ht
  rcases finish_next ht with rfl | ⟨e, u, rfl, rfl⟩ <;> exact h

/-- A command start, with the phase entered still to run. -/
theorem beginCommand_within {p : Phase} {s : State} (h : WidthsInv s) (hp : Ready p s.startCommand) :
    NextWithin (finish (beginCommand p s)) := by
  intro t ht
  have hk := beginCommand_keeps h hp
  rcases beginCommand_cases p s with ⟨-, hb⟩ | ⟨-, hb⟩ <;> rw [hb] at hk ht <;> cases ht
  · exact hk
  · exact hk.1.widths hk.2

/-- A micro-operation and what its sequence does next. -/
theorem Keeps.nextWithin_sequenceAfter {p q : Phase} {r : Except Stop State} (h : Keeps (Runs q) r)
    (hadv : ∀ t, Runs q t → Keeps WidthsInv (advance p t)) : NextWithin (sequenceAfter p (finish r)) := by
  intro t ht
  obtain ⟨u, hu, hend⟩ := sequenceAfter_cases ht
  rcases finish_next hu with rfl | ⟨e, v, rfl, rfl⟩
  · rcases hend with ⟨hb, -⟩ | ⟨-, hfin⟩
    · exact absurd h.1.busy hb
    · exact (hadv u h).nextWithin t hfin
  · rcases hend with ⟨-, rfl⟩ | ⟨hb, -⟩
    · exact h
    · cases hb

theorem execEncode_within {s : State} (h : WidthsInv s) : NextWithin (exec .encode s) := by
  show NextWithin (execEncode s)
  by_cases hb : s.stat = .busy
  · rw [execEncode_busy hb]; exact nextWithin_refused _
  · cases hg : s.cfg.grain with
    | command => rw [execEncode_command hb hg]; exact (encodeWhole_keeps h).nextWithin
    | microOp => rw [execEncode_microOp hb hg]; exact beginCommand_within h (ready_fcount_startCommand s)

theorem execDecode_within {s : State} (h : WidthsInv s) : NextWithin (exec .decode s) := by
  show NextWithin (execDecode s)
  by_cases hb : s.stat = .busy
  · rw [execDecode_busy hb]; exact nextWithin_refused _
  · cases hg : s.cfg.grain with
    | command => rw [execDecode_command hb hg]; exact (decodeWhole_keeps h).nextWithin
    | microOp => rw [execDecode_microOp hb hg]; exact beginCommand_within h (ready_tdes_startCommand s)

/-- A micro-operation that PHASE names, and what its sequence does next. -/
theorem phase_within {i : Instr} {s : State} (h : WidthsInv s) (hb : s.stat = .busy)
    (hi : decodePhase (BitVec.ofNat 4 s.phase.number) = .ok i) : NextWithin (sequenceAfter s.phase (exec i s)) := by
  have run := h.running hb
  cases hp : s.phase <;> rw [hp] at hi run <;> cases hi
  case fcount =>
    refine (fcount_keeps run).nextWithin_sequenceAfter fun t ht => ?_
    rw [advance]
    split
    · exact endEmpty_keeps ht.1
    · exact ht.widths_enterPhase
  case tbuild => exact (tbuild_keeps run).nextWithin_sequenceAfter fun t ht => ht.widths_enterPhase
  case cgen =>
    exact (cgen_keeps run).nextWithin_sequenceAfter fun t ht =>
      Keeps.bind (measureOutput_keeps ht) fun u hu => hu.widths_enterPhase
  case bpack => exact (bpack_keeps run).nextWithin_sequenceAfter fun t ht => ht.widths_enterPhase
  case tser => exact (tser_keeps run).nextWithin_sequenceAfter fun t ht => endEncode_widths ht
  case tdes => exact (tdes_keeps run).nextWithin_sequenceAfter fun t ht => ht.widths_enterPhase
  case bwalk => exact (bwalk_keeps run).nextWithin_sequenceAfter fun t ht => endDecode_widths ht.1

/-! ### The host's accesses -/

/-- A reserved CMD word clears the working state and ends with an error. -/
theorem illegalCommand_within {s : State} (h : WidthsInv s) : NextWithin (illegalCommand s) :=
  nextWithin_next ((widthsInv_iff.1 h).1.startCommand.widths_raiseErr _)

theorem writeInLen_widths {v : Nat} {s : State} (h : WidthsInv s) : WidthsInv (writeInLen v s) := by
  have hlt := writeInLen_lt v s
  obtain ⟨cfg, ⟨-, lengths⟩, rest⟩ := h
  by_cases hv : v < 2 ^ s.cfg.lenBits
  · rw [writeInLen_of_lt hv]
    exact ⟨cfg, ⟨hv, lengths⟩, rest⟩
  · obtain ⟨k, hk, hs⟩ := writeInLen_of_le (Nat.le_of_not_lt hv)
    rw [hs]
    exact ⟨cfg, ⟨hk, lengths⟩, rest⟩

theorem readCount_widths {k : Nat} {s : State} (h : WidthsInv s) : WidthsInv (readCount k s) := by
  rw [readCount_frame]
  exact h

theorem whenNotBusy_within {s : State} {o : Host.Outcome State Fault Refusal} (h : NextWithin o) :
    NextWithin (whenNotBusy s o) := by
  by_cases hb : s.stat = .busy
  · rw [whenNotBusy_busy o hb]; exact nextWithin_refused _
  · rwa [whenNotBusy_of_ne o hb]

theorem readRegister_within {offset width : Nat} {s : State} (h : WidthsInv s) :
    NextWithin (readRegister offset width s) := by
  unfold readRegister
  split_ifs
  · exact nextWithin_refused _
  · exact nextWithin_refused _
  · exact whenNotBusy_within (nextWithin_next h)
  · exact nextWithin_next h
  · exact nextWithin_next (readCount_widths h)
  · exact whenNotBusy_within (nextWithin_next (readCount_widths h))

/-- RESET: every register is zero or empty and the parameters stay. -/
theorem applyReset_widths {s : State} (h : WidthsInv s) : WidthsInv s.applyReset := by
  have cleared := (widthsInv_iff.1 h).1.startCommand
  have pos := Nat.two_pow_pos s.cfg.lenBits
  exact widthsInv_iff.2 ⟨{ cleared with
    inLen := pos
    n := pos
    payStart := pos
    ipos := Nat.zero_le _
    freqSum := sum_replicate_zero.le
    nodes := fun _ hnd => (List.not_mem_nil hnd).elim
    root := Nat.zero_lt_succ _
    totalBits := Nat.zero_le _
    tn := Nat.zero_le _ }, fun hle => absurd pos (Nat.not_lt.2 hle), trivial⟩

/-- A buffer access or COPYBACK that ends in a state ends in one within the widths. -/
theorem accessOutcome_within {r : Except Fault State} (h : ∀ t, r = .ok t → WidthsInv t) :
    NextWithin (accessOutcome r) := by
  cases r with
  | ok t => exact nextWithin_next (h t rfl)
  | error f => exact nextWithin_fault f

theorem hostIbufWrite_widths {s t : State} {i : Nat} {b : Byte} (h : WidthsInv s)
    (ht : hostIbufWrite s i b = .ok t) : WidthsInv t := by
  unfold hostIbufWrite at ht
  split at ht <;> cases ht
  exact h

theorem hostIbufRead_widths {s t : State} {i : Nat} (h : WidthsInv s) (ht : hostIbufRead s i = .ok t) :
    WidthsInv t := by
  unfold hostIbufRead at ht
  cases hb : ibufByte s i <;> rw [hb] at ht <;> cases ht
  exact h

theorem hostObufRead_widths {s t : State} {i : Nat} (h : WidthsInv s) (ht : hostObufRead s i = .ok t) :
    WidthsInv t := by
  unfold hostObufRead at ht
  cases hb : hostObufByte s i <;> rw [hb] at ht <;> cases ht
  exact h

theorem copyBytes_widths {k i : Nat} {s t : State} (h : WidthsInv s) (ht : copyBytes i k s = .ok t) :
    WidthsInv t := by
  induction k generalizing i s with
  | zero => cases ht; exact h
  | succ k ih =>
    unfold copyBytes at ht
    cases hb : hostObufByte s i with
    | error f => rw [hb] at ht; cases ht
    | ok b =>
      cases hw : hostIbufWrite s i b with
      | error f => rw [hb] at ht; simp [hw, bind, Except.bind] at ht
      | ok u => exact ih (hostIbufWrite_widths h hw) (by simpa [hb, hw, bind, Except.bind] using ht)

theorem copyback_widths {s t : State} (h : WidthsInv s) (ht : copyback s = .ok t) : WidthsInv t := by
  unfold copyback at ht
  cases hc : copyBytes 0 s.outLen s with
  | error f => rw [hc] at ht; cases ht
  | ok u =>
    rw [hc] at ht
    cases ht
    exact writeInLen_widths (copyBytes_widths h hc)

/-! ### The next move -/

/-- The step that a move makes stays within the widths. -/
def MoveWithin : Move → Prop
  | .access o => NextWithin o
  | .command i t => NextWithin (exec i t)
  | .phase i t => NextWithin (sequenceAfter t.phase (exec i t))

theorem coreMove_within {s : State} (h : WidthsInv s) : MoveWithin (coreMove s) := by
  rcases coreMove_cases s with ⟨-, hm⟩ | ⟨-, -, hm⟩ | ⟨hb, i, hi, hm⟩ <;> rw [hm]
  · exact nextWithin_next h
  · exact nextWithin_refused _
  · exact phase_within h hb hi

theorem writeCmd_within {v : Word} {s : State} (h : WidthsInv s) : MoveWithin (writeCmd v s) := by
  unfold writeCmd
  split
  · exact nextWithin_refused _
  · split
    · next i hi =>
      unfold decodeCmd at hi
      split_ifs at hi <;> cases hi
      · exact execEncode_within h
      · exact execDecode_within h
    · exact illegalCommand_within h

theorem writeRegister_within {offset width : Nat} {v : BitVec width} {s : State} (h : WidthsInv s) :
    MoveWithin (writeRegister offset width v s) := by
  unfold writeRegister
  split_ifs
  · exact nextWithin_refused _
  · exact nextWithin_refused _
  · exact writeCmd_within h
  · exact nextWithin_next h
  · exact whenNotBusy_within (nextWithin_next (writeInLen_widths h))
  · exact whenNotBusy_within (nextWithin_next h)

theorem hostMove_within (m : HostMove) {s : State} (h : WidthsInv s) : MoveWithin (hostMove m s) := by
  cases m with
  | idle => exact coreMove_within h
  | writeReg offset width v => exact writeRegister_within h
  | readReg offset width => exact readRegister_within h
  | writeIbuf i b => exact whenNotBusy_within (accessOutcome_within fun t => hostIbufWrite_widths h)
  | readIbuf i => exact whenNotBusy_within (accessOutcome_within fun t => hostIbufRead_widths h)
  | writeObuf i b => exact nextWithin_refused _
  | readObuf i => exact whenNotBusy_within (accessOutcome_within fun t => hostObufRead_widths h)
  | wait =>
    rw [hostMove]
    split
    · exact nextWithin_next h
    · exact coreMove_within (s := { s with host := .wait :: s.host, reply := .word (statusWord s) }) h
  | copyback => exact whenNotBusy_within (accessOutcome_within fun t => copyback_widths h)
  | reset => exact nextWithin_next (applyReset_widths h)

theorem nextMove_within {s : State} (h : WidthsInv s) : MoveWithin (nextMove s) := by
  unfold nextMove
  split
  · exact coreMove_within h
  · next m rest _ => exact hostMove_within m (s := { s with host := rest }) h

/-- Settles O59: a host access, a command, and a micro-operation with what follows it each stay within the widths. -/
theorem stepKeepsTheWidths : Obligations.StepKeepsTheWidths := by
  intro s t h ht
  have hm := nextMove_within h
  rcases step_cases ht with hn | ⟨i, u, hn, he⟩ | ⟨i, u, hn, he⟩ <;> rw [hn] at hm
  · exact hm t rfl
  · exact hm t he
  · exact hm t he

end Sys2Proof.Machine

/-! ## A candidate is always left -/

namespace Sys2Proof.Machine

/-- There is no lowest candidate only where there is no candidate. -/
theorem lowestFrom_eq_none {base : Nat} {ns : List Node} (h : lowestFrom base ns = none) :
    ∀ nd ∈ ns, nd.live = false := by
  induction ns generalizing base with
  | nil => simp
  | cons nd rest ih =>
    unfold lowestFrom at h
    split at h
    · next hrest =>
      have hnd : nd.live = false := by simpa using h
      exact List.forall_mem_cons.2 ⟨hnd, ih hrest⟩
    · split at h <;> cases h

/-- Where a candidate is left, one is the lowest. -/
theorem lowestLive_of_live {ns : List Node} {nd : Node} (hnd : nd ∈ ns) (hl : nd.live = true) :
    ∃ i, lowestLive ns = some i := by
  cases h : lowestLive ns with
  | some i => exact ⟨i, rfl⟩
  | none =>
    have := lowestFrom_eq_none (Option.map_eq_none_iff.1 h) nd hnd
    simp [hl] at this

theorem mergeStep_candidate {ns : List Node} (h : ∃ nd ∈ ns, nd.live = true) :
    ∃ nd ∈ mergeStep ns, nd.live = true := by
  rcases mergeStep_cases ns with he | ⟨a, b, -, -, he⟩ <;> rw [he]
  · exact h
  · exact ⟨_, List.mem_append_right _ (List.mem_singleton_self _), rfl⟩

theorem mergeLoop_candidate (k : Nat) {ns : List Node} (h : ∃ nd ∈ ns, nd.live = true) :
    ∃ nd ∈ mergeLoop k ns, nd.live = true := by
  induction k generalizing ns with
  | zero => exact h
  | succ k ih =>
    unfold mergeLoop
    split
    · exact ih (mergeStep_candidate h)
    · exact h

/-- A symbol that is present has a leaf, which is a candidate. -/
theorem leafNodes_candidate {f : Vector Nat 256} (h : 1 ≤ (presentSymbols (counts f)).length) :
    ∃ nd ∈ leafNodes f, nd.live = true := by
  obtain ⟨b, hb⟩ := List.exists_mem_of_length_pos h
  refine ⟨{ kind := .leaf b, w := counts f b, live := true }, ?_, rfl⟩
  rw [leafNodes, symbolTable_eq_map]
  refine List.mem_map.2 ⟨(b, counts f b), List.mem_filter.2 ⟨List.mem_map.2 ⟨b, mem_alphabet b, rfl⟩, ?_⟩, rfl⟩
  exact decide_eq_true (mem_presentSymbols.1 hb)

/-- TBUILD from an empty arena, with a symbol present, leaves a candidate to be ROOT. -/
theorem lowestLive_buildArena {f : Vector Nat 256} (h : 1 ≤ (presentSymbols (counts f)).length) :
    ∃ i, lowestLive (buildArena [] f) = some i := by
  obtain ⟨nd, hnd, hl⟩ := mergeLoop_candidate (liveCount (leafNodes f)) (leafNodes_candidate h)
  exact lowestLive_of_live hnd hl

/-- ROOT gets the lowest candidate where there is one. -/
theorem setRoot_of_lowestLive {s : State} {i : Nat} (h : lowestLive s.nodes = some i) :
    setRoot s = { s with root := i } := by
  simp [setRoot, h]

/-- TBUILD from an empty arena with a symbol present. -/
theorem tbuild_of_present {s : State} (hn : s.nodes = []) (h : 1 ≤ (presentSymbols (counts s.freq)).length) :
    ∃ i, lowestLive (buildArena [] s.freq) = some i ∧
      tbuild s = .ok { s with nodes := buildArena [] s.freq, root := i } := by
  obtain ⟨i, hi⟩ := lowestLive_buildArena h
  exact ⟨i, hi, by rw [tbuild, hn, setRoot_of_lowestLive (by exact hi)]⟩

end Sys2Proof.Machine

/-! ## Two runs on the same operand -/

namespace Sys2Proof.Machine

/-! ### Runs side by side -/

/-- The second micro-operation follows the first: unless the first is a fault, both end normally, in states that `P`
relates, or raise the same error. -/
inductive Follows (P : State → State → Prop) : Except Stop State → Except Stop State → Prop
  | ok {t t' : State} (h : P t t') : Follows P (.ok t) (.ok t')
  | raised (e : Err) (u u' : State) : Follows P (.error (.raised e u)) (.error (.raised e u'))
  | fault (f : Fault) (r : Except Stop State) : Follows P (.error (.fault f)) r

/-- One micro-operation after another. -/
theorem Follows.bind {P Q : State → State → Prop} {r r' : Except Stop State} {f f' : State → Except Stop State}
    (h : Follows P r r') (hf : ∀ t t', P t t' → Follows Q (f t) (f' t')) : Follows Q (r >>= f) (r' >>= f') := by
  cases h with
  | ok h => exact hf _ _ h
  | raised e u u' => exact .raised e u u'
  | fault g r => exact .fault g _

/-- An IBUF read of a byte that both states hold. -/
theorem Follows.bindRead {P : State → State → Prop} {s s' : State} {i : Nat} {f f' : Byte → Except Stop State}
    (hcfg : s'.cfg = s.cfg) (hread : s'.ibuf.read i = s.ibuf.read i) (hf : ∀ b, Follows P (f b) (f' b)) :
    Follows P (ibufRead s i >>= f) (ibufRead s' i >>= f') := by
  have same : ibufRead s' i = ibufRead s i := by simp [ibufRead, ibufByte, hcfg, hread]
  rw [same]
  cases h : ibufRead s i with
  | ok b => exact hf b
  | error x =>
    obtain ⟨g, rfl⟩ := ibufRead_error h
    exact .fault g _

/-- An OBUF write of the same byte into the same contents. -/
theorem Follows.bindWrite {P : State → State → Prop} {s s' : State} {i : Nat} {b : Byte}
    {f f' : State → Except Stop State} (hcfg : s'.cfg = s.cfg) (hobuf : s'.obuf = s.obuf)
    (hf : ∀ m, Follows P (f { s with obuf := m }) (f' { s' with obuf := m })) :
    Follows P (obufWrite s i b >>= f) (obufWrite s' i b >>= f') := by
  rcases obufWrite_cases s i b with ⟨hi, h⟩ | ⟨hi, h⟩ <;> rw [h]
  · rw [obufWrite_of_lt b (hcfg ▸ hi), hobuf]
    exact hf _
  · exact .fault _ _

/-- The same decision in both states. -/
theorem Follows.ite {P : State → State → Prop} {c c' : Prop} [Decidable c] [Decidable c']
    {a a' b b' : Except Stop State} (hc : c' ↔ c) (ha : c → Follows P a a') (hb : ¬c → Follows P b b') :
    Follows P (if c then a else b) (if c' then a' else b') := by
  by_cases h : c
  · rw [if_pos h, if_pos (hc.2 h)]
    exact ha h
  · rw [if_neg h, if_neg fun h' => h (hc.1 h')]
    exact hb h

/-- A range of bytes that both states hold. -/
theorem ibufReadRange_congr {s s' : State} {i k : Nat} (hcfg : s'.cfg = s.cfg)
    (hread : ∀ j < i + k, s'.ibuf.read j = s.ibuf.read j) : ibufReadRange s' i k = ibufReadRange s i k := by
  induction k generalizing i with
  | zero => rfl
  | succ k ih =>
    have same : ibufRead s' i = ibufRead s i := by simp [ibufRead, ibufByte, hcfg, hread i (by omega)]
    rw [ibufReadRange, ibufReadRange, same, ih fun j hj => hread j (by omega)]

/-- The registers that a command start leaves alone, IBUF and the host's side, taken from `u`. -/
def State.beside (s u : State) : State :=
  { s with
    ibuf := u.ibuf, root := u.root, tb := u.tb, tn := u.tn, pb := u.pb, payStart := u.payStart
    host := u.host, reply := u.reply, freeCtr := u.freeCtr }

/-- Two states of the same command on the same operand, with `k` of its bytes to come. -/
structure SameWork (k : Nat) (s s' : State) : Prop where
  work : ∃ u, s' = s.beside u
  reads : ∀ j < s.n, s'.ibuf.read j = s.ibuf.read j
  room : s.ipos + k ≤ s.n

/-- A command start on the same operand, whatever an earlier command has left. -/
theorem startCommand_sameWork {s s' : State} (p : Phase) (hcfg : s'.cfg = s.cfg) (hlen : s'.inLen = s.inLen)
    (hread : ∀ j < s.inLen, s'.ibuf.read j = s.ibuf.read j) :
    SameWork s.inLen (s.startCommand.enterPhase p) (s'.startCommand.enterPhase p) := by
  refine ⟨⟨s', ?_⟩, hread, (Nat.zero_add _).le⟩
  simp only [State.beside, State.enterPhase, State.startCommand, State.clearWorking, hcfg, hlen]

theorem beginCommand_follows {s s' : State} (p : Phase) (hcfg : s'.cfg = s.cfg) (hlen : s'.inLen = s.inLen)
    (hread : ∀ j < s.inLen, s'.ibuf.read j = s.ibuf.read j) :
    Follows (fun a a' => a = s.startCommand.enterPhase p ∧ SameWork a.n a a') (beginCommand p s)
      (beginCommand p s') := by
  rcases beginCommand_cases p s with ⟨hcap, h⟩ | ⟨hcap, h⟩ <;>
    rcases beginCommand_cases p s' with ⟨hcap', h'⟩ | ⟨hcap', h'⟩ <;> rw [h, h'] <;> rw [hcfg, hlen] at hcap'
  · exact .raised _ _ _
  · exact absurd hcap (Nat.not_lt.2 hcap')
  · exact absurd hcap' (Nat.not_lt.2 hcap)
  · exact .ok ⟨rfl, startCommand_sameWork p hcfg hlen hread⟩

/-! ### ENCODE -/

/-- Inside FCOUNT's loop. -/
structure SameCounts (k : Nat) (s s' : State) : Prop extends SameWork k s s' where
  nodes : s.nodes = []
  nsym : s.nsym = (presentSymbols (counts s.freq)).length

theorem fcountLoop_follows (k : Nat) {s s' : State} (h : SameCounts k s s') :
    Follows (SameCounts 0) (fcountLoop k s) (fcountLoop k s') := by
  induction k generalizing s s' with
  | zero => exact .ok h
  | succ k ih =>
    obtain ⟨⟨⟨u, rfl⟩, reads, room⟩, nodes, nsym⟩ := h
    refine Follows.bindRead rfl (reads _ (by omega)) fun b => ih ⟨⟨⟨u, rfl⟩, reads, ?_⟩, nodes, countNext_nsym b nsym⟩
    show s.ipos + 1 + k ≤ s.n
    omega

theorem fcount_follows {p : Phase} {s a a' : State} (ha : a = s.startCommand.enterPhase p) (h : SameWork a.n a a') :
    Follows (SameCounts 0) (fcount a) (fcount a') := by
  subst ha
  obtain ⟨⟨u, rfl⟩, reads, room⟩ := h
  exact fcountLoop_follows _ ⟨⟨⟨u, rfl⟩, reads, room⟩, rfl, nsym_of_cleared rfl rfl⟩

/-- With a symbol present ROOT is the candidate left, and no free value. -/
theorem tbuild_follows {s s' : State} (h : SameCounts 0 s s') (hn : s.nsym ≠ 0) :
    Follows (fun t t' => SameWork 0 t t' ∧ t'.root = t.root) (tbuild s) (tbuild s') := by
  obtain ⟨⟨⟨u, rfl⟩, reads, room⟩, nodes, nsym⟩ := h
  have hp : 1 ≤ (presentSymbols (counts s.freq)).length := nsym ▸ Nat.one_le_iff_ne_zero.2 hn
  obtain ⟨i, hi, ht⟩ := tbuild_of_present nodes hp
  obtain ⟨j, hj, ht'⟩ := tbuild_of_present (s := s.beside u) nodes hp
  obtain rfl : i = j := Option.some.inj (hi.symm.trans hj)
  rw [ht, ht']
  exact .ok ⟨⟨⟨{ u with root := i }, rfl⟩, reads, room⟩, rfl⟩

theorem cgen_follows {s s' : State} (h : SameWork 0 s s') (hroot : s'.root = s.root) :
    Follows (SameWork 0) (cgen s) (cgen s') := by
  obtain ⟨⟨u, rfl⟩, reads, room⟩ := h
  have same : generateCodes (s.beside u).nodes (s.beside u).root (s.beside u).code =
      generateCodes s.nodes s.root s.code := by rw [hroot]; rfl
  rw [cgen, cgen, same]
  rcases generateCodes_cases s.nodes s.root s.code with ⟨d, hd⟩ | ⟨f, hf⟩
  · rw [hd]
    exact .ok ⟨⟨u, rfl⟩, reads, room⟩
  · rw [hf]
    exact .fault _ _

theorem measureOutput_follows {s s' : State} (h : SameWork 0 s s') :
    Follows (SameWork 0) (measureOutput s) (measureOutput s') := by
  obtain ⟨⟨u, rfl⟩, reads, room⟩ := h
  exact Follows.ite Iff.rfl (fun _ => .raised _ _ _) fun _ => .ok ⟨⟨u, rfl⟩, reads, room⟩

theorem packBit_follows {k : Nat} (bit : Bool) {s s' : State} (h : SameWork k s s') :
    Follows (SameWork k) (packBit bit s) (packBit bit s') := by
  obtain ⟨⟨u, rfl⟩, reads, room⟩ := h
  refine Follows.ite Iff.rfl (fun _ => ?_) fun _ => .ok ⟨⟨u, rfl⟩, reads, room⟩
  exact Follows.bindWrite rfl rfl fun m => .ok ⟨⟨u, rfl⟩, reads, room⟩

theorem packBits_follows {k : Nat} (bits : Bits) {s s' : State} (h : SameWork k s s') :
    Follows (SameWork k) (packBits bits s) (packBits bits s') := by
  induction bits generalizing s s' with
  | nil => exact .ok h
  | cons bit bits ih => exact Follows.bind (packBit_follows bit h) fun _ _ ht => ih ht

theorem bpackLoop_follows (k : Nat) {s s' : State} (h : SameWork k s s') :
    Follows (SameWork 0) (bpackLoop k s) (bpackLoop k s') := by
  induction k generalizing s s' with
  | zero => exact .ok h
  | succ k ih =>
    obtain ⟨⟨u, rfl⟩, reads, room⟩ := h
    refine Follows.bindRead rfl (reads _ (by omega)) fun b => ?_
    refine Follows.bind (packBits_follows _ ⟨⟨u, rfl⟩, reads, room⟩) fun t t' ht => ih ?_
    obtain ⟨⟨v, rfl⟩, treads, troom⟩ := ht
    refine ⟨⟨v, rfl⟩, treads, ?_⟩
    show t.ipos + 1 + k ≤ t.n
    omega

theorem flushPartial_follows {s s' : State} (h : SameWork 0 s s') :
    Follows (SameWork 0) (flushPartial s) (flushPartial s') := by
  obtain ⟨⟨u, rfl⟩, reads, room⟩ := h
  refine Follows.ite Iff.rfl (fun _ => ?_) fun _ => .ok ⟨⟨u, rfl⟩, reads, room⟩
  exact Follows.bindWrite rfl rfl fun m => .ok ⟨⟨u, rfl⟩, reads, room⟩

theorem bpack_follows {s s' : State} (h : SameWork 0 s s') : Follows (SameWork 0) (bpack s) (bpack s') := by
  obtain ⟨⟨u, rfl⟩, reads, -⟩ := h
  refine Follows.bind (bpackLoop_follows s.n ⟨⟨u, rfl⟩, reads, (Nat.zero_add _).le⟩) fun a a' ha => ?_
  refine Follows.bind (flushPartial_follows ha) fun b b' hb => ?_
  obtain ⟨⟨v, rfl⟩, reads, room⟩ := hb
  exact .ok ⟨⟨v, rfl⟩, reads, room⟩

theorem obufPut_follows (bs : List Byte) {s s' : State} (h : SameWork 0 s s') :
    Follows (SameWork 0) (obufPut bs s) (obufPut bs s') := by
  induction bs generalizing s s' with
  | nil => exact .ok h
  | cons b bs ih =>
    obtain ⟨⟨u, rfl⟩, reads, room⟩ := h
    exact Follows.bindWrite rfl rfl fun m => ih ⟨⟨u, rfl⟩, reads, room⟩

theorem putEntries_follows (entries : List (Byte × Bits)) {s s' : State} (h : SameWork 0 s s') :
    Follows (SameWork 0) (putEntries entries s) (putEntries entries s') := by
  induction entries generalizing s s' with
  | nil => exact .ok h
  | cons p rest ih =>
    unfold putEntries
    split
    · exact Follows.bind (obufPut_follows _ h) fun _ _ ht => ih ht
    · exact ih h

theorem tser_follows {s s' : State} (h : SameWork 0 s s') : Follows (SameWork 0) (tser s) (tser s') := by
  obtain ⟨⟨u, rfl⟩, reads, room⟩ := h
  exact Follows.bindWrite rfl rfl fun m => Follows.bindWrite rfl rfl fun m' =>
    putEntries_follows _ ⟨⟨u, rfl⟩, reads, room⟩

/-- Two states that show the host the same result. -/
def SameResult (t t' : State) : Prop :=
  t'.stat = t.stat ∧ t'.phase = t.phase ∧ t'.err = t.err ∧ t'.outLen = t.outLen ∧ t'.obuf = t.obuf

theorem endEmpty_follows {s s' : State} (h : SameWork 0 s s') : Follows SameResult (endEmpty s) (endEmpty s') := by
  obtain ⟨⟨u, rfl⟩, -, -⟩ := h
  refine Follows.ite Iff.rfl (fun _ => .raised _ _ _) fun _ => ?_
  exact Follows.bindWrite rfl rfl fun m => Follows.bindWrite rfl rfl fun m' => .ok ⟨rfl, rfl, rfl, rfl, rfl⟩

theorem SameWork.enterPhase {k : Nat} {s s' : State} (h : SameWork k s s') (p : Phase) :
    SameWork k (s.enterPhase p) (s'.enterPhase p) := by
  obtain ⟨⟨u, rfl⟩, reads, room⟩ := h
  exact ⟨⟨u, rfl⟩, reads, room⟩

theorem encodeWhole_follows {s s' : State} (hcfg : s'.cfg = s.cfg) (hlen : s'.inLen = s.inLen)
    (hread : ∀ j < s.inLen, s'.ibuf.read j = s.ibuf.read j) :
    Follows SameResult (encodeWhole s) (encodeWhole s') := by
  refine Follows.bind (beginCommand_follows .fcount hcfg hlen hread) fun a a' ha => ?_
  refine Follows.bind (fcount_follows ha.1 ha.2) fun b b' hb => ?_
  have hnsym : b'.nsym = b.nsym := by obtain ⟨u, rfl⟩ := hb.work; rfl
  by_cases hz : b.nsym = 0
  · rw [if_pos hz, if_pos (hnsym.trans hz)]
    exact endEmpty_follows hb.toSameWork
  · rw [if_neg hz, if_neg (hnsym ▸ hz)]
    refine Follows.bind (tbuild_follows ⟨hb.toSameWork.enterPhase _, hb.nodes, hb.nsym⟩ hz) fun c c' hc => ?_
    refine Follows.bind (cgen_follows (hc.1.enterPhase _) hc.2) fun d d' hd => ?_
    refine Follows.bind (measureOutput_follows hd) fun e e' he => ?_
    refine Follows.bind (bpack_follows (he.enterPhase _)) fun f f' hf => ?_
    refine Follows.bind (tser_follows (hf.enterPhase _)) fun g g' hg => ?_
    obtain ⟨⟨u, rfl⟩, -, -⟩ := hg
    exact .ok ⟨rfl, rfl, rfl, rfl, rfl⟩

/-! ### DECODE -/

/-- Two states of DECODE on the same operand, with the header's padding count read. -/
def SameDecoding (k : Nat) (s s' : State) : Prop := SameWork k s s' ∧ s'.pb = s.pb

theorem readHeader_follows {s s' : State} (h : SameWork 0 s s') :
    Follows (fun t t' => SameDecoding 0 t t' ∧ t'.tn = t.tn ∧ 2 ≤ t.n) (readHeader s) (readHeader s') := by
  obtain ⟨⟨u, rfl⟩, reads, room⟩ := h
  refine Follows.ite Iff.rfl (fun _ => .raised _ _ _) fun hn => ?_
  have hn : 2 ≤ s.n := Nat.le_of_not_lt hn
  refine Follows.bindRead rfl (reads 0 (by omega)) fun t => ?_
  refine Follows.bindRead rfl (reads 1 (by omega)) fun p => ?_
  refine Follows.ite Iff.rfl (fun _ => ?_) fun _ => Follows.ite Iff.rfl (fun _ => .raised _ _ _) fun _ => ?_
  · exact .ok ⟨⟨⟨⟨{ u with tb := t, pb := p, tn := 0 }, rfl⟩, reads, room⟩, rfl⟩, rfl, hn⟩
  · exact .ok ⟨⟨⟨⟨{ u with tb := t, pb := p, tn := entryCount t }, rfl⟩, reads, room⟩, rfl⟩, rfl, hn⟩

theorem readEntry_follows {s s' : State} (h : SameDecoding 0 s s') :
    Follows (SameDecoding 0) (readEntry s) (readEntry s') := by
  obtain ⟨⟨⟨u, rfl⟩, reads, room⟩, hpb⟩ := h
  refine Follows.ite Iff.rfl (fun _ => .raised _ _ _) fun hn => ?_
  refine Follows.bindRead rfl (reads s.ipos (by omega)) fun sym => ?_
  refine Follows.bindRead rfl (reads (s.ipos + 1) (by omega)) fun len => ?_
  refine Follows.ite Iff.rfl (fun _ => .raised _ _ _) fun _ => ?_
  refine Follows.ite Iff.rfl (fun _ => .raised _ _ _) fun hlen => ?_
  have hend : s.ipos + 2 + ceil8 len.toNat ≤ s.n := by rw [entryLength] at hlen; omega
  have same : ibufReadRange (s.beside u) ((s.beside u).ipos + 2) (ceil8 len.toNat) =
      ibufReadRange s (s.ipos + 2) (ceil8 len.toNat) := ibufReadRange_congr rfl fun j hj => reads j (hj.trans_le hend)
  rw [same]
  rcases ibufReadRange_cases s (s.ipos + 2) (ceil8 len.toNat) with ⟨bs, hbs, -⟩ | ⟨f, hf⟩
  · rw [hbs]
    exact .ok ⟨⟨⟨u, rfl⟩, reads, Nat.le_of_not_lt hlen⟩, hpb⟩
  · rw [hf]
    exact .fault _ _

theorem readEntries_follows {k k' : Nat} (hk : k' = k) {s s' : State} (h : SameDecoding 0 s s') :
    Follows (SameDecoding 0) (readEntries k s) (readEntries k' s') := by
  subst hk
  induction k' generalizing s s' with
  | zero => exact .ok h
  | succ k ih => exact Follows.bind (readEntry_follows h) fun _ _ ht => ih ht

theorem tdes_follows {s s' : State} (h : SameWork 0 s s') :
    Follows (fun t t' => SameDecoding 0 t t' ∧ t'.payStart = t.payStart ∧ t.payStart ≤ t.n) (tdes s) (tdes s') := by
  refine Follows.bind (readHeader_follows h) fun a a' ha => ?_
  obtain ⟨⟨⟨⟨u, rfl⟩, reads, -⟩, hpb⟩, htn, hn⟩ := ha
  refine Follows.bind (readEntries_follows htn ⟨⟨⟨u, rfl⟩, reads, hn⟩, hpb⟩) fun b b' hb => ?_
  obtain ⟨⟨⟨v, rfl⟩, reads, room⟩, hpb⟩ := hb
  exact .ok ⟨⟨⟨⟨{ v with payStart := b.ipos }, rfl⟩, reads, room⟩, hpb⟩, rfl, room⟩

theorem emitSymbol_follows {k : Nat} (sym : Byte) {s s' : State} (h : SameDecoding k s s') :
    Follows (SameDecoding k) (emitSymbol sym s) (emitSymbol sym s') := by
  obtain ⟨⟨⟨u, rfl⟩, reads, room⟩, hpb⟩ := h
  refine Follows.ite Iff.rfl (fun _ => .raised _ _ _) fun _ => ?_
  exact Follows.bindWrite rfl rfl fun m => .ok ⟨⟨⟨u, rfl⟩, reads, room⟩, hpb⟩

theorem scanBit_follows {k : Nat} (bit : Bool) {s s' : State} (h : SameDecoding k s s') :
    Follows (SameDecoding k) (scanBit bit s) (scanBit bit s') := by
  obtain ⟨⟨⟨u, rfl⟩, reads, room⟩, hpb⟩ := h
  have appended : SameDecoding k { s with acc := s.acc ++ [bit] } { s.beside u with acc := s.acc ++ [bit] } :=
    ⟨⟨⟨u, rfl⟩, reads, room⟩, hpb⟩
  unfold scanBit
  dsimp only [State.beside] at appended ⊢
  cases lookup s.dt (s.acc ++ [bit]) with
  | some sym => exact emitSymbol_follows sym appended
  | none => exact Follows.ite Iff.rfl (fun _ => .raised _ _ _) fun _ => .ok appended

theorem scanBits_follows {k : Nat} (bits : Bits) {s s' : State} (h : SameDecoding k s s') :
    Follows (SameDecoding k) (scanBits bits s) (scanBits bits s') := by
  induction bits generalizing s s' with
  | nil => exact .ok h
  | cons bit bits ih => exact Follows.bind (scanBit_follows bit h) fun _ _ ht => ih ht

theorem walkBytes_follows {k k' : Nat} (hk : k' = k) {s s' : State} (h : SameDecoding k s s') :
    Follows (SameDecoding 0) (walkBytes k s) (walkBytes k' s') := by
  subst hk
  induction k' generalizing s s' with
  | zero => exact .ok h
  | succ k ih =>
    have hs := h
    obtain ⟨⟨⟨u, rfl⟩, reads, room⟩, hpb⟩ := h
    refine Follows.bindRead rfl (reads _ (by omega)) fun b => ?_
    have same : bitsScanned (s.beside u) (s.beside u).ipos = bitsScanned s s.ipos := by
      rw [bitsScanned, bitsScanned, hpb]; rfl
    rw [same]
    refine Follows.bind (scanBits_follows _ hs) fun t t' ht => ih ?_
    obtain ⟨⟨⟨v, rfl⟩, treads, troom⟩, tpb⟩ := ht
    refine ⟨⟨⟨v, rfl⟩, treads, ?_⟩, tpb⟩
    show t.ipos + 1 + k ≤ t.n
    omega

theorem bwalk_follows {s s' : State} (h : SameDecoding 0 s s') (hpay : s'.payStart = s.payStart)
    (hle : s.payStart ≤ s.n) : Follows (SameWork 0) (bwalk s) (bwalk s') := by
  obtain ⟨⟨⟨u, rfl⟩, reads, -⟩, hpb⟩ := h
  have start : ({ s.beside u with acc := [], ocnt := 0, ipos := (s.beside u).payStart, opos := 0 } : State) =
      ({ s with acc := [], ocnt := 0, ipos := s.payStart, opos := 0 } : State).beside u := by rw [hpay]; rfl
  refine Follows.bind (walkBytes_follows (congrArg (s.n - ·) hpay) ⟨⟨⟨u, start⟩, reads, ?_⟩, hpb⟩) fun t t' ht => ?_
  · exact (Nat.add_sub_cancel' hle).le
  · obtain ⟨⟨⟨v, rfl⟩, treads, troom⟩, -⟩ := ht
    exact Follows.ite Iff.rfl (fun _ => .raised _ _ _) fun _ => .ok ⟨⟨v, rfl⟩, treads, troom⟩

theorem decodeWhole_follows {s s' : State} (hcfg : s'.cfg = s.cfg) (hlen : s'.inLen = s.inLen)
    (hread : ∀ j < s.inLen, s'.ibuf.read j = s.ibuf.read j) :
    Follows SameResult (decodeWhole s) (decodeWhole s') := by
  refine Follows.bind (beginCommand_follows .tdes hcfg hlen hread) fun a a' ha => ?_
  have hstart : SameWork 0 a a' := { ha.2 with room := by rw [ha.1]; exact Nat.zero_le _ }
  refine Follows.bind (tdes_follows hstart) fun b b' ⟨hb, hpay, hle⟩ => ?_
  refine Follows.bind (bwalk_follows ⟨hb.1.enterPhase _, hb.2⟩ hpay hle) fun c c' hc => ?_
  obtain ⟨⟨u, rfl⟩, -, -⟩ := hc
  exact .ok ⟨rfl, rfl, rfl, rfl, rfl⟩

/-! ### The result -/

/-- A raised error shows the host the same result in both runs, whatever the working state is. -/
theorem Follows.finish {r r' : Except Stop State} (h : Follows SameResult r r') {t : State}
    (ht : finish r = .next t) : ∃ t', finish r' = .next t' ∧ SameResult t t' := by
  cases h with
  | ok h => cases ht; exact ⟨_, rfl, h⟩
  | raised e u u' => cases ht; exact ⟨_, rfl, rfl, rfl, rfl, rfl, rfl⟩
  | fault f r => cases ht

/-- Settles O52: from the command start on the two runs agree in all that the command reads, ROOT included once TBUILD
has chosen it, and the header's fields once TDES has read them. -/
theorem resultDependsOnTheOperandOnly : Obligations.ResultDependsOnTheOperandOnly := by
  rintro s s' t i (rfl | rfl) hg hcfg hb hb' hlen hread ht
  · have hs : exec .encode s = finish (encodeWhole s) := execEncode_command hb hg
    have hs' : exec .encode s' = finish (encodeWhole s') := execEncode_command hb' (hcfg ▸ hg)
    exact hs' ▸ (encodeWhole_follows hcfg hlen hread).finish (hs ▸ ht)
  · have hs : exec .decode s = finish (decodeWhole s) := execDecode_command hb hg
    have hs' : exec .decode s' = finish (decodeWhole s') := execDecode_command hb' (hcfg ▸ hg)
    exact hs' ▸ (decodeWhole_follows hcfg hlen hread).finish (hs ▸ ht)

end Sys2Proof.Machine

/-! ## What an instruction leaves alone -/

namespace Sys2Proof.Machine

/-! ### Relations between the states before and after -/

/-- IBUF is canonical and lies inside its capacity. -/
def IbufFits (s : State) : Prop := s.ibuf.wf ∧ ∀ c ∈ s.ibuf, c.1 < s.cfg.ibufBytes

/-- OBUF is canonical and lies inside its capacity. -/
def ObufFits (s : State) : Prop := s.obuf.wf ∧ ∀ c ∈ s.obuf, c.1 < s.cfg.obufBytes

theorem buffersInv_iff {s : State} : BuffersInv s ↔ IbufFits s ∧ ObufFits s :=
  ⟨fun ⟨hi, ho, hib, hob⟩ => ⟨⟨hi, hib⟩, ⟨ho, hob⟩⟩, fun ⟨⟨hi, hib⟩, ⟨ho, hob⟩⟩ => ⟨hi, ho, hib, hob⟩⟩

theorem obufFits_of_empty {s : State} (h : s.obuf = []) : ObufFits s := by
  rw [ObufFits, h]
  exact ⟨Memory.wf_nil, fun _ hc => (List.not_mem_nil hc).elim⟩

/-- A write inside its capacity keeps a buffer canonical and inside it. -/
theorem fits_write {m : Memory} {cap i : Nat} (b : Byte) (h : m.wf ∧ ∀ c ∈ m, c.1 < cap) (hi : i < cap) :
    (m.write i b).wf ∧ ∀ c ∈ m.write i b, c.1 < cap := by
  refine ⟨Memory.wf_write h.1 i b, fun c hc => ?_⟩
  rcases Memory.mem_write hc with rfl | hc
  · exact hi
  · exact h.2 c hc

/-- What every instruction keeps: the host's side, and OBUF's form and bounds. -/
def Frame (s t : State) : Prop := SameHostSide s t ∧ (ObufFits s → ObufFits t)

theorem Frame.refl (s : State) : Frame s s := ⟨.refl s, id⟩

theorem Frame.trans {a b c : State} (h : Frame a b) (k : Frame b c) : Frame a c :=
  ⟨h.1.trans k.1, k.2 ∘ h.2⟩

/-- What every micro-operation keeps before its command goes on or ends: the status fields too. -/
def Works (s t : State) : Prop :=
  Frame s t ∧ t.stat = s.stat ∧ t.phase = s.phase ∧ t.err = s.err ∧ t.outLen = s.outLen

theorem Works.refl (s : State) : Works s s := ⟨.refl s, rfl, rfl, rfl, rfl⟩

theorem Works.trans {a b c : State} (h : Works a b) (k : Works b c) : Works a c := by
  obtain ⟨h₀, h₁, h₂, h₃, h₄⟩ := h
  obtain ⟨k₀, k₁, k₂, k₃, k₄⟩ := k
  exact ⟨h₀.trans k₀, k₁.trans h₁, k₂.trans h₂, k₃.trans h₃, k₄.trans h₄⟩

/-- An OBUF write inside the capacity. -/
theorem works_write (s : State) {i : Nat} (b : Byte) (hi : i < s.cfg.obufBytes) :
    Works s { s with obuf := s.obuf.write i b } :=
  ⟨⟨.refl s, fun h => fits_write b h hi⟩, rfl, rfl, rfl, rfl⟩

/-! ### Micro-operations that keep a relation -/

/-- From `s` a micro-operation ends in a state that `R` relates to `s`, normally or with an error, which is one of the
five error kinds; or it is a fault. -/
def Ran (R : State → State → Prop) (s : State) : Except Stop State → Prop
  | .ok t => R s t
  | .error (.raised e u) => e ≠ .ok ∧ R s u
  | .error (.fault _) => True

theorem Ran.mono {R Q : State → State → Prop} {s : State} {r : Except Stop State} (h : Ran R s r)
    (hRQ : ∀ t, R s t → Q s t) : Ran Q s r := by
  rcases r with (⟨e, u⟩ | f) | t
  · exact ⟨h.1, hRQ u h.2⟩
  · exact trivial
  · exact hRQ t h

/-- A start in a state related to `s`. -/
theorem Ran.after {R : State → State → Prop} (hR : ∀ {a b c}, R a b → R b c → R a c) {s t : State}
    {r : Except Stop State} (hst : R s t) (h : Ran R t r) : Ran R s r := by
  rcases r with (⟨e, u⟩ | f) | u
  · exact ⟨h.1, hR hst h.2⟩
  · exact trivial
  · exact hR hst h

/-- One micro-operation after another. -/
theorem Ran.bind {R : State → State → Prop} (hR : ∀ {a b c}, R a b → R b c → R a c) {s : State}
    {r : Except Stop State} {f : State → Except Stop State} (h : Ran R s r) (hf : ∀ t, Ran R t (f t)) :
    Ran R s (r >>= f) := by
  rcases r with (⟨e, u⟩ | g) | t
  · exact h
  · exact trivial
  · exact Ran.after (R := R) hR h (hf t)

/-- An IBUF read, and then what is done with the byte. -/
theorem Ran.bindRead {R : State → State → Prop} {s t : State} {i : Nat} {f : Byte → Except Stop State}
    (hf : ∀ b, Ran R s (f b)) : Ran R s (ibufRead t i >>= f) := by
  cases h : ibufRead t i with
  | ok b => exact hf b
  | error x =>
    obtain ⟨g, rfl⟩ := ibufRead_error h
    exact trivial

theorem ran_obufWrite (s : State) (i : Nat) (b : Byte) : Ran Works s (obufWrite s i b) := by
  rcases obufWrite_cases s i b with ⟨hi, h⟩ | ⟨-, h⟩ <;> rw [h]
  · exact works_write s b hi
  · exact trivial

/-! ### The encoder's micro-operations -/

theorem ran_fcount (s : State) : Ran Works s (fcount s) := by
  rw [fcount]
  rcases fcountLoop_cases s.n { s with ipos := 0 } with ⟨X, -, h⟩ | ⟨f, h⟩ <;> rw [h]
  · obtain ⟨f, k, hu⟩ := foldl_countNext_eq X { s with ipos := 0 }
    rw [hu]
    exact Works.refl s
  · exact trivial

theorem ran_tbuild (s : State) : Ran Works s (tbuild s) := by
  show Works s (setRoot _)
  unfold setRoot
  split <;> exact Works.refl s

theorem ran_cgen (s : State) : Ran Works s (cgen s) := by
  rcases cgen_cases s with ⟨d, h⟩ | ⟨f, h⟩ <;> rw [h]
  · exact Works.refl s
  · exact trivial

/-- All that the measurement between CGEN and BPACK can do (40_commands.md R138, R139). -/
theorem measureOutput_cases (s : State) :
    measureOutput s = .error (.raised .capacityExceeded { s with hdrLen := headerLength s.code }) ∨
      measureOutput s = .ok { s with hdrLen := headerLength s.code } := by
  unfold measureOutput
  dsimp only
  split
  · exact .inl rfl
  · exact .inr rfl

theorem ran_measureOutput (s : State) : Ran Works s (measureOutput s) := by
  rcases measureOutput_cases s with h | h <;> rw [h]
  · exact ⟨by decide, Works.refl s⟩
  · exact Works.refl s

theorem ran_packBit (bit : Bool) (s : State) : Ran Works s (packBit bit s) := by
  unfold packBit
  dsimp only
  split
  · exact Ran.bind .trans (ran_obufWrite { s with totalBits := s.totalBits + 1 } _ _) fun t => Works.refl t
  · exact Works.refl s

theorem ran_packBits (bits : Bits) (s : State) : Ran Works s (packBits bits s) := by
  induction bits generalizing s with
  | nil => exact Works.refl s
  | cons bit bits ih => exact Ran.bind .trans (ran_packBit bit s) ih

theorem ran_bpackLoop (k : Nat) (s : State) : Ran Works s (bpackLoop k s) := by
  induction k generalizing s with
  | zero => exact Works.refl s
  | succ k ih =>
    refine Ran.bindRead fun b => ?_
    exact Ran.bind .trans (ran_packBits _ s) fun t => ih { t with ipos := t.ipos + 1 }

theorem ran_flushPartial (s : State) : Ran Works s (flushPartial s) := by
  unfold flushPartial
  split
  · exact Ran.bind .trans (ran_obufWrite s _ _) fun t => Works.refl t
  · exact Works.refl s

theorem ran_bpack (s : State) : Ran Works s (bpack s) :=
  Ran.bind .trans (ran_bpackLoop s.n { s with opos := s.hdrLen, pkAcc := 0, pkN := 0, totalBits := 0, ipos := 0 })
    fun t => Ran.bind .trans (ran_flushPartial t) fun u => Works.refl u

theorem ran_obufPut (bs : List Byte) (s : State) : Ran Works s (obufPut bs s) := by
  induction bs generalizing s with
  | nil => exact Works.refl s
  | cons b bs ih => exact Ran.bind .trans (ran_obufWrite s _ _) fun t => ih { t with opos := t.opos + 1 }

theorem ran_putEntries (entries : List (Byte × Bits)) (s : State) : Ran Works s (putEntries entries s) := by
  induction entries generalizing s with
  | nil => exact Works.refl s
  | cons p rest ih =>
    unfold putEntries
    split
    · exact Ran.bind .trans (ran_obufPut _ s) ih
    · exact ih s

theorem ran_tser (s : State) : Ran Works s (tser s) :=
  Ran.bind .trans (ran_obufWrite s _ _) fun t => Ran.bind .trans (ran_obufWrite t _ _) fun u =>
    ran_putEntries _ { u with opos := 2 }

/-! ### The decoder's micro-operations -/

theorem ran_readHeader (s : State) : Ran Works s (readHeader s) := by
  unfold readHeader
  split
  · exact ⟨by decide, Works.refl s⟩
  · refine Ran.bindRead fun t => Ran.bindRead fun p => ?_
    dsimp only
    split_ifs
    · exact Works.refl s
    · exact ⟨by decide, Works.refl s⟩
    · exact Works.refl s

theorem ran_readEntry (s : State) : Ran Works s (readEntry s) := by
  unfold readEntry
  split
  · exact ⟨by decide, Works.refl s⟩
  · refine Ran.bindRead fun sym => Ran.bindRead fun len => ?_
    split_ifs
    · exact ⟨by decide, Works.refl s⟩
    · exact ⟨by decide, Works.refl s⟩
    · rcases ibufReadRange_cases s (s.ipos + 2) (ceil8 len.toNat) with ⟨bs, hbs, -⟩ | ⟨f, hf⟩
      · rw [hbs]; exact Works.refl s
      · rw [hf]; exact trivial

theorem ran_readEntries (k : Nat) (s : State) : Ran Works s (readEntries k s) := by
  induction k generalizing s with
  | zero => exact Works.refl s
  | succ k ih => exact Ran.bind .trans (ran_readEntry s) ih

theorem ran_tdes (s : State) : Ran Works s (tdes s) :=
  Ran.bind .trans (ran_readHeader s) fun t =>
    Ran.bind .trans (ran_readEntries t.tn { t with ipos := 2 }) fun u => Works.refl u

theorem ran_emitSymbol (sym : Byte) (s : State) : Ran Works s (emitSymbol sym s) := by
  unfold emitSymbol
  split
  · exact ⟨by decide, Works.refl s⟩
  · exact Ran.bind .trans (ran_obufWrite s _ _) fun t => Works.refl t

theorem ran_scanBit (bit : Bool) (s : State) : Ran Works s (scanBit bit s) := by
  unfold scanBit
  dsimp only
  split
  · exact ran_emitSymbol _ { s with acc := s.acc ++ [bit] }
  · split
    · exact ⟨by decide, Works.refl s⟩
    · exact Works.refl s

theorem ran_scanBits (bits : Bits) (s : State) : Ran Works s (scanBits bits s) := by
  induction bits generalizing s with
  | nil => exact Works.refl s
  | cons bit bits ih => exact Ran.bind .trans (ran_scanBit bit s) ih

theorem ran_walkBytes (k : Nat) (s : State) : Ran Works s (walkBytes k s) := by
  induction k generalizing s with
  | zero => exact Works.refl s
  | succ k ih =>
    refine Ran.bindRead fun b => ?_
    exact Ran.bind .trans (ran_scanBits _ s) fun t => ih { t with ipos := t.ipos + 1 }

theorem ran_bwalk (s : State) : Ran Works s (bwalk s) := by
  refine Ran.bind .trans
    (ran_walkBytes (s.n - s.payStart) { s with acc := [], ocnt := 0, ipos := s.payStart, opos := 0 }) fun t => ?_
  split
  · exact ⟨by decide, Works.refl t⟩
  · exact Works.refl t

/-! ### The commands -/

theorem Works.frame {s t : State} (h : Works s t) : Frame s t := h.1

/-- Taking an error and emptying OBUF. -/
theorem frame_raiseErr (s : State) (e : Err) : Frame s (s.raiseErr e) :=
  ⟨⟨rfl, rfl, rfl, rfl, rfl⟩, fun _ => obufFits_of_empty rfl⟩

theorem frame_startCommand (s : State) : Frame s s.startCommand :=
  ⟨⟨rfl, rfl, rfl, rfl, rfl⟩, fun _ => obufFits_of_empty rfl⟩

theorem ran_beginCommand (p : Phase) (s : State) : Ran Frame s (beginCommand p s) := by
  rcases beginCommand_cases p s with ⟨-, h⟩ | ⟨-, h⟩ <;> rw [h]
  · exact ⟨by decide, frame_startCommand s⟩
  · exact frame_startCommand s

/-- All that the empty input's short-circuit can do: OBUF is too small, or the command ends with the two bytes of the
empty container (40_commands.md R145). -/
theorem endEmpty_cases (s : State) :
    endEmpty s = .error (.raised .capacityExceeded s) ∨
      ∃ m, Works s { s with obuf := m } ∧ endEmpty s = .ok (State.endCommand { s with obuf := m } 2) := by
  by_cases hcap : s.cfg.obufBytes < 2
  · exact .inl (if_pos hcap)
  · have h₀ : 0 < s.cfg.obufBytes := by omega
    have h₁ : 1 < s.cfg.obufBytes := by omega
    refine .inr ⟨(s.obuf.write 0 0x00).write 1 0x00, ?_, ?_⟩
    · exact (works_write s 0x00 h₀).trans (works_write { s with obuf := s.obuf.write 0 0x00 } 0x00 h₁)
    · simp [endEmpty, hcap, obufWrite, h₀, h₁, bind, Except.bind]

theorem ran_endEmpty (s : State) : Ran Frame s (endEmpty s) := by
  rcases endEmpty_cases s with h | ⟨m, hm, h⟩ <;> rw [h]
  · exact ⟨by decide, Frame.refl s⟩
  · exact hm.frame

theorem ran_encodeWhole (s : State) : Ran Frame s (encodeWhole s) := by
  refine Ran.bind .trans (ran_beginCommand _ s) fun a => ?_
  refine Ran.bind .trans ((ran_fcount a).mono fun _ => Works.frame) fun b => ?_
  split
  · exact ran_endEmpty b
  · refine Ran.bind .trans ((ran_tbuild (b.enterPhase .tbuild)).mono fun _ => Works.frame) fun c => ?_
    refine Ran.bind .trans ((ran_cgen (c.enterPhase .cgen)).mono fun _ => Works.frame) fun d => ?_
    refine Ran.bind .trans ((ran_measureOutput d).mono fun _ => Works.frame) fun e => ?_
    refine Ran.bind .trans ((ran_bpack (e.enterPhase .bpack)).mono fun _ => Works.frame) fun f => ?_
    exact Ran.bind .trans ((ran_tser (f.enterPhase .tser)).mono fun _ => Works.frame) fun g => Frame.refl g

theorem ran_decodeWhole (s : State) : Ran Frame s (decodeWhole s) := by
  refine Ran.bind .trans (ran_beginCommand _ s) fun a => ?_
  refine Ran.bind .trans ((ran_tdes a).mono fun _ => Works.frame) fun b => ?_
  exact Ran.bind .trans ((ran_bwalk (b.enterPhase .bwalk)).mono fun _ => Works.frame) fun c => Frame.refl c

theorem Ran.frame_finish {s t : State} {r : Except Stop State} (h : Ran Frame s r) (ht : finish r = .next t) :
    Frame s t := by
  rcases finish_next ht with rfl | ⟨e, u, rfl, rfl⟩
  · exact h
  · exact h.2.trans (frame_raiseErr u e)

/-- A command that answers a next state was one atomic step, or its start. -/
theorem execEncode_cases {s t : State} (h : exec .encode s = .next t) :
    finish (encodeWhole s) = .next t ∨ finish (beginCommand .fcount s) = .next t := by
  change execEncode s = .next t at h
  by_cases hb : s.stat = .busy
  · rw [execEncode_busy hb] at h; cases h
  · cases hg : s.cfg.grain with
    | command => exact .inl (execEncode_command hb hg ▸ h)
    | microOp => exact .inr (execEncode_microOp hb hg ▸ h)

theorem execDecode_cases {s t : State} (h : exec .decode s = .next t) :
    finish (decodeWhole s) = .next t ∨ finish (beginCommand .tdes s) = .next t := by
  change execDecode s = .next t at h
  by_cases hb : s.stat = .busy
  · rw [execDecode_busy hb] at h; cases h
  · cases hg : s.cfg.grain with
    | command => exact .inl (execDecode_command hb hg ▸ h)
    | microOp => exact .inr (execDecode_microOp hb hg ▸ h)

theorem exec_frame {i : Instr} {s t : State} (h : exec i s = .next t) : Frame s t := by
  cases i with
  | encode =>
    rcases execEncode_cases h with h | h
    · exact (ran_encodeWhole s).frame_finish h
    · exact (ran_beginCommand _ s).frame_finish h
  | decode =>
    rcases execDecode_cases h with h | h
    · exact (ran_decodeWhole s).frame_finish h
    · exact (ran_beginCommand _ s).frame_finish h
  | fcount => exact ((ran_fcount s).mono fun _ => Works.frame).frame_finish h
  | tbuild => exact ((ran_tbuild s).mono fun _ => Works.frame).frame_finish h
  | cgen => exact ((ran_cgen s).mono fun _ => Works.frame).frame_finish h
  | bpack => exact ((ran_bpack s).mono fun _ => Works.frame).frame_finish h
  | tser => exact ((ran_tser s).mono fun _ => Works.frame).frame_finish h
  | tdes => exact ((ran_tdes s).mono fun _ => Works.frame).frame_finish h
  | bwalk => exact ((ran_bwalk s).mono fun _ => Works.frame).frame_finish h

/-- Settles O56: it is the first half of the frame of every instruction. -/
theorem instructionsLeaveTheHostSide : Obligations.InstructionsLeaveTheHostSide :=
  fun _ _ _ h => (exec_frame h).1

end Sys2Proof.Machine

/-! ## The phases of a running command -/

namespace Sys2Proof.Machine

/-- All that a step of the core in a BUSY state can do: the next phase is entered, the command ends, or an error is
taken. -/
inductive PhaseStep (s : State) : State → Prop
  | next {w : State} {q : Phase} (hw : Works s w) (hq : (s.phase, q) ∈ phaseSuccessors) : PhaseStep s (w.enterPhase q)
  | done {w : State} {len : Nat} (hw : Works s w)
      (hp : (s.phase = .fcount ∧ w.nsym = 0) ∨ s.phase = .tser ∨ s.phase = .bwalk) : PhaseStep s (w.endCommand len)
  | raised {w : State} {e : Err} (hw : Works s w) (he : e ≠ .ok) : PhaseStep s (w.raiseErr e)

/-- What follows a micro-operation that has ended without an error. -/
theorem advance_phaseStep {s v t : State} (hp : s.phase ≠ .none) (hv : Works s v)
    (ht : finish (advance s.phase v) = .next t) : PhaseStep s t := by
  have enter {q : Phase} (hq : (s.phase, q) ∈ phaseSuccessors) : PhaseStep s (v.enterPhase q) := .next hv hq
  cases hs : s.phase <;> rw [hs] at ht enter <;> unfold advance at ht
  case none => exact absurd hs hp
  case fcount =>
    dsimp only at ht
    split at ht
    · next hn =>
      rcases endEmpty_cases v with h | ⟨m, hm, h⟩ <;> rw [h] at ht <;> cases ht
      · exact .raised hv (by decide)
      · exact .done (hv.trans hm) (.inl ⟨hs, hn⟩)
    · cases ht
      exact enter (by decide)
  case tbuild => cases ht; exact enter (by decide)
  case cgen =>
    rcases measureOutput_cases v with h | h <;> rw [h] at ht <;> cases ht
    · exact .raised (w := { v with hdrLen := headerLength v.code }) hv (by decide)
    · exact .next (w := { v with hdrLen := headerLength v.code }) hv (by rw [hs]; decide)
  case bpack => cases ht; exact enter (by decide)
  case tser => cases ht; exact .done hv (.inr (.inl hs))
  case tdes => cases ht; exact enter (by decide)
  case bwalk => cases ht; exact .done hv (.inr (.inr hs))

/-- A micro-operation and what its sequence does next. -/
theorem sequenceAfter_phaseStep {s t : State} {r : Except Stop State} (hb : s.stat = .busy) (hp : s.phase ≠ .none)
    (hr : Ran Works s r) (ht : sequenceAfter s.phase (finish r) = .next t) : PhaseStep s t := by
  obtain ⟨u, hu, hend⟩ := sequenceAfter_cases ht
  rcases finish_next hu with rfl | ⟨e, v, rfl, rfl⟩
  · have hbusy : u.stat = .busy := hr.2.1.trans hb
    rcases hend with ⟨hnb, -⟩ | ⟨-, hfin⟩
    · exact absurd hbusy hnb
    · exact advance_phaseStep hp hr hfin
  · rcases hend with ⟨-, rfl⟩ | ⟨hbusy, -⟩
    · exact .raised hr.2 hr.1
    · cases hbusy

/-- The core's step in a BUSY state, whichever micro-operation PHASE names. -/
theorem phase_phaseStep {i : Instr} {s t : State} (hb : s.stat = .busy)
    (hi : decodePhase (BitVec.ofNat 4 s.phase.number) = .ok i)
    (ht : sequenceAfter s.phase (exec i s) = .next t) : PhaseStep s t := by
  have sequence {r : Except Stop State} (hp : s.phase ≠ .none) (hr : Ran Works s r)
      (h : sequenceAfter s.phase (finish r) = .next t) : PhaseStep s t := sequenceAfter_phaseStep hb hp hr h
  cases hs : s.phase <;> rw [hs] at hi ht sequence <;> cases hi
  case fcount => exact sequence (by decide) (ran_fcount s) ht
  case tbuild => exact sequence (by decide) (ran_tbuild s) ht
  case cgen => exact sequence (by decide) (ran_cgen s) ht
  case bpack => exact sequence (by decide) (ran_bpack s) ht
  case tser => exact sequence (by decide) (ran_tser s) ht
  case tdes => exact sequence (by decide) (ran_tdes s) ht
  case bwalk => exact sequence (by decide) (ran_bwalk s) ht

/-- A BUSY state's core slot is a micro-operation and what follows it. -/
theorem step_coreSlot_busy {s t u : State} (hst : CoreSlot s t) (hb : t.stat = .busy) (h : step s = .next u) :
    PhaseStep t u := by
  rw [step, nextMove_of_coreSlot hst] at h
  rcases coreMove_cases t with ⟨hnb, -⟩ | ⟨-, -, hm⟩ | ⟨-, i, hi, hm⟩
  · exact absurd hb hnb
  · rw [hm] at h; cases h
  · rw [hm] at h; exact phase_phaseStep hb hi h

theorem CoreSlot.stat {s t : State} (h : CoreSlot s t) : t.stat = s.stat := by
  rcases h with ⟨-, rfl⟩ | ⟨rest, -, rfl⟩ <;> rfl

theorem CoreSlot.phase {s t : State} (h : CoreSlot s t) : t.phase = s.phase := by
  rcases h with ⟨-, rfl⟩ | ⟨rest, -, rfl⟩ <;> rfl

/-- Settles O6: of the three ends of a phase the error leaves ERR different from OK. -/
theorem phasesRunInOrder : Obligations.PhasesRunInOrder := by
  intro s t u hst hb h
  have hbt : t.stat = .busy := hst.stat.trans hb
  rw [← hst.phase]
  rcases step_coreSlot_busy hst hbt h with ⟨hw, hq⟩ | ⟨hw, hp⟩ | ⟨hw, he⟩
  · exact .inl ⟨hw.2.1.trans hbt, hq⟩
  · exact .inr ⟨rfl, rfl, fun _ _ => hp⟩
  · exact .inr ⟨rfl, rfl, fun hok => absurd hok he⟩

end Sys2Proof.Machine

/-! ## What a step can do -/

namespace Sys2Proof.Machine

/-! ### Host accesses -/

/-- All that a host access can change: IN_LEN, IBUF inside its form and bounds, and the model's own fields. -/
def Accessed (s t : State) : Prop :=
  t = { s with inLen := t.inLen, ibuf := t.ibuf, host := t.host, reply := t.reply, freeCtr := t.freeCtr } ∧
    (IbufFits s → IbufFits t)

theorem Accessed.refl (s : State) : Accessed s s := ⟨rfl, id⟩

theorem Accessed.trans {a b c : State} (h : Accessed a b) (k : Accessed b c) : Accessed a c := by
  obtain ⟨hb, hfits⟩ := h
  obtain ⟨hc, kfits⟩ := k
  rw [hb] at hc
  exact ⟨hc, kfits ∘ hfits⟩

/-- The script and the reply. -/
theorem accessed_script (s : State) (h : List HostMove) (r : Reply) : Accessed s { s with host := h, reply := r } :=
  ⟨rfl, id⟩

theorem readCount_accessed (k : Nat) (s : State) : Accessed s (readCount k s) := by
  rw [readCount_frame]
  exact ⟨rfl, id⟩

theorem writeInLen_accessed (v : Nat) (s : State) : Accessed s (writeInLen v s) := by
  by_cases h : v < 2 ^ s.cfg.lenBits
  · rw [writeInLen_of_lt h]
    exact ⟨rfl, id⟩
  · obtain ⟨k, -, hs⟩ := writeInLen_of_le (Nat.le_of_not_lt h)
    rw [hs]
    exact ⟨rfl, id⟩

theorem hostIbufWrite_accessed {s t : State} {i : Nat} {b : Byte} (h : hostIbufWrite s i b = .ok t) :
    Accessed s t := by
  unfold hostIbufWrite at h
  split at h
  · next hi => cases h; exact ⟨rfl, fun hf => fits_write b hf hi⟩
  · cases h

theorem hostIbufRead_accessed {s t : State} {i : Nat} (h : hostIbufRead s i = .ok t) : Accessed s t := by
  unfold hostIbufRead at h
  cases hb : ibufByte s i <;> rw [hb] at h <;> cases h
  exact ⟨rfl, id⟩

theorem hostObufRead_accessed {s t : State} {i : Nat} (h : hostObufRead s i = .ok t) : Accessed s t := by
  unfold hostObufRead at h
  cases hb : hostObufByte s i <;> rw [hb] at h <;> cases h
  exact ⟨rfl, id⟩

theorem copyBytes_accessed {k i : Nat} {s t : State} (h : copyBytes i k s = .ok t) : Accessed s t := by
  induction k generalizing i s with
  | zero => cases h; exact .refl _
  | succ k ih =>
    unfold copyBytes at h
    cases hb : hostObufByte s i with
    | error f => rw [hb] at h; cases h
    | ok b =>
      cases hw : hostIbufWrite s i b with
      | error f => simp [hb, hw, bind, Except.bind] at h
      | ok u => exact (hostIbufWrite_accessed hw).trans (ih (by simpa [hb, hw, bind, Except.bind] using h))

theorem copyback_accessed {s t : State} (h : copyback s = .ok t) : Accessed s t := by
  unfold copyback at h
  cases hc : copyBytes 0 s.outLen s with
  | error f => rw [hc] at h; cases h
  | ok u =>
    rw [hc] at h
    cases h
    exact (copyBytes_accessed hc).trans (writeInLen_accessed u.outLen u)

/-! ### The step -/

/-- All that a step can do: a host access, a reserved command, RESET, a command, or the core's move in a BUSY state.
In each the host's move has first been taken from the script. -/
inductive Stepped (s : State) : State → Prop
  | access {t : State} (h : Accessed s t) : Stepped s t
  | illegal {u : State} (h : Accessed s u) : Stepped s (u.startCommand.raiseErr .illegalCommand)
  | reset {u : State} (h : Accessed s u) : Stepped s u.applyReset
  | command {u t : State} {i : Instr} (h : Accessed s u) (hi : i = .encode ∨ i = .decode) (he : exec i u = .next t) :
      Stepped s t
  | phase {u t : State} (h : Accessed s u) (hb : u.stat = .busy) (hp : PhaseStep u t) : Stepped s t

theorem Stepped.after {s u t : State} (h : Accessed s u) (hs : Stepped u t) : Stepped s t := by
  cases hs with
  | access k => exact .access (h.trans k)
  | illegal k => exact .illegal (h.trans k)
  | reset k => exact .reset (h.trans k)
  | command k hi he => exact .command (h.trans k) hi he
  | phase k hb hp => exact .phase (h.trans k) hb hp

/-- An outcome that is a next state is one that a step from `s` can lead to. -/
def OutcomeStepped (s : State) (o : Host.Outcome State Fault Refusal) : Prop := ∀ t, o = .next t → Stepped s t

theorem outcomeStepped_next {s t : State} (h : Stepped s t) : OutcomeStepped s (.next t) :=
  fun _ ht => by cases ht; exact h

theorem outcomeStepped_refused (s : State) (r : Refusal) : OutcomeStepped s (.refused r) := fun _ ht => by cases ht

theorem whenNotBusy_stepped {s u : State} {o : Host.Outcome State Fault Refusal} (h : OutcomeStepped s o) :
    OutcomeStepped s (whenNotBusy u o) := by
  by_cases hb : u.stat = .busy
  · rw [whenNotBusy_busy o hb]; exact outcomeStepped_refused s _
  · rwa [whenNotBusy_of_ne o hb]

theorem accessOutcome_stepped {s : State} {r : Except Fault State} (h : ∀ t, r = .ok t → Accessed s t) :
    OutcomeStepped s (accessOutcome r) := by
  cases r with
  | ok t => exact outcomeStepped_next (.access (h t rfl))
  | error f => intro t ht; cases ht

theorem readRegister_stepped (offset width : Nat) (s : State) : OutcomeStepped s (readRegister offset width s) := by
  have reply (r : Reply) : OutcomeStepped s (.next { s with reply := r }) := outcomeStepped_next (.access ⟨rfl, id⟩)
  have count (k : Nat) : OutcomeStepped s (.next (readCount k s)) :=
    outcomeStepped_next (.access (readCount_accessed k s))
  unfold readRegister
  split_ifs
  · exact outcomeStepped_refused s _
  · exact outcomeStepped_refused s _
  · exact whenNotBusy_stepped (reply _)
  · exact reply _
  · exact count _
  · exact whenNotBusy_stepped (count _)

/-- The step that a move makes from `s`. -/
def MoveStepped (s : State) : Move → Prop
  | .access o => OutcomeStepped s o
  | .command i u => OutcomeStepped s (exec i u)
  | .phase i u => OutcomeStepped s (sequenceAfter u.phase (exec i u))

theorem MoveStepped.after {s u : State} {m : Move} (h : Accessed s u) (hm : MoveStepped u m) : MoveStepped s m := by
  cases m with
  | access o => exact fun t ht => (hm t ht).after h
  | command i v => exact fun t ht => (hm t ht).after h
  | phase i v => exact fun t ht => (hm t ht).after h

theorem coreMove_stepped (s : State) : MoveStepped s (coreMove s) := by
  rcases coreMove_cases s with ⟨-, hm⟩ | ⟨-, -, hm⟩ | ⟨hb, i, hi, hm⟩ <;> rw [hm]
  · exact outcomeStepped_next (.access (.refl s))
  · exact outcomeStepped_refused s _
  · exact fun t ht => .phase (.refl s) hb (phase_phaseStep hb hi ht)

theorem writeCmd_stepped (v : Word) (s : State) : MoveStepped s (writeCmd v s) := by
  unfold writeCmd
  split
  · exact outcomeStepped_refused s _
  · split
    · next i hi =>
      have hcmd : i = .encode ∨ i = .decode := by
        unfold decodeCmd at hi
        split_ifs at hi <;> cases hi
        · exact .inl rfl
        · exact .inr rfl
      exact fun t ht => .command (.refl s) hcmd ht
    · exact outcomeStepped_next (.illegal (.refl s))

theorem writeRegister_stepped (offset width : Nat) (v : BitVec width) (s : State) :
    MoveStepped s (writeRegister offset width v s) := by
  unfold writeRegister
  split_ifs
  · exact outcomeStepped_refused s _
  · exact outcomeStepped_refused s _
  · exact writeCmd_stepped _ s
  · exact outcomeStepped_next (.access (.refl s))
  · exact whenNotBusy_stepped (outcomeStepped_next (.access (writeInLen_accessed _ s)))
  · exact whenNotBusy_stepped (outcomeStepped_next (.access (.refl s)))

theorem hostMove_stepped (m : HostMove) (s : State) : MoveStepped s (hostMove m s) := by
  cases m with
  | idle => exact coreMove_stepped s
  | writeReg offset width v => exact writeRegister_stepped offset width v s
  | readReg offset width => exact readRegister_stepped offset width s
  | writeIbuf i b => exact whenNotBusy_stepped (accessOutcome_stepped fun _ => hostIbufWrite_accessed)
  | readIbuf i => exact whenNotBusy_stepped (accessOutcome_stepped fun _ => hostIbufRead_accessed)
  | writeObuf i b => exact outcomeStepped_refused s _
  | readObuf i => exact whenNotBusy_stepped (accessOutcome_stepped fun _ => hostObufRead_accessed)
  | wait =>
    rw [hostMove]
    split
    · exact outcomeStepped_next (.access ⟨rfl, id⟩)
    · exact MoveStepped.after (accessed_script s _ _) (coreMove_stepped _)
  | copyback => exact whenNotBusy_stepped (accessOutcome_stepped fun _ => copyback_accessed)
  | reset => exact outcomeStepped_next (.reset (.refl s))

theorem nextMove_stepped (s : State) : MoveStepped s (nextMove s) := by
  unfold nextMove
  split
  · exact coreMove_stepped s
  · next m rest _ => exact MoveStepped.after (accessed_script s rest s.reply) (hostMove_stepped m _)

theorem step_stepped {s t : State} (h : step s = .next t) : Stepped s t := by
  have hm := nextMove_stepped s
  rcases step_cases h with hn | ⟨i, u, hn, he⟩ | ⟨i, u, hn, he⟩ <;> rw [hn] at hm
  · exact hm t rfl
  · exact hm t he
  · exact hm t he

/-! ### The buffers -/

/-- The parameters stay, and the buffers stay canonical and inside their capacities. -/
def KeepsBuffers (s t : State) : Prop := t.cfg = s.cfg ∧ (BuffersInv s → BuffersInv t)

theorem KeepsBuffers.trans {a b c : State} (h : KeepsBuffers a b) (k : KeepsBuffers b c) : KeepsBuffers a c :=
  ⟨k.1.trans h.1, k.2 ∘ h.2⟩

theorem Frame.keepsBuffers {s t : State} (h : Frame s t) : KeepsBuffers s t := by
  obtain ⟨⟨hcfg, -, hibuf, -, -⟩, hobuf⟩ := h
  refine ⟨hcfg, fun hs => ?_⟩
  obtain ⟨hi, ho⟩ := buffersInv_iff.1 hs
  refine buffersInv_iff.2 ⟨?_, hobuf ho⟩
  rwa [IbufFits, hibuf, hcfg]

theorem Accessed.keepsBuffers {s t : State} (h : Accessed s t) : KeepsBuffers s t := by
  obtain ⟨ht, hibuf⟩ := h
  have hcfg : t.cfg = s.cfg := by rw [ht]
  have hobuf : t.obuf = s.obuf := by rw [ht]
  refine ⟨hcfg, fun hs => ?_⟩
  obtain ⟨hi, ho⟩ := buffersInv_iff.1 hs
  refine buffersInv_iff.2 ⟨hibuf hi, ?_⟩
  rwa [ObufFits, hobuf, hcfg]

theorem applyReset_keepsBuffers (s : State) : KeepsBuffers s s.applyReset :=
  ⟨rfl, fun _ => ⟨Memory.wf_nil, Memory.wf_nil, fun _ hc => (List.not_mem_nil hc).elim,
    fun _ hc => (List.not_mem_nil hc).elim⟩⟩

theorem PhaseStep.frame {s t : State} (h : PhaseStep s t) : Frame s t := by
  cases h with
  | next hw _ => exact hw.frame
  | done hw _ => exact hw.frame
  | raised hw _ => exact hw.frame.trans (frame_raiseErr _ _)

/-- Settles O57: host accesses write inside IBUF, and everything else frames both buffers. -/
theorem stepKeepsTheBuffers : Obligations.StepKeepsTheBuffers := by
  intro s t h
  cases step_stepped h with
  | access ha => exact ha.keepsBuffers
  | illegal ha => exact ha.keepsBuffers.trans ((frame_startCommand _).trans (frame_raiseErr _ _)).keepsBuffers
  | reset ha => exact ha.keepsBuffers.trans (applyReset_keepsBuffers _)
  | command ha _ he => exact ha.keepsBuffers.trans (exec_frame he).keepsBuffers
  | phase ha _ hp => exact ha.keepsBuffers.trans hp.frame.keepsBuffers

/-! ### The status fields -/

/-- A command is running and nothing has gone wrong. -/
def Active (s : State) : Prop := s.stat = .busy ∧ s.err = .ok ∧ s.outLen = 0

theorem statusInv_raiseErr (s : State) (e : Err) : StatusInv (s.raiseErr e) := by simp [StatusInv]

theorem applyReset_statusInv (s : State) : StatusInv s.applyReset := by simp [StatusInv, State.reset]

theorem Active.statusInv_endCommand {s : State} (h : Active s) (len : Nat) : StatusInv (s.endCommand len) := by
  simp [StatusInv, h.2.1]

theorem Active.statusInv_enterPhase {s : State} (h : Active s) {p : Phase} (hp : p ≠ .none) :
    StatusInv (s.enterPhase p) := by
  obtain ⟨hb, he, hl⟩ := h
  simp [StatusInv, hb, he, hl, hp]

theorem StatusInv.active {s : State} (h : StatusInv s) (hb : s.stat = .busy) : Active s := by
  obtain ⟨-, hok, -, -⟩ := h
  obtain ⟨he, hl⟩ := hok (by rw [hb]; decide)
  exact ⟨hb, he, hl⟩

theorem Active.works {s t : State} (h : Active s) (hw : Works s t) : Active t := by
  obtain ⟨-, hs, -, he, hl⟩ := hw
  exact ⟨hs.trans h.1, he.trans h.2.1, hl.trans h.2.2⟩

theorem Active.enterPhase {s : State} (h : Active s) (p : Phase) : Active (s.enterPhase p) := h

theorem Accessed.statusInv {s t : State} (h : Accessed s t) (hs : StatusInv s) : StatusInv t := by
  rw [h.1]
  exact hs

/-- The core's step in a BUSY state. -/
theorem PhaseStep.statusInv {s t : State} (h : PhaseStep s t) (hs : Active s) : StatusInv t := by
  cases h with
  | next hw hq =>
    refine (hs.works hw).statusInv_enterPhase ?_
    rintro rfl
    simp [phaseSuccessors] at hq
  | done hw _ => exact (hs.works hw).statusInv_endCommand _
  | raised _ _ => exact statusInv_raiseErr _ _

/-- A normal end is one with `P`. -/
def OkIs (P : State → Prop) (r : Except Stop State) : Prop := ∀ t, r = .ok t → P t

theorem OkIs.bind {P Q : State → Prop} {r : Except Stop State} {f : State → Except Stop State} (h : OkIs P r)
    (hf : ∀ t, P t → OkIs Q (f t)) : OkIs Q (r >>= f) := by
  cases r with
  | ok t => exact hf t (h t rfl)
  | error x => intro t ht; cases ht

theorem okIs_ok {P : State → Prop} {t : State} (h : P t) : OkIs P (.ok t) := fun _ ht => by cases ht; exact h

theorem Active.ran {s : State} (h : Active s) {r : Except Stop State} (hr : Ran Works s r) : OkIs Active r := by
  rintro t rfl
  exact h.works hr

theorem beginCommand_active (p : Phase) (s : State) : OkIs Active (beginCommand p s) := by
  rcases beginCommand_cases p s with ⟨-, h⟩ | ⟨-, h⟩ <;> rw [h]
  · intro t ht; cases ht
  · exact okIs_ok ⟨rfl, rfl, rfl⟩

theorem Active.endEmpty {s : State} (h : Active s) : OkIs StatusInv (endEmpty s) := by
  rcases endEmpty_cases s with he | ⟨m, hm, he⟩ <;> rw [he]
  · intro t ht; cases ht
  · exact okIs_ok ((h.works hm).statusInv_endCommand 2)

theorem encodeWhole_statusInv (s : State) : OkIs StatusInv (encodeWhole s) := by
  refine OkIs.bind (beginCommand_active _ s) fun a ha => ?_
  refine OkIs.bind (ha.ran (ran_fcount a)) fun b hb => ?_
  split
  · exact hb.endEmpty
  · refine OkIs.bind ((hb.enterPhase .tbuild).ran (ran_tbuild _)) fun c hc => ?_
    refine OkIs.bind ((hc.enterPhase .cgen).ran (ran_cgen _)) fun d hd => ?_
    refine OkIs.bind (hd.ran (ran_measureOutput d)) fun e he => ?_
    refine OkIs.bind ((he.enterPhase .bpack).ran (ran_bpack _)) fun f hf => ?_
    exact OkIs.bind ((hf.enterPhase .tser).ran (ran_tser _)) fun g hg => okIs_ok (hg.statusInv_endCommand _)

theorem decodeWhole_statusInv (s : State) : OkIs StatusInv (decodeWhole s) := by
  refine OkIs.bind (beginCommand_active _ s) fun a ha => ?_
  refine OkIs.bind (ha.ran (ran_tdes a)) fun b hb => ?_
  exact OkIs.bind ((hb.enterPhase .bwalk).ran (ran_bwalk _)) fun c hc => okIs_ok (hc.statusInv_endCommand _)

theorem beginCommand_statusInv {p : Phase} (hp : p ≠ .none) (s : State) : OkIs StatusInv (beginCommand p s) := by
  rcases beginCommand_cases p s with ⟨-, h⟩ | ⟨-, h⟩ <;> rw [h]
  · intro t ht; cases ht
  · exact okIs_ok (Active.statusInv_enterPhase (s := s.startCommand) ⟨rfl, rfl, rfl⟩ hp)

theorem OkIs.statusInv_finish {r : Except Stop State} (h : OkIs StatusInv r) {t : State} (ht : finish r = .next t) :
    StatusInv t := by
  rcases finish_next ht with rfl | ⟨e, u, rfl, rfl⟩
  · exact h t rfl
  · exact statusInv_raiseErr u e

/-- A command's status fields do not depend on what they were before. -/
theorem command_statusInv {i : Instr} {s t : State} (hi : i = .encode ∨ i = .decode) (h : exec i s = .next t) :
    StatusInv t := by
  rcases hi with rfl | rfl
  · rcases execEncode_cases h with h | h
    · exact (encodeWhole_statusInv s).statusInv_finish h
    · exact (beginCommand_statusInv (by decide) s).statusInv_finish h
  · rcases execDecode_cases h with h | h
    · exact (decodeWhole_statusInv s).statusInv_finish h
    · exact (beginCommand_statusInv (by decide) s).statusInv_finish h

/-- Settles O58: host accesses leave the status fields alone, and every other step sets them. -/
theorem stepKeepsTheStatusFields : Obligations.StepKeepsTheStatusFields := by
  intro s t hs h
  cases step_stepped h with
  | access ha => exact ha.statusInv hs
  | illegal _ => exact statusInv_raiseErr _ _
  | reset _ => exact applyReset_statusInv _
  | command _ hi he => exact command_statusInv hi he
  | phase ha hb hp => exact hp.statusInv (StatusInv.active (ha.statusInv hs) hb)

end Sys2Proof.Machine

/-! ## The arena is one tree -/

namespace Sys2Proof.Machine

/-- Node `k` of the arena is a parent of node `j`. -/
def IsParent (ns : List Node) (k j : Nat) : Prop :=
  ∃ l r, ns[k]?.map Node.kind = some (.internal l r) ∧ (l = j ∨ r = j)

theorem isParent_iff {ns : List Node} {k j : Nat} : IsParent ns k j ↔
    ∃ (nd : Node) (l r : Nat), ns[k]? = some nd ∧ nd.kind = .internal l r ∧ (l = j ∨ r = j) := by
  constructor
  · rintro ⟨l, r, h, hlr⟩
    obtain ⟨nd, hnd, hk⟩ := Option.map_eq_some_iff.1 h
    exact ⟨nd, l, r, hnd, hk, hlr⟩
  · rintro ⟨nd, l, r, hnd, hk, hlr⟩
    exact ⟨l, r, by rw [hnd, Option.map_some, hk], hlr⟩

/-- What every merge keeps (10_state.md R35): a node's two children differ and come before it, a candidate has no
parent, and a node that is no candidate has exactly one. -/
structure Forest (ns : List Node) : Prop where
  children : ∀ i l r, ns[i]?.map Node.kind = some (.internal l r) → l < i ∧ r < i ∧ l ≠ r
  candidate : ∀ j, ns[j]?.map Node.live = some true → ∀ k, ¬ IsParent ns k j
  merged : ∀ j, ns[j]?.map Node.live = some false → ∃ i, ∀ k, IsParent ns k j ↔ k = i

theorem lt_length_of_map {α : Type} {ns : List Node} {f : Node → α} {i : Nat} {x : α} (h : ns[i]?.map f = some x) :
    i < ns.length := by
  obtain ⟨nd, hnd, -⟩ := Option.map_eq_some_iff.1 h
  exact (List.getElem?_eq_some_iff.1 hnd).1

/-- The leaves are candidates and have no children. -/
theorem leafNodes_forest (f : Vector Nat 256) : Forest (leafNodes f) := by
  have leaf {i : Nat} {nd : Node} (h : (leafNodes f)[i]? = some nd) : nd.live = true ∧ ∃ b, nd.kind = .leaf b := by
    obtain ⟨hl, hk, -⟩ := mem_leafNodes (List.mem_of_getElem? h)
    exact ⟨hl, hk⟩
  have noChildren {i l r : Nat} : (leafNodes f)[i]?.map Node.kind ≠ some (.internal l r) := by
    intro h
    obtain ⟨nd, hnd, hk⟩ := Option.map_eq_some_iff.1 h
    obtain ⟨-, b, hb⟩ := leaf hnd
    rw [hb] at hk; cases hk
  refine ⟨fun i l r h => absurd h noChildren, fun j _ k ⟨l, r, h, _⟩ => noChildren h, fun j h => ?_⟩
  obtain ⟨nd, hnd, hl⟩ := Option.map_eq_some_iff.1 h
  rw [(leaf hnd).1] at hl; cases hl

/-! ### A merge -/

/-- Marking a node as merged, node by node. -/
theorem markMerged_getElem? (ns : List Node) (i j : Nat) :
    (markMerged ns i)[j]? = ns[j]?.map fun nd => { nd with live := nd.live && i != j } := by
  rw [markMerged, List.getElem?_modify]
  cases ns[j]? with
  | none => rfl
  | some nd =>
    by_cases h : i = j
    · simp [h]
    · simp [h, bne_iff_ne.2 h]

/-- The arena after a merge of `a` and `b`: those two are no longer candidates, and their parent, which is one, is the
last node. -/
structure Merged (ns : List Node) (a b : Nat) (ms : List Node) : Prop where
  ne : a ≠ b
  left : ns[a]?.map Node.live = some true
  right : ns[b]?.map Node.live = some true
  kinds : ∀ k, ms[k]?.map Node.kind = if k = ns.length then some (.internal a b) else ns[k]?.map Node.kind
  lives : ∀ k, ms[k]?.map Node.live =
    if k = ns.length then some true else ns[k]?.map fun nd => nd.live && a != k && b != k

theorem mergeStep_merged (ns : List Node) : mergeStep ns = ns ∨ ∃ a b, Merged ns a b (mergeStep ns) := by
  rcases mergeStep_cases ns with he | ⟨a, b, ha, hb, he⟩
  · exact .inl he
  obtain ⟨x, hx, hxl⟩ := lowestLive_live ha
  obtain ⟨y, hy, hyl⟩ := lowestLive_live hb
  rw [markMerged_getElem?] at hy
  obtain ⟨z, hz, rfl⟩ := Option.map_eq_some_iff.1 hy
  simp only [Bool.and_eq_true, bne_iff_ne] at hyl
  have nodes (k : Nat) : (mergeStep ns)[k]? =
      if k = ns.length then some { kind := .internal a b, w := nodeWeight ns a + nodeWeight ns b, live := true }
      else ns[k]?.map fun nd => { nd with live := nd.live && a != k && b != k } := by
    rw [he]
    rcases Nat.lt_trichotomy k ns.length with hk | rfl | hk
    · rw [if_neg hk.ne, List.getElem?_append_left (by simpa using hk), markMerged_getElem?, markMerged_getElem?,
        Option.map_map]
      rfl
    · simp
    · rw [if_neg hk.ne', List.getElem?_eq_none hk.le, List.getElem?_eq_none (by simpa using hk)]
      rfl
  refine .inr ⟨a, b, hyl.2, by simp [hx, hxl], by simp [hz, hyl.1], fun k => ?_, fun k => ?_⟩
  all_goals rw [nodes]; split <;> simp [Function.comp_def]

/-- A merge gives `a` and `b` a parent, and no other node. -/
theorem Merged.isParent {ns ms : List Node} {a b k j : Nat} (h : Merged ns a b ms) :
    IsParent ms k j ↔ IsParent ns k j ∨ (k = ns.length ∧ (a = j ∨ b = j)) := by
  by_cases hk : k = ns.length
  · have none : ¬ IsParent ns k j := fun ⟨l, r, hkind, _⟩ => absurd (lt_length_of_map hkind) (Nat.not_lt.2 hk.ge)
    have hkind := h.kinds k
    rw [if_pos hk] at hkind
    constructor
    · rintro ⟨l, r, hlr, hj⟩
      cases hkind.symm.trans hlr
      exact .inr ⟨hk, hj⟩
    · rintro (hp | ⟨-, hab⟩)
      · exact absurd hp none
      · exact ⟨a, b, hkind, hab⟩
  · have hkind := h.kinds k
    rw [if_neg hk] at hkind
    simp [IsParent, hkind, hk]

theorem Merged.forest {ns ms : List Node} {a b : Nat} (h : Merged ns a b ms) (hf : Forest ns) : Forest ms := by
  have ha := lt_length_of_map h.left
  have hb := lt_length_of_map h.right
  refine ⟨fun i l r hi => ?_, fun j hj k hk => ?_, fun j hj => ?_⟩
  · rw [h.kinds] at hi
    split at hi
    · next hlen => cases hi; exact ⟨hlen ▸ ha, hlen ▸ hb, h.ne⟩
    · exact hf.children i l r hi
  · rw [h.lives] at hj
    split at hj
    · next hlen =>
      rcases h.isParent.1 hk with ⟨l, r, hkind, hlr⟩ | ⟨-, hab⟩
      · have := lt_length_of_map hkind
        obtain ⟨hl, hr, -⟩ := hf.children k l r hkind
        omega
      · omega
    · obtain ⟨nd, hnd, hl⟩ := Option.map_eq_some_iff.1 hj
      simp only [Bool.and_eq_true, bne_iff_ne] at hl
      obtain ⟨⟨hl, hja⟩, hjb⟩ := hl
      rcases h.isParent.1 hk with hp | ⟨-, hab⟩
      · exact hf.candidate j (by simp [hnd, hl]) k hp
      · exact hab.elim hja hjb
  · rw [h.lives] at hj
    split at hj
    · cases hj
    · obtain ⟨nd, hnd, hl⟩ := Option.map_eq_some_iff.1 hj
      by_cases hab : a = j ∨ b = j
      · have hlive : ns[j]?.map Node.live = some true := by
          rcases hab with rfl | rfl
          · exact h.left
          · exact h.right
        exact ⟨ns.length, fun k => by simp [h.isParent, hab, hf.candidate j hlive k]⟩
      · have hlive : nd.live = false := by
          rw [not_or] at hab
          simpa [hab.1, hab.2] using hl
        obtain ⟨i, hi⟩ := hf.merged j (by simp [hnd, hlive])
        exact ⟨i, fun k => by simp [h.isParent, hab, hi]⟩

theorem mergeLoop_forest (k : Nat) {ns : List Node} (h : Forest ns) : Forest (mergeLoop k ns) := by
  induction k generalizing ns with
  | zero => exact h
  | succ k ih =>
    unfold mergeLoop
    split
    · rcases mergeStep_merged ns with he | ⟨a, b, hm⟩
      · exact ih (he.symm ▸ h)
      · exact ih (hm.forest h)
    · exact h

/-! ### One candidate is left -/

theorem lowestLive_of_liveCount {ns : List Node} (h : 1 ≤ liveCount ns) : ∃ i, lowestLive ns = some i := by
  obtain ⟨nd, hnd, hl⟩ := List.countP_pos_iff.1 h
  exact lowestLive_of_live hnd hl

/-- With two candidates or more a merge takes one candidate away (42_tree_builder.md R176). -/
theorem mergeStep_liveCount {ns : List Node} (h : 1 < liveCount ns) : liveCount (mergeStep ns) + 1 = liveCount ns := by
  obtain ⟨a, ha⟩ := lowestLive_of_liveCount h.le
  obtain ⟨x, hx, hxl⟩ := lowestLive_live ha
  have h₁ := (markMerged_live hx hxl).1
  obtain ⟨b, hb⟩ := lowestLive_of_liveCount (ns := markMerged ns a) (by omega)
  obtain ⟨y, hy, hyl⟩ := lowestLive_live hb
  have h₂ := (markMerged_live hy hyl).1
  have hm : liveCount (mergeStep ns) = liveCount (markMerged (markMerged ns a) b) + 1 := by
    simp [mergeStep, ha, hb, liveCount]
  omega

theorem mergeLoop_liveCount (k : Nat) {ns : List Node} (h : liveCount ns ≤ k + 1) : liveCount (mergeLoop k ns) ≤ 1 := by
  induction k generalizing ns with
  | zero => exact h
  | succ k ih =>
    unfold mergeLoop
    split
    · next hlt =>
      have := mergeStep_liveCount hlt
      exact ih (by omega)
    · next hle => exact Nat.le_of_not_lt hle

/-- Where one candidate is left, the lowest is the only one. -/
theorem live_eq_lowestLive {ns : List Node} {i j : Nat} (hc : liveCount ns ≤ 1) (hi : lowestLive ns = some i)
    (hj : ns[j]?.map Node.live = some true) : j = i := by
  obtain ⟨x, hx, hxl⟩ := lowestLive_live hi
  have hcount := (markMerged_live hx hxl).1
  obtain ⟨nd, hnd, hl⟩ := Option.map_eq_some_iff.1 hj
  by_contra hne
  have hmem : nd ∈ markMerged ns i := by
    refine List.mem_of_getElem? (i := j) ?_
    rw [markMerged_getElem?, hnd]
    simp [bne_iff_ne.2 (Ne.symm hne)]
  have : 0 < liveCount (markMerged ns i) := List.countP_pos_iff.2 ⟨nd, hmem, hl⟩
  omega

/-- Settles O28: a forest with one candidate left, which is ROOT. -/
theorem arenaIsATree : Obligations.ArenaIsATree := by
  intro s t hn hp ht
  obtain ⟨root, hroot, htb⟩ := tbuild_of_present hn hp
  have forest : Forest (buildArena [] s.freq) := mergeLoop_forest _ (leafNodes_forest s.freq)
  have count : liveCount (buildArena [] s.freq) ≤ 1 := mergeLoop_liveCount _ (Nat.le_succ _)
  change finish (tbuild s) = .next t at ht
  rw [htb] at ht
  cases ht
  refine ⟨fun i nd l r hnd hk => forest.children i l r (by simp [hnd, hk]), fun j hj hne => ?_⟩
  have hlive : (buildArena [] s.freq)[j]?.map Node.live = some false := by
    rw [List.getElem?_eq_getElem hj, Option.map_some, Option.some_inj, Bool.eq_false_iff]
    exact fun hl => hne (live_eq_lowestLive count hroot (by rw [List.getElem?_eq_getElem hj, Option.map_some, hl]))
  obtain ⟨i, hi⟩ := forest.merged j hlive
  exact ⟨i, fun k => isParent_iff.symm.trans (hi k)⟩

end Sys2Proof.Machine

/-! ## Operand bytes the host never wrote -/

namespace Sys2Proof.Machine

/-! ### Reads -/

/-- A read inside IBUF, where every written byte leads to the fault. -/
theorem bindRead_unwritten {s : State} {i : Nat} {f : Byte → Except Stop State} (hi : i < s.cfg.ibufBytes)
    (hf : ∀ b, s.ibuf.read i = some b → f b = .error (.fault .ibufUnwritten)) :
    (ibufRead s i >>= f) = .error (.fault .ibufUnwritten) := by
  cases hr : s.ibuf.read i with
  | none => simp [ibufRead, ibufByte, hi, hr, bind, Except.bind]
  | some b => rw [ibufRead_of_read hi hr]; exact hf b hr

/-- A read that a normal end comes after read a written byte. -/
theorem OkIs.bindRead {P : State → Prop} {s : State} {i : Nat} {f : Byte → Except Stop State}
    (hf : ∀ b, s.ibuf.read i = some b → OkIs P (f b)) : OkIs P (ibufRead s i >>= f) := by
  cases h : ibufRead s i with
  | ok b => exact hf b (ibufRead_ok h).2
  | error x => intro t ht; cases ht

theorem okIs_raised {P : State → Prop} (e : Err) (u : State) : OkIs P (.error (.raised e u)) := fun _ ht => by cases ht

theorem okIs_obufWrite {s : State} {i : Nat} {b : Byte} :
    OkIs (fun t => ∃ m, t = { s with obuf := m }) (obufWrite s i b) := by
  rcases obufWrite_cases s i b with ⟨-, h⟩ | ⟨-, h⟩ <;> rw [h]
  · exact okIs_ok ⟨_, rfl⟩
  · intro t ht; cases ht

/-! ### FCOUNT -/

theorem fcountLoop_unwritten {k i : Nat} {s : State} (hcap : s.ipos + k ≤ s.cfg.ibufBytes) (hle : s.ipos ≤ i)
    (hlt : i < s.ipos + k) (hr : s.ibuf.read i = none) : fcountLoop k s = .error (.fault .ibufUnwritten) := by
  induction k generalizing s with
  | zero => omega
  | succ k ih =>
    refine bindRead_unwritten (by omega) fun b hb => ih (s := countNext s b) ?_ ?_ ?_ hr
    · show s.ipos + 1 + k ≤ s.cfg.ibufBytes
      omega
    · show s.ipos + 1 ≤ i
      have : i ≠ s.ipos := by rintro rfl; rw [hr] at hb; cases hb
      omega
    · show i < s.ipos + 1 + k
      omega

theorem fcount_unwritten {s : State} {i : Nat} (hn : s.n ≤ s.cfg.ibufBytes) (hi : i < s.n)
    (hr : s.ibuf.read i = none) : fcount s = .error (.fault .ibufUnwritten) :=
  fcountLoop_unwritten (s := { s with ipos := 0 }) ((Nat.zero_add _).trans_le hn) (Nat.zero_le i)
    (hi.trans_eq (Nat.zero_add _).symm) hr

/-- Settles O25: FCOUNT reads every byte of the operand. -/
theorem fcountOfAnUnwrittenByteFaults : Obligations.FcountOfAnUnwrittenByteFaults :=
  fun _ _ hn hi hr => congrArg finish (fcount_unwritten hn hi hr)

/-! ### BPACK -/

/-- `k` bits have been packed, pending ones included. -/
structure Packed (k : Nat) (s t : State) : Prop where
  cfg : t.cfg = s.cfg
  ibuf : t.ibuf = s.ibuf
  code : t.code = s.code
  ipos : t.ipos = s.ipos
  bits : 8 * t.opos + t.pkN.val = 8 * s.opos + s.pkN.val + k

/-- A bit is packed when OBUF has room for it. -/
theorem packBit_packed (bit : Bool) {s : State} (h : 8 * s.opos + s.pkN.val + 1 ≤ 8 * s.cfg.obufBytes) :
    ∃ t, packBit bit s = .ok t ∧ Packed 1 s t := by
  by_cases hfull : s.pkN = 7
  · have hpend : s.pkN.val = 7 := congrArg Fin.val hfull
    have hroom : s.opos < s.cfg.obufBytes := by omega
    refine ⟨{ s with
      totalBits := s.totalBits + 1, obuf := s.obuf.write s.opos (s.pkAcc + BitVec.ofNat 8 (bitWeight bit s.pkN.val))
      opos := s.opos + 1, pkAcc := 0, pkN := 0 }, ?_, rfl, rfl, rfl, rfl, ?_⟩
    · simp only [packBit, if_pos hfull, obufWrite, if_pos hroom]
      rfl
    · show 8 * (s.opos + 1) + 0 = 8 * s.opos + s.pkN.val + 1
      omega
  · refine ⟨_, if_neg hfull, rfl, rfl, rfl, rfl, ?_⟩
    have hnext : (s.pkN + 1).val = s.pkN.val + 1 := Fin.val_add_one_of_lt (Fin.lt_last_iff_ne_last.2 hfull)
    show 8 * s.opos + (s.pkN + 1).val = 8 * s.opos + s.pkN.val + 1
    omega

theorem packBits_packed (bits : Bits) {s : State}
    (h : 8 * s.opos + s.pkN.val + bits.length ≤ 8 * s.cfg.obufBytes) :
    ∃ t, packBits bits s = .ok t ∧ Packed bits.length s t := by
  induction bits generalizing s with
  | nil => exact ⟨s, rfl, rfl, rfl, rfl, rfl, rfl⟩
  | cons bit bits ih =>
    rw [List.length_cons] at h
    obtain ⟨t, ht, hst⟩ := packBit_packed bit (s := s) (by omega)
    have hbits := hst.bits
    obtain ⟨u, hu, htu⟩ := ih (s := t) (by rw [hst.cfg]; omega)
    refine ⟨u, ?_, htu.cfg.trans hst.cfg, htu.ibuf.trans hst.ibuf, htu.code.trans hst.code, htu.ipos.trans hst.ipos, ?_⟩
    · rw [packBits, ht]; exact hu
    · rw [htu.bits, hbits, List.length_cons]; omega

theorem bpackLoop_unwritten {k i : Nat} {s : State} (hcap : s.ipos + k ≤ s.cfg.ibufBytes) (hcode : CodesFit s.code)
    (hroom : 8 * s.opos + s.pkN.val + 255 * k ≤ 8 * s.cfg.obufBytes) (hle : s.ipos ≤ i) (hlt : i < s.ipos + k)
    (hr : s.ibuf.read i = none) : bpackLoop k s = .error (.fault .ibufUnwritten) := by
  induction k generalizing s with
  | zero => omega
  | succ k ih =>
    refine bindRead_unwritten (by omega) fun b hb => ?_
    have hlen := hcode b
    have hne : i ≠ s.ipos := by rintro rfl; rw [hr] at hb; cases hb
    obtain ⟨t, ht, hst⟩ := packBits_packed (s.code.get b.toFin) (s := s) (by omega)
    have hbits := hst.bits
    have hipos := hst.ipos
    rw [ht]
    refine ih (s := { t with ipos := t.ipos + 1 }) ?_ (hst.code ▸ hcode) ?_ ?_ ?_ (hst.ibuf ▸ hr)
    · show t.ipos + 1 + k ≤ t.cfg.ibufBytes
      rw [hst.cfg]; omega
    · show 8 * t.opos + t.pkN.val + 255 * k ≤ 8 * t.cfg.obufBytes
      rw [hst.cfg]; omega
    · show t.ipos + 1 ≤ i
      omega
    · show i < t.ipos + 1 + k
      omega

theorem bpack_unwritten {s : State} {i : Nat} (hn : s.n ≤ s.cfg.ibufBytes) (hi : i < s.n) (hr : s.ibuf.read i = none)
    (hcode : CodesFit s.code) (hroom : s.hdrLen + 32 * s.n ≤ s.cfg.obufBytes) :
    bpack s = .error (.fault .ibufUnwritten) := by
  have hloop := bpackLoop_unwritten (i := i) (k := s.n)
    (s := { s with opos := s.hdrLen, pkAcc := 0, pkN := 0, totalBits := 0, ipos := 0 })
    ((Nat.zero_add _).trans_le hn) hcode (by show 8 * s.hdrLen + 0 + 255 * s.n ≤ 8 * s.cfg.obufBytes; omega)
    (Nat.zero_le i) (hi.trans_eq (Nat.zero_add _).symm) hr
  rw [bpack, hloop]
  rfl

/-! ### TDES -/

theorem tdes_unwritten {s : State} {i : Nat} (hn : s.n ≤ s.cfg.ibufBytes) (h2 : 2 ≤ s.n) (hi : i < 2)
    (hr : s.ibuf.read i = none) : tdes s = .error (.fault .ibufUnwritten) := by
  have header : readHeader s = .error (.fault .ibufUnwritten) := by
    rw [readHeader, if_neg (Nat.not_lt.2 h2)]
    refine bindRead_unwritten (by omega) fun t ht => bindRead_unwritten (by omega) fun p hp => ?_
    obtain rfl | rfl : i = 0 ∨ i = 1 := by omega
    · rw [hr] at ht; cases ht
    · rw [hr] at hp; cases hp
  rw [tdes, header]
  rfl

theorem ibufReadRange_written {s : State} {i k : Nat} {bs : List Byte} (h : ibufReadRange s i k = .ok bs) (j : Nat)
    (hle : i ≤ j) (hlt : j < i + k) : s.ibuf.read j ≠ none := by
  induction k generalizing i bs with
  | zero => omega
  | succ k ih =>
    cases hb : ibufRead s i with
    | error x => simp [ibufReadRange, hb, bind, Except.bind] at h
    | ok b =>
      cases hbs : ibufReadRange s (i + 1) k with
      | error x => simp [ibufReadRange, hb, hbs, bind, Except.bind] at h
      | ok cs =>
        rcases Nat.eq_or_lt_of_le hle with rfl | hlt'
        · rw [(ibufRead_ok hb).2]; exact Option.some_ne_none b
        · exact ih hbs hlt' (by omega)

/-- Every byte before the cursor has a value. -/
def WrittenBefore (s : State) : Prop := ∀ j < s.ipos, s.ibuf.read j ≠ none

theorem readEntry_written {s : State} (h : WrittenBefore s) : OkIs WrittenBefore (readEntry s) := by
  unfold readEntry
  split
  · exact okIs_raised _ s
  refine OkIs.bindRead fun sym hsym => OkIs.bindRead fun len hlen => ?_
  split
  · exact okIs_raised _ s
  split
  · exact okIs_raised _ s
  rcases hrange : ibufReadRange s (s.ipos + 2) (ceil8 len.toNat) with x | bs
  · intro t ht; cases ht
  refine okIs_ok fun j hj => ?_
  have hj : j < s.ipos + (2 + ceil8 len.toNat) := hj
  show s.ibuf.read j ≠ none
  obtain hj | rfl | rfl | hj' : j < s.ipos ∨ j = s.ipos ∨ j = s.ipos + 1 ∨ s.ipos + 2 ≤ j := by omega
  · exact h j hj
  · simp [hsym]
  · simp [hlen]
  · exact ibufReadRange_written hrange j hj' (by omega)

theorem readEntries_written (k : Nat) {s : State} (h : WrittenBefore s) : OkIs WrittenBefore (readEntries k s) := by
  induction k generalizing s with
  | zero => exact okIs_ok h
  | succ k ih => exact OkIs.bind (readEntry_written h) fun t ht => ih ht

theorem readHeader_written (s : State) : OkIs (fun t => ∀ j < 2, t.ibuf.read j ≠ none) (readHeader s) := by
  unfold readHeader
  split
  · exact okIs_raised _ s
  refine OkIs.bindRead fun t ht => OkIs.bindRead fun p hp => ?_
  have written : ∀ j < 2, s.ibuf.read j ≠ none := by
    intro j hj
    obtain rfl | rfl : j = 0 ∨ j = 1 := by omega
    · simp [ht]
    · simp [hp]
  dsimp only
  split_ifs
  · exact okIs_ok written
  · exact okIs_raised _ _
  · exact okIs_ok written

/-- TDES ends its table before the first byte that has no value. -/
theorem tdes_written (s : State) : OkIs (fun t => ∀ j < t.payStart, t.ibuf.read j ≠ none) (tdes s) :=
  OkIs.bind (readHeader_written s) fun t ht =>
    OkIs.bind (readEntries_written t.tn (s := { t with ipos := 2 }) ht) fun _ hu => okIs_ok hu

theorem tdes_payStart_le {s t : State} {i : Nat} (hr : s.ibuf.read i = none) (h : tdes s = .ok t) :
    t.payStart ≤ i ∧ t.n = s.n ∧ t.ibuf = s.ibuf ∧ t.cfg = s.cfg := by
  have frame : DecoderFrame s t := by have := ends_tdes s; rwa [h] at this
  obtain ⟨⟨hcfg, -, hibuf, -, -⟩, -, -, -, -, -, -, -, -, -, -, hn, -⟩ := frame
  exact ⟨Nat.le_of_not_lt fun hlt => tdes_written s t h i hlt (hibuf ▸ hr), hn, hibuf, hcfg⟩

/-! ### BWALK -/

/-- The scan of a byte's bits leaves IBUF and its cursor alone. -/
def SameInput (s t : State) : Prop := t.ibuf = s.ibuf ∧ t.ipos = s.ipos

theorem emitSymbol_sameInput (sym : Byte) (s : State) : OkIs (SameInput s) (emitSymbol sym s) := by
  unfold emitSymbol
  split
  · exact okIs_raised _ s
  · refine OkIs.bind okIs_obufWrite fun t ⟨m, ht⟩ => ?_
    subst ht
    exact okIs_ok ⟨rfl, rfl⟩

theorem scanBit_sameInput (bit : Bool) (s : State) : OkIs (SameInput s) (scanBit bit s) := by
  unfold scanBit
  dsimp only
  split
  · exact emitSymbol_sameInput _ { s with acc := s.acc ++ [bit] }
  · split
    · exact okIs_raised _ _
    · exact okIs_ok ⟨rfl, rfl⟩

theorem scanBits_sameInput (bits : Bits) (s : State) : OkIs (SameInput s) (scanBits bits s) := by
  induction bits generalizing s with
  | nil => exact okIs_ok ⟨rfl, rfl⟩
  | cons bit bits ih =>
    refine OkIs.bind (scanBit_sameInput bit s) fun t ht u hu => ?_
    obtain ⟨hibuf, hipos⟩ := ih t u hu
    exact ⟨hibuf.trans ht.1, hipos.trans ht.2⟩

/-- BWALK's loop ends normally only after reading every payload byte. -/
theorem walkBytes_written (k : Nat) (s : State) :
    OkIs (fun _ => ∀ j, s.ipos ≤ j → j < s.ipos + k → s.ibuf.read j ≠ none) (walkBytes k s) := by
  induction k generalizing s with
  | zero => exact okIs_ok fun j _ _ => by omega
  | succ k ih =>
    refine OkIs.bindRead fun b hb => OkIs.bind (scanBits_sameInput _ s) fun t ht u hu j hle hlt => ?_
    obtain ⟨hibuf, hipos⟩ := ht
    rcases Nat.eq_or_lt_of_le hle with rfl | hlt'
    · simp [hb]
    · have later := ih { t with ipos := t.ipos + 1 } u hu j
      dsimp only at later
      rw [hipos, hibuf] at later
      exact later hlt' (by omega)

theorem bwalk_ne_ok {s : State} {i : Nat} (hle : s.payStart ≤ i) (hi : i < s.n) (hr : s.ibuf.read i = none)
    (t : State) : bwalk s ≠ .ok t := by
  have walk := walkBytes_written (s.n - s.payStart) { s with acc := [], ocnt := 0, ipos := s.payStart, opos := 0 }
  refine OkIs.bind (Q := fun _ => False) walk (fun u hu => ?_) t
  exact absurd hr (hu i hle (by dsimp only; omega))

theorem bwalk_unwritten {s : State} (hn : s.n ≤ s.cfg.ibufBytes) (hi : s.payStart < s.n)
    (hr : s.ibuf.read s.payStart = none) : bwalk s = .error (.fault .ibufUnwritten) := by
  obtain ⟨k, hk⟩ : ∃ k, s.n - s.payStart = k + 1 := ⟨s.n - s.payStart - 1, by omega⟩
  have walk : walkBytes (k + 1) { s with acc := [], ocnt := 0, ipos := s.payStart, opos := 0 } =
      .error (.fault .ibufUnwritten) :=
    bindRead_unwritten (hi.trans_le hn) fun b hb => by rw [hr] at hb; cases hb
  rw [bwalk, hk, walk]
  rfl

/-- BWALK of a payload with an unwritten byte, where it answers a next state, has stopped at an error before. -/
theorem bwalk_endedWithError {s t : State} {i : Nat} (hle : s.payStart ≤ i) (hi : i < s.n)
    (hr : s.ibuf.read i = none) (h : exec .bwalk s = .next t) : EndedWithError t t.err ∧ t.err ≠ .ok := by
  rcases finish_next h with hok | ⟨e, u, herr, rfl⟩
  · exact absurd hok (bwalk_ne_ok hle hi hr t)
  · have ran := ran_bwalk s
    rw [herr] at ran
    exact ⟨⟨rfl, rfl, rfl, rfl, fun _ => rfl⟩, ran.1⟩

/-! ### The commands -/

theorem beginCommand_of_le {p : Phase} {s : State} (h : s.inLen ≤ s.cfg.ibufBytes) :
    beginCommand p s = .ok (s.startCommand.enterPhase p) := by
  rcases beginCommand_cases p s with ⟨hcap, -⟩ | ⟨-, hb⟩
  · exact absurd hcap (Nat.not_lt.2 h)
  · exact hb

theorem encodeWhole_unwritten {s : State} {i : Nat} (hn : s.inLen ≤ s.cfg.ibufBytes) (hi : i < s.inLen)
    (hr : s.ibuf.read i = none) : encodeWhole s = .error (.fault .ibufUnwritten) := by
  have hfault := fcount_unwritten (s := s.startCommand.enterPhase .fcount) hn hi hr
  rw [encodeWhole, beginCommand_of_le hn]
  show (fcount _ >>= _) = _
  rw [hfault]
  rfl

theorem decodeWhole_unwritten {s : State} {i : Nat} (hn : s.inLen ≤ s.cfg.ibufBytes) (h2 : 2 ≤ s.inLen) (hi : i < 2)
    (hr : s.ibuf.read i = none) : decodeWhole s = .error (.fault .ibufUnwritten) := by
  have hfault := tdes_unwritten (s := s.startCommand.enterPhase .tdes) hn h2 hi hr
  rw [decodeWhole, beginCommand_of_le hn]
  show (tdes _ >>= _) = _
  rw [hfault]
  rfl

/-- TDES ends its table before the unwritten byte, and BWALK then meets it. -/
theorem decodeWhole_ne_ok {s : State} {i : Nat} (hn : s.inLen ≤ s.cfg.ibufBytes) (hi : i < s.inLen)
    (hr : s.ibuf.read i = none) (t : State) : decodeWhole s ≠ .ok t := by
  rw [decodeWhole, beginCommand_of_le hn]
  show (tdes _ >>= _) ≠ _
  refine OkIs.bind (P := fun b => b.payStart ≤ i ∧ b.n = s.inLen ∧ b.ibuf = s.ibuf) (Q := fun _ => False) ?_ ?_ t
  · intro b hb
    obtain ⟨hpay, hbn, hibuf, -⟩ := tdes_payStart_le (s := s.startCommand.enterPhase .tdes) hr hb
    exact ⟨hpay, hbn, hibuf⟩
  · rintro b ⟨hpay, hbn, hibuf⟩
    refine OkIs.bind (P := fun _ => False) (fun c hc => ?_) fun _ hf => hf.elim
    exact bwalk_ne_ok (s := b.enterPhase .bwalk) hpay (hbn ▸ hi) (hibuf ▸ hr) c hc

theorem decodeWhole_err {s t : State} {i : Nat} (hn : s.inLen ≤ s.cfg.ibufBytes) (hi : i < s.inLen)
    (hr : s.ibuf.read i = none) (h : finish (decodeWhole s) = .next t) : t.err ≠ .ok := by
  rcases finish_next h with hok | ⟨e, u, herr, rfl⟩
  · exact absurd hok (decodeWhole_ne_ok hn hi hr t)
  · have ran := ran_decodeWhole s
    rw [herr] at ran
    exact ran.1

/-- Settles O60: FCOUNT, BPACK and the header read every byte they are to read, and TDES and BWALK end normally only
where they have read everything up to their cursor. -/
theorem unwrittenOperandByteStops : Obligations.UnwrittenOperandByteStops := by
  intro s i hr
  refine ⟨fun hb hg hn hi => ⟨?encode, ?decodeHeader, ?decode⟩, fun hn hi => ⟨?bpack, ?tdesHeader, ?tdes, ?bwalkFirst,
    ?bwalk⟩⟩
  case encode => exact (execEncode_command hb hg).trans (congrArg finish (encodeWhole_unwritten hn hi hr))
  case decodeHeader =>
    exact fun hi2 h2 => (execDecode_command hb hg).trans (congrArg finish (decodeWhole_unwritten hn h2 hi2 hr))
  case decode => exact fun t ht => decodeWhole_err hn hi hr ((execDecode_command hb hg).symm.trans ht)
  case bpack => exact fun hcode hroom => congrArg finish (bpack_unwritten hn hi hr hcode hroom)
  case tdesHeader => exact fun hi2 h2 => congrArg finish (tdes_unwritten hn h2 hi2 hr)
  case tdes =>
    intro _ t ht hbusy
    rcases finish_next ht with h | ⟨e, u, -, rfl⟩
    · exact (tdes_payStart_le hr h).1
    · cases hbusy
  case bwalkFirst =>
    rintro rfl
    exact congrArg finish (bwalk_unwritten hn hi hr)
  case bwalk => exact fun _ hle t ht => bwalk_endedWithError hle hi hr ht

end Sys2Proof.Machine

/-! ## Single moves of the host -/

namespace Sys2Proof.Machine

/-! ### CMD and STATUS -/

theorem writeCmd_of_decode {s : State} {v : Word} {i : Instr} (hb : s.stat ≠ .busy) (hi : decodeCmd v = .ok i) :
    writeCmd v s = .command i s := by
  unfold writeCmd
  split
  · next hs => exact absurd hs hb
  · rw [hi]

/-- Settles O4. -/
theorem stepRunsWrittenCommand : Obligations.StepRunsWrittenCommand := by
  intro s v rest i h hb hi
  have hb' : ({ s with host := rest } : State).stat ≠ .busy := hb
  rw [step, nextMove_of_host h, hostMove, writeRegister_cmd, writeCmd_of_decode hb' hi]

theorem Stat.number_le (x : Stat) : x.number ≤ 2 := by cases x <;> decide

theorem Phase.number_le (x : Phase) : x.number ≤ 9 := by cases x <;> decide

theorem Err.number_le (x : Err) : x.number ≤ 5 := by cases x <;> decide

/-- No field of STATUS overflows into the next. -/
theorem statusWord_toNat (s : State) :
    (statusWord s).toNat = s.err.number * 256 + s.phase.number * 16 + s.stat.number := by
  have := s.stat.number_le
  have := s.phase.number_le
  have := s.err.number_le
  rw [statusWord, BitVec.toNat_ofNat, Nat.mod_eq_of_lt (by omega)]

/-- Settles O7: a STATUS access is one step, and the word's fields are read off its number. -/
theorem statusIsAViewOfThreeFields : Obligations.StatusIsAViewOfThreeFields := by
  refine ⟨fun s rest h => ?_, fun s rest v h => ?_, fun s => ?_, by decide, by decide, by decide, by decide⟩
  · rw [step_readReg h, readRegister_status]
    rfl
  · exact step_of_access h (by rw [hostMove, writeRegister_status])
  · have := s.stat.number_le
    have := s.phase.number_le
    have := s.err.number_le
    rw [statusWord_toNat]
    omega

/-! ### The buffers -/

/-- A buffer access while no command runs is the whole step. -/
theorem step_bufferAccess {s : State} {m : HostMove} {rest : List HostMove} {r : State → Except Fault State}
    (hb : s.stat ≠ .busy) (h : s.host = m :: rest)
    (hm : ∀ u, hostMove m u = .access (whenNotBusy u (accessOutcome (r u)))) :
    step s = accessOutcome (r { s with host := rest }) := by
  have hb' : ({ s with host := rest } : State).stat ≠ .busy := hb
  exact step_of_access h (by rw [hm, whenNotBusy_of_ne _ hb'])

theorem obufValid_iff {s : State} {i : Nat} : obufValid s i = true ↔ s.stat = .done ∧ s.err = .ok ∧ i < s.outLen := by
  simp [obufValid, and_assoc]

/-- A byte that is not valid is not read. -/
theorem hostObufByte_of_not_valid {s : State} {i : Nat} (hi : i < s.cfg.obufBytes) (h : obufValid s i = false) :
    hostObufByte s i = .error .obufUnspecified := by
  simp [hostObufByte, hi, h]

theorem hostObufByte_of_valid {s : State} {i : Nat} {b : Byte} (hi : i < s.cfg.obufBytes) (h : obufValid s i = true)
    (hr : s.obuf.read i = some b) : hostObufByte s i = .ok b := by
  simp [hostObufByte, hi, h, hr]

/-- Settles O10: a buffer access is one step, which the laws of the byte it finds or writes describe. -/
theorem hostBufferAccesses : Obligations.HostBufferAccesses := by
  intro s rest i b hb
  have writeIbuf (h : s.host = .writeIbuf i b :: rest) :
      step s = accessOutcome (hostIbufWrite { s with host := rest } i b) :=
    step_bufferAccess (r := fun u => hostIbufWrite u i b) hb h fun _ => rfl
  have readIbuf (h : s.host = .readIbuf i :: rest) : step s = accessOutcome (hostIbufRead { s with host := rest } i) :=
    step_bufferAccess (r := fun u => hostIbufRead u i) hb h fun _ => rfl
  have readObuf (h : s.host = .readObuf i :: rest) : step s = accessOutcome (hostObufRead { s with host := rest } i) :=
    step_bufferAccess (r := fun u => hostObufRead u i) hb h fun _ => rfl
  refine ⟨fun h hi => ?_, fun h hi hr => ?_, fun h hi hr => ?_, fun h hi hs he hl hr => ?_, fun h hi hv => ?_,
    fun h hi => ?_, fun h hi => ?_⟩
  · rw [writeIbuf h, hostIbufWrite, if_pos hi]
    rfl
  · have hbyte : ibufByte { s with host := rest } i = .ok b := by simp [ibufByte, hi, hr]
    rw [readIbuf h, hostIbufRead, hbyte]
    rfl
  · have hbyte : ibufByte { s with host := rest } i = .error .ibufUnwritten := by simp [ibufByte, hi, hr]
    rw [readIbuf h, hostIbufRead, hbyte]
    rfl
  · have hvalid : obufValid { s with host := rest } i = true := obufValid_iff.2 ⟨hs, he, hl⟩
    rw [readObuf h, hostObufRead, hostObufByte_of_valid (s := { s with host := rest }) hi hvalid hr]
    rfl
  · have hinvalid : obufValid { s with host := rest } i = false := by
      rw [Bool.eq_false_iff, Ne, obufValid_iff]
      rintro ⟨hs, he, hl⟩
      rcases hv with hv | hv | hv
      · exact hv hs
      · exact hv he
      · exact Nat.not_lt.2 hv hl
    rw [readObuf h, hostObufRead, hostObufByte_of_not_valid (s := { s with host := rest }) hi hinvalid]
    rfl
  · have hnot : ¬ i < s.cfg.ibufBytes := Nat.not_lt.2 hi
    rcases h with h | h
    · rw [writeIbuf h, hostIbufWrite, if_neg hnot]
      rfl
    · rw [readIbuf h, hostIbufRead, ibufByte, if_neg hnot]
      rfl
  · rw [readObuf h, hostObufRead, hostObufByte, if_neg (Nat.not_lt.2 hi)]
    rfl

/-! ### WAIT and the idle slot -/

theorem coreMove_of_ne_busy {s : State} (h : s.stat ≠ .busy) : coreMove s = .access (.next s) := by
  rcases coreMove_cases s with ⟨-, hm⟩ | ⟨hb, -⟩ | ⟨hb, -⟩
  · exact hm
  · exact absurd hb h
  · exact absurd hb h

/-- WAIT in a DONE state reads STATUS and is over. -/
theorem hostMove_wait_done {s : State} (h : s.stat = .done) :
    hostMove .wait s = .access (.next { s with reply := .word (statusWord s) }) := by
  rw [hostMove]
  split
  · rfl
  · next hs => exact absurd h hs

/-- WAIT while STATE is not DONE: STATUS is read, WAIT stays the next move, and the core moves. -/
theorem hostMove_wait {s : State} (h : s.stat ≠ .done) :
    hostMove .wait s = coreMove { s with host := .wait :: s.host, reply := .word (statusWord s) } := by
  rw [hostMove]
  split
  · next hs => exact absurd hs h
  · rfl

/-- Settles O12. -/
theorem waitReadsStatusUntilDone : Obligations.WaitReadsStatusUntilDone := by
  refine ⟨fun s rest h => ⟨fun hd => ?done, fun hb => ?busy, fun hi => ?idle⟩, fun s t hst hb => ?slot⟩
  case done => exact step_of_access h (hostMove_wait_done (s := { s with host := rest }) hd)
  case busy =>
    have hb' : ({ s with host := rest } : State).stat ≠ .done := by simp [hb]
    rw [step, step, nextMove_of_host h, hostMove_wait hb']
    rfl
  case idle =>
    have hd : ({ s with host := rest } : State).stat ≠ .done := by simp [hi]
    refine step_of_access h ?_
    rw [hostMove_wait hd, coreMove_of_ne_busy (by simp [hi])]
    simp only [← h]
    rfl
  case slot =>
    rw [step, nextMove_of_coreSlot hst, coreMove_of_ne_busy (hst.stat.symm ▸ hb)]

/-! ### Reset -/

/-- Settles O15: RESET is one step, in every state. -/
theorem resetAbandonsAndClears : Obligations.ResetAbandonsAndClears := by
  intro s rest h
  refine ⟨State.applyReset { s with host := rest }, step_of_access h rfl, rfl, rfl, rfl, rfl, rfl, fun _ => rfl,
    fun _ => rfl, rfl, rfl, ?_⟩
  show statusWord State.reset = 0
  decide

/-- Every register is zero or empty after reset. -/
theorem reset_widths : WidthsInv State.reset :=
  widthsInv_iff.2 ⟨{
    cfg := by decide
    inLen := by decide
    n := by decide
    outLen := Nat.zero_le _
    ipos := le_rfl
    opos := Nat.zero_le _
    payStart := by decide
    freqSum := sum_replicate_zero.le
    nsym := nsym_of_cleared (s := State.reset) rfl rfl
    nnode := Nat.zero_le _
    nodes := fun _ hnd => (List.not_mem_nil hnd).elim
    root := by decide
    code := codesFit_replicate_nil
    totalBits := Nat.zero_le _
    hdrLen := Nat.zero_le _
    tn := Nat.zero_le _
    dtN := Nat.zero_le _
    entries := fun _ he => (List.not_mem_nil he).elim
    lmax := Nat.zero_le _
    accLen := Nat.zero_le _
    ocnt := Nat.zero_le _ }, fun hle => absurd (Nat.two_pow_pos _) (Nat.not_lt.2 hle), trivial⟩

/-- Settles O16. -/
theorem resetStateMeetsTheInvariants : Obligations.ResetStateMeetsTheInvariants :=
  ⟨rfl, rfl, rfl, rfl, rfl, fun _ => rfl, fun _ => rfl,
    ⟨Memory.wf_nil, Memory.wf_nil, fun _ hc => (List.not_mem_nil hc).elim, fun _ hc => (List.not_mem_nil hc).elim⟩,
    applyReset_statusInv State.reset, reset_widths⟩

/-! ### A command start -/

/-- Settles O19: in the finer model a command's step is its start. -/
theorem commandStartInTheFinerModel : Obligations.CommandStartInTheFinerModel := by
  intro s hb hg hn i p hip
  simp only [List.mem_cons, List.not_mem_nil, or_false, Prod.mk.injEq] at hip
  obtain ⟨rfl, rfl⟩ | ⟨rfl, rfl⟩ := hip
  · exact (execEncode_microOp hb hg).trans (congrArg finish (beginCommand_of_le hn))
  · exact (execDecode_microOp hb hg).trans (congrArg finish (beginCommand_of_le hn))

end Sys2Proof.Machine

/-! ## The decode table -/

namespace Sys2Proof.Machine

/-- An entry at the end of the table is looked at first (10_state.md R39). -/
theorem lookup_append_singleton (dt : List DtEntry) (e : DtEntry) (a : Bits) :
    lookup (dt ++ [e]) a = if e.bits = a then some e.sym else lookup dt a := by
  by_cases h : e.bits = a <;> simp [lookup, h]

/-- Settles O42. -/
theorem laterEntryIsFound : Obligations.LaterEntryIsFound :=
  fun dt e a => ⟨lookup_append_singleton dt e a, rfl⟩

end Sys2Proof.Machine

/-! ## The host's buffer and register moves -/

namespace Sys2Proof.Machine

/-! ### Several bytes written -/

/-- 20_memory.md R72: a byte written is not reached by the later ones, which lie above it. -/
theorem Memory.read_writeBytes (m : Memory) (i : Nat) (bs : List Byte) (j : Nat) :
    (m.writeBytes i bs).read j = if i ≤ j ∧ j < i + bs.length then bs[j - i]? else m.read j := by
  induction bs generalizing m i with
  | nil => exact (if_neg (by rw [List.length_nil]; omega)).symm
  | cons b bs ih =>
    rw [Memory.writeBytes, ih, List.length_cons]
    obtain hj | rfl | hj := Nat.lt_trichotomy j i
    · rw [if_neg (by omega), if_neg (by omega), Memory.read_write_other m b hj.ne]
    · rw [if_neg (by omega), if_pos (by omega), Memory.read_write_same, Nat.sub_self, List.getElem?_cons_zero]
    · rw [Memory.read_write_other m b hj.ne', show j - i = j - (i + 1) + 1 by omega, List.getElem?_cons_succ]
      exact if_congr (by omega) rfl rfl

/-- Settles O37. -/
theorem storedBytesAreReadBack : Obligations.StoredBytesAreReadBack := Memory.read_writeBytes

/-- What was written from index 0 on is read back there. -/
theorem Memory.read_writeBytes_zero (m : Memory) (bs : List Byte) {j : Nat} (hj : j < bs.length) :
    (m.writeBytes 0 bs).read j = bs[j]? := by
  rw [Memory.read_writeBytes, if_pos ⟨Nat.zero_le j, by omega⟩, Nat.sub_zero]

/-! ### LOAD -/

/-- A run goes on from the state its first step leads to. -/
theorem coreRun_succ_of_step {M : Host.Core} {s t : M.State} (h : M.step s = .next t) (k : Nat) :
    M.run (k + 1) s = M.run k t := by
  rw [Host.Core.run, h]

theorem run_succ_of_step {s t : State} (h : step s = .next t) (k : Nat) :
    Sys2Proof.core.run (k + 1) s = Sys2Proof.core.run k t :=
  coreRun_succ_of_step (M := Sys2Proof.core) (s := s) (t := t) h k

theorem step_writeIbuf {s : State} {rest : List HostMove} {i : Nat} {b : Byte} (hb : s.stat ≠ .busy)
    (h : s.host = .writeIbuf i b :: rest) (hi : i < s.cfg.ibufBytes) :
    step s = .next { s with host := rest, ibuf := s.ibuf.write i b } := by
  obtain ⟨hwrite, -⟩ := hostBufferAccesses s rest i b hb
  exact hwrite h hi

theorem step_writeInLen_of_lt {s : State} {rest : List HostMove} {v : Word} (hb : s.stat ≠ .busy)
    (h : s.host = .writeReg 0x08 32 v :: rest) (hv : v.toNat < 2 ^ s.cfg.lenBits) :
    step s = .next { s with host := rest, inLen := v.toNat } := by
  rw [step_writeInLen hb h, writeInLen_of_lt (s := { s with host := rest }) hv]

/-- The moves that write bytes to IBUF from index `i` on, as LOAD makes them. -/
def ibufMoves (i : Nat) (bs : List Byte) : List HostMove := (bs.zipIdx i).map fun p => .writeIbuf p.2 p.1

theorem loadMoves_eq (X : List Byte) :
    loadMoves X = ibufMoves 0 X ++ [.writeReg 0x08 32 (BitVec.ofNat 32 X.length)] := rfl

/-- While no command runs, a run over moves that write bytes inside IBUF stores them. -/
theorem run_ibufMoves (bs : List Byte) {s : State} {i : Nat} {rest : List HostMove} (hb : s.stat ≠ .busy)
    (hi : i + bs.length ≤ s.cfg.ibufBytes) (h : s.host = ibufMoves i bs ++ rest) (k : Nat) :
    Sys2Proof.core.run (bs.length + k) s =
      Sys2Proof.core.run k { s with host := rest, ibuf := s.ibuf.writeBytes i bs } := by
  induction bs generalizing s i with
  | nil =>
    obtain rfl : s.host = rest := h
    rw [List.length_nil, Nat.zero_add]
    rfl
  | cons b bs ih =>
    rw [List.length_cons] at hi ⊢
    have hstep : step s = .next { s with host := ibufMoves (i + 1) bs ++ rest, ibuf := s.ibuf.write i b } :=
      step_writeIbuf hb h (by omega)
    have hi' : i + 1 + bs.length ≤ s.cfg.ibufBytes := by omega
    rw [Nat.add_right_comm, run_succ_of_step hstep]
    exact ih hb hi' rfl

/-- LOAD's run: IN_LEN, at least as wide as IBUF is long, takes the whole word. -/
theorem run_loadMoves {s : State} {X : List Byte} {rest : List HostMove} (hb : s.stat ≠ .busy)
    (hX : X.length ≤ s.cfg.ibufBytes) (hlen : X.length < 2 ^ s.cfg.lenBits) (h : s.host = loadMoves X ++ rest) :
    Sys2Proof.core.run (X.length + 1) s =
      .next { s with host := rest, ibuf := s.ibuf.writeBytes 0 X, inLen := X.length % 2 ^ 32 } := by
  have hword : (BitVec.ofNat 32 X.length).toNat = X.length % 2 ^ 32 := BitVec.toNat_ofNat ..
  have hinLen : step { s with
        host := .writeReg 0x08 32 (BitVec.ofNat 32 X.length) :: rest, ibuf := s.ibuf.writeBytes 0 X } =
      .next { s with host := rest, ibuf := s.ibuf.writeBytes 0 X, inLen := X.length % 2 ^ 32 } := by
    rw [← hword]
    exact step_writeInLen_of_lt hb rfl (hword ▸ (Nat.mod_le ..).trans_lt hlen)
  rw [loadMoves_eq, List.append_assoc] at h
  exact (run_ibufMoves X hb (by omega) h 1).trans (run_succ_of_step hinLen 0)

/-- Settles O13: the operand LOAD's run leaves is read back, and a word holds its length below 2^32 bytes. -/
theorem loadProvidesTheOperand : Obligations.LoadProvidesTheOperand := by
  intro s X rest ⟨hcap, _⟩ hb hX h
  have hlen : X.length < 2 ^ s.cfg.lenBits := hX.trans_lt hcap
  refine ⟨_, run_loadMoves hb hX hlen h, fun hX32 => ?ready, fun hbits => ?short, rfl⟩
  case ready =>
    exact ⟨hb, ⟨(Nat.mod_eq_of_lt hX32).symm, fun i hi => Memory.read_writeBytes_zero s.ibuf X hi⟩, hX⟩
  case short => exact hlen.trans_le (Nat.pow_le_pow_right (by decide) hbits)

/-! ### Reads have no side effect -/

/-- An access that may not be made while BUSY and ends in a next state was made. -/
theorem whenNotBusy_next {s t : State} {o : Host.Outcome State Fault Refusal} (h : whenNotBusy s o = .next t) :
    o = .next t := by
  by_cases hb : s.stat = .busy
  · rw [whenNotBusy_busy o hb] at h; cases h
  · rwa [whenNotBusy_of_ne o hb] at h

theorem accessOutcome_next {r : Except Fault State} {t : State} (h : accessOutcome r = .next t) : r = .ok t := by
  cases r <;> cases h
  rfl

/-- All that a read can change: the reply and, where a byte count is longer than a word, the free-value counter. -/
def ReadOnly (s t : State) : Prop :=
  t = { s with reply := t.reply, freeCtr := t.freeCtr } ∧
    (s.inLen < 2 ^ 32 → s.outLen < 2 ^ 32 → t.freeCtr = s.freeCtr)

theorem readOnly_reply (s : State) (r : Reply) : ReadOnly s { s with reply := r } := ⟨rfl, fun _ _ => rfl⟩

theorem readCount_readOnly {k : Nat} {s : State} (hk : s.inLen < 2 ^ 32 → s.outLen < 2 ^ 32 → k < 2 ^ 32) :
    ReadOnly s (readCount k s) := by
  refine ⟨readCount_frame k s, fun hin hout => ?_⟩
  obtain ⟨v, -, hv⟩ := readCount_of_lt (s := s) (hk hin hout)
  rw [hv]

theorem readRegister_readOnly {offset width : Nat} {s t : State} (h : readRegister offset width s = .next t) :
    ReadOnly s t := by
  unfold readRegister at h
  split_ifs at h
  · cases whenNotBusy_next h; exact readOnly_reply s _
  · cases h; exact readOnly_reply s _
  · cases h; exact readCount_readOnly fun hin _ => hin
  · cases whenNotBusy_next h; exact readCount_readOnly fun _ hout => hout

theorem hostIbufRead_readOnly {s t : State} {i : Nat} (h : hostIbufRead s i = .ok t) : ReadOnly s t := by
  unfold hostIbufRead at h
  cases hb : ibufByte s i <;> rw [hb] at h <;> cases h
  exact readOnly_reply s _

theorem hostObufRead_readOnly {s t : State} {i : Nat} (h : hostObufRead s i = .ok t) : ReadOnly s t := by
  unfold hostObufRead at h
  cases hb : hostObufByte s i <;> rw [hb] at h <;> cases h
  exact readOnly_reply s _

/-- Settles O11: every read is an access that is `ReadOnly` from the state its move has been taken in. -/
theorem hostReadsHaveNoSideEffect : Obligations.HostReadsHaveNoSideEffect := by
  intro s t rest m hs hm ht
  suffices h : ReadOnly { s with host := rest } t from h
  rcases hm with ⟨o, w, rfl⟩ | ⟨i, rfl⟩ | ⟨i, rfl⟩
  · rw [step_readReg hs] at ht
    exact readRegister_readOnly ht
  · rw [step_of_access hs rfl] at ht
    exact hostIbufRead_readOnly (accessOutcome_next (whenNotBusy_next ht))
  · rw [step_of_access hs rfl] at ht
    exact hostObufRead_readOnly (accessOutcome_next (whenNotBusy_next ht))

/-! ### Accesses the block does not support -/

/-- A move that may not be made while BUSY is refused there. -/
theorem step_refused_of_busy {s : State} {m : HostMove} {rest : List HostMove}
    {o : State → Host.Outcome State Fault Refusal} (hb : s.stat = .busy) (h : s.host = m :: rest)
    (hm : ∀ u, hostMove m u = .access (whenNotBusy u (o u))) : step s = .refused .hostAccessWhileBusy := by
  have hb' : ({ s with host := rest } : State).stat = .busy := hb
  exact step_of_access h (by rw [hm, whenNotBusy_busy _ hb'])

theorem writeCmd_busy {s : State} (v : Word) (h : s.stat = .busy) :
    writeCmd v s = .access (.refused .hostAccessWhileBusy) := by
  simp [writeCmd, h]

/-- A register access that is no word of the register map is refused in every state. -/
theorem step_registerAccess {s : State} {rest : List HostMove} {offset width : Nat} {v : BitVec width} {r : Refusal}
    (h : s.host = .readReg offset width :: rest ∨ s.host = .writeReg offset width v :: rest)
    (hr : ∀ u, writeRegister offset width v u = .access (.refused r) ∧ readRegister offset width u = .refused r) :
    step s = .refused r := by
  rcases h with h | h
  · rw [step_readReg h, (hr _).2]
  · exact step_of_access h (hr _).1

/-- 20_memory.md R67, R68: the register map's refusals. -/
theorem step_forbiddenRegister {s : State} {rest : List HostMove} {offset width : Nat} {v : BitVec width}
    (h : s.host = .readReg offset width :: rest ∨ s.host = .writeReg offset width v :: rest) :
    (registerOffset offset = false → step s = .refused .noSuchRegister) ∧
      (registerOffset offset = true → width ≠ 32 → step s = .refused .registerWidth) :=
  ⟨fun ho => step_registerAccess h (registerAccess_noRegister ho width v),
    fun ho hw => step_registerAccess h fun u => registerAccess_width ho v u hw⟩

/-- Settles O9: the laws of the register map and of `whenNotBusy` say what is refused. -/
theorem forbiddenHostAccessesRefused : Obligations.ForbiddenHostAccessesRefused := by
  refine ⟨fun s rest offset width v h => ⟨fun h0 h4 h8 hC => ?offset, fun ho => ?width⟩,
    fun s rest i b h => step_of_access h rfl,
    fun s rest m hb h => ⟨fun hm => ?whileBusy, fun hm => ?readInLen⟩⟩
  case offset => exact (step_forbiddenRegister h).1 (registerOffset_eq_false.2 ⟨h0, h4, h8, hC⟩)
  case width =>
    have hreg : registerOffset offset = true := by rcases ho with rfl | rfl | rfl | rfl <;> rfl
    exact (step_forbiddenRegister h).2 hreg
  case whileBusy =>
    have hb' : ({ s with host := rest } : State).stat = .busy := hb
    rcases hm with ⟨v, rfl | rfl | rfl⟩ | rfl | rfl | ⟨i, b, rfl⟩ | ⟨i, rfl⟩ | ⟨i, rfl⟩ | rfl
    · exact step_of_access h (by rw [hostMove, writeRegister_cmd, writeCmd_busy v hb'])
    · exact step_refused_of_busy hb h (writeRegister_inLen v)
    · exact step_refused_of_busy hb h (writeRegister_outLen v)
    · exact step_refused_of_busy hb h fun u => congrArg Move.access (readRegister_cmd u)
    · exact step_refused_of_busy hb h fun u => congrArg Move.access (readRegister_outLen u)
    all_goals exact step_refused_of_busy hb h fun _ => rfl
  case readInLen =>
    subst hm
    have hread : step s = .next (readCount s.inLen { s with host := rest }) := by
      rw [step_readReg h, readRegister_inLen]
    obtain ⟨hlt, hle⟩ := readCount_of_step hread
    obtain hk | hk := Nat.lt_or_ge s.inLen (2 ^ 32)
    · obtain ⟨v, hv, hs⟩ := hlt hk
      exact ⟨v, s.freeCtr, fun _ => ⟨hv, rfl⟩, hs⟩
    · obtain ⟨v, hs⟩ := hle hk
      exact ⟨v, s.freeCtr + 1, fun hk' => absurd hk' (Nat.not_lt.2 hk), hs⟩

/-! ### Results stay -/

/-- A move that is a host access, or the core waiting, and changes only what such an access can. -/
def OnlyAccesses (s : State) (m : Move) : Prop := ∃ o, m = .access o ∧ ∀ t, o = .next t → Accessed s t

theorem onlyAccesses_next {s t : State} (h : Accessed s t) : OnlyAccesses s (.access (.next t)) :=
  ⟨_, rfl, fun _ ht => by cases ht; exact h⟩

theorem onlyAccesses_refused (s : State) (r : Refusal) : OnlyAccesses s (.access (.refused r)) :=
  ⟨_, rfl, fun _ ht => by cases ht⟩

theorem onlyAccesses_whenNotBusy {s u t : State} (h : Accessed s t) :
    OnlyAccesses s (.access (whenNotBusy u (.next t))) :=
  ⟨_, rfl, fun _ ht => by cases whenNotBusy_next ht; exact h⟩

theorem onlyAccesses_buffer {s u : State} {r : Except Fault State} (h : ∀ t, r = .ok t → Accessed s t) :
    OnlyAccesses s (.access (whenNotBusy u (accessOutcome r))) :=
  ⟨_, rfl, fun t ht => h t (accessOutcome_next (whenNotBusy_next ht))⟩

theorem ReadOnly.accessed {s t : State} (h : ReadOnly s t) : Accessed s t := by
  obtain ⟨ht, -⟩ := h
  rw [ht]
  exact ⟨rfl, id⟩

theorem OnlyAccesses.after {s u : State} {m : Move} (h : Accessed s u) (hm : OnlyAccesses u m) : OnlyAccesses s m := by
  obtain ⟨o, ho, hnext⟩ := hm
  exact ⟨o, ho, fun t ht => h.trans (hnext t ht)⟩

theorem coreMove_onlyAccesses {s : State} (hb : s.stat ≠ .busy) : OnlyAccesses s (coreMove s) := by
  rw [coreMove_of_ne_busy hb]
  exact onlyAccesses_next (.refl s)

/-- Every register write but that of a word to CMD. -/
theorem writeRegister_onlyAccesses {offset width : Nat} (hcmd : offset = 0x00 → width ≠ 32) (v : BitVec width)
    (s : State) : OnlyAccesses s (writeRegister offset width v s) := by
  unfold writeRegister
  split_ifs with hreg hwidth hoffset
  · exact onlyAccesses_refused s _
  · exact onlyAccesses_refused s _
  · exact absurd (not_not.1 hwidth) (hcmd hoffset)
  · exact onlyAccesses_next (.refl s)
  · exact onlyAccesses_whenNotBusy (writeInLen_accessed _ s)
  · exact onlyAccesses_whenNotBusy (.refl s)

/-- While no command runs every host move but a CMD write and RESET is an access. -/
theorem hostMove_onlyAccesses {s : State} (m : HostMove) (hb : s.stat ≠ .busy)
    (hcmd : ∀ v, m ≠ .writeReg 0x00 32 v) (hreset : m ≠ .reset) : OnlyAccesses s (hostMove m s) := by
  cases m with
  | idle => exact coreMove_onlyAccesses hb
  | writeReg offset width v =>
    refine writeRegister_onlyAccesses ?_ v s
    rintro rfl rfl
    exact hcmd v rfl
  | readReg offset width => exact ⟨_, rfl, fun t ht => (readRegister_readOnly ht).accessed⟩
  | writeIbuf i b => exact onlyAccesses_buffer fun _ => hostIbufWrite_accessed
  | readIbuf i => exact onlyAccesses_buffer fun _ => hostIbufRead_accessed
  | writeObuf i b => exact onlyAccesses_refused s _
  | readObuf i => exact onlyAccesses_buffer fun _ => hostObufRead_accessed
  | wait =>
    rw [hostMove]
    split
    · exact onlyAccesses_next (accessed_script s s.host _)
    · exact .after (accessed_script s _ _) (coreMove_onlyAccesses hb)
  | copyback => exact onlyAccesses_buffer fun _ => copyback_accessed
  | reset => exact absurd rfl hreset

/-- While no command runs every step but a CMD write and RESET is an access. -/
theorem step_accessed {s t : State} (hb : s.stat ≠ .busy) (h : step s = .next t)
    (hcmd : ∀ v rest, s.host ≠ .writeReg 0x00 32 v :: rest) (hreset : ∀ rest, s.host ≠ .reset :: rest) :
    Accessed s t := by
  suffices hm : OnlyAccesses s (nextMove s) by
    obtain ⟨o, ho, hnext⟩ := hm
    rw [step, ho] at h
    exact hnext t h
  unfold nextMove
  split
  · exact coreMove_onlyAccesses hb
  · next m rest hs =>
    rw [hs] at hcmd hreset
    refine .after (accessed_script s rest s.reply) (hostMove_onlyAccesses m hb ?_ ?_)
    · rintro v rfl
      exact hcmd v rest rfl
    · rintro rfl
      exact hreset rest rfl

/-- Settles O22: a host access changes neither the status fields nor OBUF. -/
theorem resultsStayUntilTheNextCommand : Obligations.ResultsStayUntilTheNextCommand := by
  intro s t hd h hcmd hreset
  obtain ⟨ht, -⟩ := step_accessed (by rw [hd]; decide) h hcmd hreset
  rw [ht]
  exact ⟨rfl, rfl, rfl, rfl, rfl⟩

end Sys2Proof.Machine

/-! ## The decoder and the encoder of instructions -/

namespace Sys2Proof.Machine

theorem decodeCmd_one : decodeCmd 1 = .ok .encode := rfl

theorem decodeCmd_two : decodeCmd 2 = .ok .decode := rfl

theorem decodeCmd_of_reserved {v : Word} (h1 : v ≠ 1) (h2 : v ≠ 2) :
    decodeCmd v = .error (.reservedCommand v) := by
  rw [decodeCmd, if_neg h1, if_neg h2]

/-- Settles O1. -/
theorem commandWordDecodes : Obligations.CommandWordDecodes := by
  intro v
  refine ⟨?_, ?_, decodeCmd_of_reserved⟩
  · rintro rfl
    exact decodeCmd_one
  · rintro rfl
    exact decodeCmd_two

/-- Settles O3. -/
theorem tableWordsDecode : Obligations.TableWordsDecode := by
  unfold Obligations.TableWordsDecode
  decide

/-- The CMD words that name an instruction are those of the table (30_encoding.md R120). -/
theorem decodeCmd_eq_ok_iff {v : Word} {i : Instr} :
    decodeCmd v = .ok i ↔ (encode i).fmt = .cmd ∧ v.toNat = (encode i).value := by
  constructor
  · intro h
    unfold decodeCmd at h
    split_ifs at h with h1 h2 <;> cases h
    · exact ⟨rfl, congrArg BitVec.toNat h1⟩
    · exact ⟨rfl, congrArg BitVec.toNat h2⟩
  · rintro ⟨hf, hv⟩
    obtain rfl : v = BitVec.ofNat 32 (encode i).value := by rw [← hv, BitVec.ofNat_toNat, BitVec.setWidth_eq]
    cases i <;> cases hf <;> rfl

/-- The PHASE codes that name an instruction are those of the table (30_encoding.md R93, R120). -/
theorem decodePhase_eq_ok_iff {c : BitVec 4} {i : Instr} :
    decodePhase c = .ok i ↔ (encode i).fmt = .phase ∧ c.toNat = (encode i).value := by
  constructor
  · intro h
    unfold decodePhase at h
    split_ifs at h with h0 h1 h2 h3 h4 h5 h8 h9 <;> cases h
    all_goals exact ⟨rfl, by rw [‹c = _›]; rfl⟩
  · rintro ⟨hf, hc⟩
    obtain rfl : c = BitVec.ofNat 4 (encode i).value := by rw [← hc, BitVec.ofNat_toNat, BitVec.setWidth_eq]
    cases i <;> cases hf <;> rfl

/-- A PHASE code is laid out in one byte, its high bits 0 (log 18). -/
theorem eq_tableBytes_phase_iff {bs : List Byte} {k : Nat} (hk : k < 16) :
    bs = tableBytes 4 k ↔ ∃ b : Byte, bs = [b] ∧ b.toNat = k := by
  have hbytes : tableBytes 4 k = [BitVec.ofNat 8 k] := by simp [tableBytes]
  rw [hbytes]
  constructor
  · rintro rfl
    exact ⟨_, rfl, by simp; omega⟩
  · rintro ⟨b, rfl, rfl⟩
    simp

/-- A CMD word is laid out in four bytes, least significant byte first (log 18). -/
theorem eq_tableBytes_cmd_iff {bs : List Byte} {k : Nat} (hk : k < 2 ^ 32) :
    bs = tableBytes 32 k ↔
      ∃ b0 b1 b2 b3 : Byte, bs = [b0, b1, b2, b3] ∧ (b3 ++ b2 ++ b1 ++ b0 : Word).toNat = k := by
  have hbytes : tableBytes 32 k =
      [BitVec.ofNat 8 k, BitVec.ofNat 8 (k / 2 ^ 8), BitVec.ofNat 8 (k / 2 ^ 16), BitVec.ofNat 8 (k / 2 ^ 24)] := by
    simp [tableBytes, List.range_succ]
  have toNat_word (b0 b1 b2 b3 : Byte) : (b3 ++ b2 ++ b1 ++ b0 : Word).toNat =
      ((b3.toNat * 2 ^ 8 + b2.toNat) * 2 ^ 8 + b1.toNat) * 2 ^ 8 + b0.toNat := by
    have append {w : Nat} (x : BitVec w) (b : Byte) : (x ++ b).toNat = x.toNat * 2 ^ 8 + b.toNat := by
      rw [BitVec.toNat_append, ← Nat.shiftLeft_add_eq_or_of_lt b.isLt, Nat.shiftLeft_eq]
    rw [append, append, append]
  rw [hbytes]
  constructor
  · rintro rfl
    refine ⟨_, _, _, _, rfl, ?_⟩
    simp only [toNat_word, BitVec.toNat_ofNat]
    omega
  · rintro ⟨b0, b1, b2, b3, rfl, rfl⟩
    rw [toNat_word]
    have := b0.isLt
    have := b1.isLt
    have := b2.isLt
    have := b3.isLt
    simp only [List.cons.injEq, and_true]
    refine ⟨?_, ?_, ?_, ?_⟩ <;> apply BitVec.eq_of_toNat_eq <;> rw [BitVec.toNat_ofNat] <;> omega

/-- All byte lists that decode: a PHASE code in one byte or a CMD word in four. -/
theorem decodeBytes_eq_ok_iff {bs : List Byte} {i : Instr} : decodeBytes bs = .ok i ↔
    (∃ b : Byte, bs = [b] ∧ b.toNat < 16 ∧ decodePhase (b.setWidth 4) = .ok i) ∨
      ∃ b0 b1 b2 b3 : Byte, bs = [b0, b1, b2, b3] ∧ decodeCmd (b3 ++ b2 ++ b1 ++ b0) = .ok i := by
  constructor
  · intro h
    unfold decodeBytes at h
    split at h
    · next b =>
      split_ifs at h with hb
      · exact .inl ⟨b, rfl, hb, h⟩
    · next b0 b1 b2 b3 => exact .inr ⟨b0, b1, b2, b3, rfl, h⟩
    · cases h
  · rintro (⟨b, rfl, hb, h⟩ | ⟨b0, b1, b2, b3, rfl, h⟩)
    · rw [decodeBytes, if_pos hb, h]
    · exact h

/-- A code fits the format it is meant in (30_encoding.md R120). -/
theorem encode_value_lt (i : Instr) : (encode i).value < 2 ^ (encode i).fmt.width := by cases i <;> decide

/-- Settles O2: the two formats' layouts and the two decoders, each read in both directions. -/
theorem bytesDecodeExactlyWhenEncoded : Obligations.BytesDecodeExactlyWhenEncoded := by
  intro bs i
  have hlt := encode_value_lt i
  rw [decodeBytes_eq_ok_iff, encodeBytes]
  cases hf : (encode i).fmt with
  | phase =>
    rw [hf] at hlt
    rw [Format.width, eq_tableBytes_phase_iff hlt]
    simp only [decodePhase_eq_ok_iff, decodeCmd_eq_ok_iff, hf, true_and, reduceCtorEq, false_and, and_false,
      exists_false, or_false]
    refine exists_congr fun b => and_congr_right fun _ => ?_
    have hlt : (encode i).value < 16 := hlt
    rw [BitVec.toNat_setWidth]
    omega
  | cmd =>
    rw [hf] at hlt
    rw [Format.width, eq_tableBytes_cmd_iff hlt]
    simp only [decodePhase_eq_ok_iff, decodeCmd_eq_ok_iff, hf, true_and, reduceCtorEq, false_and, and_false,
      exists_false, false_or]

end Sys2Proof.Machine

/-! ## Memories by their contents -/

namespace Sys2Proof.Machine

/-- The memory of a byte sequence reads as the sequence. -/
theorem Memory.read_ofBytes (bs : List Byte) (j : Nat) : (Memory.ofBytes bs).read j = bs[j]? := by
  have from_index (bs : List Byte) (k j : Nat) :
      Memory.read ((bs.zipIdx k).map fun p => (p.2, p.1)) (k + j) = bs[j]? := by
    induction bs generalizing k j with
    | nil => rfl
    | cons b bs ih =>
      rw [List.zipIdx_cons, List.map_cons, Memory.read_cons]
      cases j with
      | zero => exact if_pos rfl
      | succ j => rw [if_neg (by omega), show k + (j + 1) = k + 1 + j by omega, ih, List.getElem?_cons_succ]
  have h := from_index bs 0 j
  rwa [Nat.zero_add] at h

/-- In a canonical memory an index holds a value exactly where it is listed with it. -/
theorem Memory.read_eq_some_iff {m : Memory} (h : m.wf) {i : Nat} {b : Byte} :
    m.read i = some b ↔ (i, b) ∈ m := by
  induction m with
  | nil => simp
  | cons c m ih =>
    obtain ⟨a, v⟩ := c
    obtain ⟨hc, hm⟩ := List.pairwise_cons.1 h
    rw [Memory.read_cons, List.mem_cons, Prod.mk.injEq, ← ih hm]
    by_cases hi : i = a
    · have hnone : Memory.read m i ≠ some b := fun hr => by
        have := hc _ ((ih hm).1 hr)
        dsimp only at this
        omega
      rw [if_pos hi, Option.some_inj]
      exact ⟨fun hv => .inl ⟨hi, hv.symm⟩, fun hv => hv.elim (fun hab => hab.2.symm) fun hr => absurd hr hnone⟩
    · rw [if_neg hi]
      exact ⟨.inr, fun hv => hv.resolve_left fun hab => hi hab.1⟩

/-- Canonical memories that read alike are the same. -/
theorem Memory.ext_of_wf {m m' : Memory} (h : m.wf) (h' : m'.wf) (hread : ∀ i, m.read i = m'.read i) : m = m' := by
  have nodup {l : Memory} (hl : l.wf) : l.Nodup := hl.imp fun hlt heq => by rw [heq] at hlt; exact lt_irrefl _ hlt
  refine List.Perm.eq_of_pairwise (le := fun x y => x.1 < y.1)
    (fun x y _ _ hxy hyx => absurd hxy (lt_asymm hyx)) h h' ?_
  refine (List.perm_ext_iff_of_nodup (nodup h) (nodup h')).2 fun ⟨i, b⟩ => ?_
  rw [← Memory.read_eq_some_iff h, ← Memory.read_eq_some_iff h', hread]

end Sys2Proof.Machine

/-! ## Reserved commands, the core's slot and COPYBACK -/

namespace Sys2Proof.Machine

/-- A reserved CMD word starts a command that ends with IllegalCommand at once (30_encoding.md R92). -/
theorem writeCmd_of_reserved {s : State} {v : Word} (hb : s.stat ≠ .busy) (h1 : v ≠ 1) (h2 : v ≠ 2) :
    writeCmd v s = .access (.next (s.startCommand.raiseErr .illegalCommand)) := by
  unfold writeCmd
  split
  · next hs => exact absurd hs hb
  · rw [decodeCmd_of_reserved h1 h2]
    rfl

/-- Settles O18. -/
theorem reservedCommandIsIllegal : Obligations.ReservedCommandIsIllegal := by
  intro s v rest h hb h1 h2
  have hb' : ({ s with host := rest } : State).stat ≠ .busy := hb
  have hm : hostMove (.writeReg 0x00 32 v) { s with host := rest } =
      .access (.next (State.raiseErr (State.startCommand { s with host := rest }) .illegalCommand)) := by
    rw [hostMove, writeRegister_cmd, writeCmd_of_reserved hb' h1 h2]
  exact ⟨_, step_of_access h hm, ⟨rfl, rfl, rfl, rfl, fun _ => rfl⟩, ⟨rfl, rfl, rfl, rfl, rfl⟩⟩

/-- Settles O5. -/
theorem stepRunsRunningPhase : Obligations.StepRunsRunningPhase := by
  intro s t i hst hb hi
  have hmove : coreMove t = .phase i t := by
    rw [coreMove, hst.stat, hb, hst.phase, hi]
  rw [step, nextMove_of_coreSlot hst, hmove]
  show sequenceAfter t.phase (exec i t) = _
  rw [hst.phase]
  cases exec i t <;> rfl

/-- The copies of COPYBACK, from valid OBUF bytes to IBUF (30_encoding.md R118). -/
theorem copyBytes_of_valid (bs : List Byte) {s : State} {i : Nat} (hi : i + bs.length ≤ s.cfg.ibufBytes)
    (hread : ∀ (j : Nat) (hj : j < bs.length), hostObufByte s (i + j) = .ok bs[j]) :
    copyBytes i bs.length s = .ok { s with ibuf := s.ibuf.writeBytes i bs } := by
  induction bs generalizing s i with
  | nil => rfl
  | cons b bs ih =>
    rw [List.length_cons] at hi
    have hb : hostObufByte s i = .ok b := hread 0 (Nat.zero_lt_succ _)
    have hw : hostIbufWrite s i b = .ok { s with ibuf := s.ibuf.write i b } := if_pos (by omega)
    have hi' : i + 1 + bs.length ≤ s.cfg.ibufBytes := by omega
    rw [List.length_cons, copyBytes, hb]
    show (hostIbufWrite s i b >>= _) = _
    rw [hw]
    refine ih (s := { s with ibuf := s.ibuf.write i b }) hi' fun j hj => ?_
    have hnext := hread (j + 1) (Nat.succ_lt_succ hj)
    rwa [show i + (j + 1) = i + 1 + j by omega] at hnext

/-- COPYBACK of a result that fits in IBUF. -/
theorem copyback_of_endedWith {s : State} {Y : List Byte} (hwf : s.cfg.wf) (hY : EndedWith s Y)
    (hout : Y.length ≤ s.cfg.obufBytes) (hin : Y.length ≤ s.cfg.ibufBytes) :
    copyback s = .ok { s with ibuf := s.ibuf.writeBytes 0 Y, inLen := s.outLen } := by
  obtain ⟨hstat, -, herr, hlen, hobuf⟩ := hY
  have hvalid (j : Nat) (hj : j < Y.length) : hostObufByte s (0 + j) = .ok Y[j] := by
    rw [Nat.zero_add]
    refine hostObufByte_of_valid (by omega) (obufValid_iff.2 ⟨hstat, herr, by omega⟩) ?_
    rw [hobuf, Memory.read_ofBytes, List.getElem?_eq_getElem hj]
  have hfits : s.outLen < 2 ^ s.cfg.lenBits := by rw [hlen]; exact hin.trans_lt hwf.1
  have hcopy := copyBytes_of_valid Y (s := s) (i := 0) (by omega) hvalid
  rw [← hlen] at hcopy
  rw [copyback, hcopy]
  exact congrArg Except.ok (writeInLen_of_lt (s := { s with ibuf := s.ibuf.writeBytes 0 Y }) hfits)

/-- Settles O14: COPYBACK is one step, whose copies are read back. -/
theorem copybackMakesTheResultTheOperand : Obligations.CopybackMakesTheResultTheOperand := by
  intro s Y rest hwf hY hout hin h
  have hb : s.stat ≠ .busy := by rw [hY.1]; decide
  have hcopy := copyback_of_endedWith (s := { s with host := rest }) hwf hY hout hin
  obtain ⟨-, -, -, hlen, -⟩ := hY
  refine ⟨{ s with host := rest, ibuf := s.ibuf.writeBytes 0 Y, inLen := s.outLen }, ?_,
    ⟨hb, ⟨hlen.symm, ?_⟩, hin⟩, rfl⟩
  · rw [step_bufferAccess hb h fun _ => rfl, hcopy]
    rfl
  · exact fun i hi => Memory.read_writeBytes_zero s.ibuf Y hi

end Sys2Proof.Machine

/-! ## The functional tree and its codes -/

namespace Sys2Proof.Machine

/-! ### A tree's symbols -/

/-- The symbols at a tree's leaves, from left to right. -/
def HTree.symbols : HTree → List Byte
  | .leaf s _ => [s]
  | .node _ l r => l.symbols ++ r.symbols

theorem HTree.map_fst_codes (T : HTree) (path : Bits) : (T.codes path).map Prod.fst = T.symbols := by
  induction T generalizing path with
  | leaf s w => rfl
  | node w l r ihl ihr => rw [codes, List.map_append, ihl, ihr, symbols]

theorem HTree.map_fst_table (T : HTree) : T.table.map Prod.fst = T.symbols := by
  cases T with
  | leaf s w => rfl
  | node w l r => exact map_fst_codes _ _

/-- A path goes through at most one node less than there are leaves (42_tree_builder.md R176). -/
theorem HTree.depth_lt (T : HTree) : T.depth < T.symbols.length := by
  induction T with
  | leaf s w => exact Nat.zero_lt_one
  | node w l r ihl ihr =>
    rw [depth, symbols, List.length_append]
    omega

/-! ### The work list -/

theorem workBefore_iff {a b : HTree × Nat} :
    workBefore a b = true ↔ a.1.weight < b.1.weight ∨ (a.1.weight = b.1.weight ∧ a.2 < b.2) := by
  simp [workBefore]

/-- The element taken out is one of the list's, and none of those left comes before it. -/
theorem takeLowest_spec {wl rest : WorkList} {a : HTree × Nat} (h : takeLowest wl = some (a, rest)) :
    wl.Perm (a :: rest) ∧ ∀ c ∈ rest, workBefore c a = false := by
  induction wl generalizing a rest with
  | nil => cases h
  | cons x xs ih =>
    unfold takeLowest at h
    split at h
    · next hnone =>
      cases h
      cases xs with
      | nil => exact ⟨.refl _, by simp⟩
      | cons y ys =>
        exfalso
        unfold takeLowest at hnone
        split at hnone
        · cases hnone
        · split at hnone <;> cases hnone
    · next b others hb =>
      obtain ⟨hperm, hlow⟩ := ih hb
      split at h
      · next hx =>
        cases h
        refine ⟨.refl _, fun c hc => ?_⟩
        rw [Bool.eq_false_iff, Ne, workBefore_iff]
        rw [workBefore_iff] at hx
        rcases List.mem_cons.1 (hperm.subset hc) with rfl | hc
        · omega
        · have hcb := hlow c hc
          rw [Bool.eq_false_iff, Ne, workBefore_iff] at hcb
          omega
      · next hx =>
        cases h
        refine ⟨(hperm.cons x).trans (.swap ..), fun c hc => ?_⟩
        rcases List.mem_cons.1 hc with rfl | hc
        · exact Bool.eq_false_iff.2 hx
        · exact hlow c hc

theorem takeLowest_eq_none {wl : WorkList} (h : takeLowest wl = none) : wl = [] := by
  cases wl with
  | nil => rfl
  | cons x xs =>
    unfold takeLowest at h
    split at h
    · cases h
    · split at h <;> cases h

/-- The tree that joins the two lowest elements. -/
def joined (a b : HTree × Nat) : HTree := .node (a.1.weight + b.1.weight) a.1 b.1

/-- All that a step of the work list can do: it is over, or the two lowest elements are joined. -/
theorem joinTrees_succ_cases (k next : Nat) (wl : WorkList) :
    (wl.length ≤ 1 ∧ joinTrees (k + 1) next wl = wl) ∨
      ∃ a wl₁ b wl₂, takeLowest wl = some (a, wl₁) ∧ takeLowest wl₁ = some (b, wl₂) ∧
        joinTrees (k + 1) next wl = joinTrees k (next + 1) ((joined a b, next) :: wl₂) := by
  rw [joinTrees]
  cases ha : takeLowest wl with
  | none => exact .inl ⟨by rw [takeLowest_eq_none ha]; exact Nat.zero_le 1, rfl⟩
  | some p =>
    obtain ⟨a, wl₁⟩ := p
    cases hb : takeLowest wl₁ with
    | none =>
      obtain rfl := takeLowest_eq_none hb
      exact .inl ⟨(takeLowest_spec ha).1.length_eq.le, by simp only [hb]⟩
    | some q =>
      obtain ⟨b, wl₂⟩ := q
      exact .inr ⟨a, wl₁, b, wl₂, rfl, hb, by simp only [hb]; rfl⟩

theorem takeTwo_perm {wl wl₁ wl₂ : WorkList} {a b : HTree × Nat} (ha : takeLowest wl = some (a, wl₁))
    (hb : takeLowest wl₁ = some (b, wl₂)) : wl.Perm (a :: b :: wl₂) :=
  (takeLowest_spec ha).1.trans ((takeLowest_spec hb).1.cons a)

/-- The symbols of a work list's trees. -/
def WorkList.symbols (wl : WorkList) : List Byte := wl.flatMap fun p => p.1.symbols

/-- No symbol is lost or doubled by joining trees. -/
theorem joinTrees_symbols (k next : Nat) (wl : WorkList) :
    (WorkList.symbols (joinTrees k next wl)).Perm (WorkList.symbols wl) := by
  induction k generalizing next wl with
  | zero => exact .refl _
  | succ k ih =>
    rcases joinTrees_succ_cases k next wl with ⟨-, h⟩ | ⟨a, wl₁, b, wl₂, ha, hb, h⟩ <;> rw [h]
    have hjoin : WorkList.symbols ((joined a b, next) :: wl₂) = WorkList.symbols (a :: b :: wl₂) := by
      simp [WorkList.symbols, joined, HTree.symbols]
    exact (ih _ _).trans (hjoin ▸ ((takeTwo_perm ha hb).flatMap_right _).symm)

/-- Each step leaves one element less, so the work list ends with one tree. -/
theorem joinTrees_length_le {k next : Nat} {wl : WorkList} (h : wl.length ≤ k + 1) :
    (joinTrees k next wl).length ≤ 1 := by
  induction k generalizing next wl with
  | zero => exact h
  | succ k ih =>
    rcases joinTrees_succ_cases k next wl with ⟨hlen, he⟩ | ⟨a, wl₁, b, wl₂, ha, hb, he⟩ <;> rw [he]
    · exact hlen
    · have hlen := (takeTwo_perm ha hb).length_eq
      rw [List.length_cons, List.length_cons] at hlen
      exact ih (by rw [List.length_cons]; omega)

theorem startWork_symbols (f : Byte → Nat) : WorkList.symbols (startWork f) = presentSymbols f := by
  have hleaf : (fun p : Byte × Nat => (HTree.leaf p.1 (f p.1)).symbols) = fun p => [p.1] := rfl
  rw [WorkList.symbols, startWork, List.flatMap_map, hleaf, ← List.map_eq_flatMap]
  exact List.zipIdx_map_fst 0 _

theorem startWork_length (f : Byte → Nat) : (startWork f).length = (presentSymbols f).length := by
  rw [startWork, List.length_map, List.length_zipIdx]

/-- The work list of the symbols present ends with one tree, whose leaves are those symbols. -/
theorem joinTrees_startWork {f : Byte → Nat} (h : presentSymbols f ≠ []) :
    ∃ T i, joinTrees (presentSymbols f).length (presentSymbols f).length (startWork f) = [(T, i)] ∧
      T.symbols.Perm (presentSymbols f) := by
  have hsyms := joinTrees_symbols (presentSymbols f).length (presentSymbols f).length (startWork f)
  have hlen : (joinTrees (presentSymbols f).length (presentSymbols f).length (startWork f)).length ≤ 1 :=
    joinTrees_length_le ((startWork_length f).le.trans (Nat.le_succ _))
  rw [startWork_symbols] at hsyms
  cases hwl : joinTrees (presentSymbols f).length (presentSymbols f).length (startWork f) with
  | nil =>
    rw [hwl] at hsyms
    exact absurd hsyms.symm.eq_nil h
  | cons p rest =>
    rw [hwl] at hsyms hlen
    obtain rfl : rest = [] := List.length_eq_zero_iff.1 (by rw [List.length_cons] at hlen; omega)
    exact ⟨p.1, p.2, rfl, by simpa [WorkList.symbols] using hsyms⟩

/-- Where a symbol is present there is a tree, whose leaves are the symbols present. -/
theorem treeOf_of_present {f : Byte → Nat} (h : presentSymbols f ≠ []) :
    ∃ T, treeOf f = some T ∧ T.symbols.Perm (presentSymbols f) := by
  obtain ⟨T, i, hjoin, hsyms⟩ := joinTrees_startWork h
  exact ⟨T, by rw [treeOf, hjoin]; rfl, hsyms⟩

/-! ### Codewords -/

/-- A codeword continues the path to its subtree, by at most the subtree's depth. -/
theorem HTree.prefix_of_mem_codes {T : HTree} {path : Bits} {p : Byte × Bits} (h : p ∈ T.codes path) :
    path <+: p.2 ∧ p.2.length ≤ path.length + T.depth := by
  induction T generalizing path with
  | leaf s w =>
    obtain rfl := List.mem_singleton.1 h
    exact ⟨List.prefix_refl _, Nat.le_add_right _ _⟩
  | node w l r ihl ihr =>
    have below {bit : Bool} {d : Nat} (hd : d ≤ max l.depth r.depth)
        (hp : path ++ [bit] <+: p.2 ∧ p.2.length ≤ (path ++ [bit]).length + d) :
        path <+: p.2 ∧ p.2.length ≤ path.length + (node w l r).depth := by
      rw [List.length_append, List.length_singleton] at hp
      exact ⟨(List.prefix_append ..).trans hp.1, by rw [depth]; omega⟩
    rcases List.mem_append.1 h with h | h
    · exact below (Nat.le_max_left ..) (ihl h)
    · exact below (Nat.le_max_right ..) (ihr h)

/-- Neither of two bit strings begins with the other. -/
def Unrelated (c d : Bits) : Prop := ¬ c <+: d ∧ ¬ d <+: c

/-- Strings that part at a bit are unrelated. -/
theorem unrelated_of_branches {path c d : Bits} {x y : Bool} (hxy : x ≠ y) (hc : path ++ [x] <+: c)
    (hd : path ++ [y] <+: d) : Unrelated c d := by
  have apart {e : Bits} (hx : path ++ [x] <+: e) (hy : path ++ [y] <+: e) : False := by
    have hpre := List.prefix_of_prefix_length_le hx hy (by simp)
    have heq := hpre.eq_of_length (by simp)
    exact hxy (by simpa using heq)
  exact ⟨fun h => apart (hc.trans h) hd, fun h => apart hc (hd.trans h)⟩

/-- 43_code_table_generator.md R194: no codeword of a tree begins with another. -/
theorem HTree.codes_unrelated (T : HTree) (path : Bits) :
    (T.codes path).Pairwise fun p q => Unrelated p.2 q.2 := by
  induction T generalizing path with
  | leaf s w => exact List.pairwise_singleton ..
  | node w l r ihl ihr =>
    refine List.pairwise_append.2 ⟨ihl _, ihr _, fun p hp q hq => ?_⟩
    exact unrelated_of_branches (by decide) (prefix_of_mem_codes hp).1 (prefix_of_mem_codes hq).1

theorem HTree.table_unrelated (T : HTree) : T.table.Pairwise fun p q => Unrelated p.2 q.2 := by
  cases T with
  | leaf s w => exact List.pairwise_singleton ..
  | node w l r => exact codes_unrelated _ _

/-- 43_code_table_generator.md R192, R195: a codeword has a bit at least, and at most one for each edge of the longest
path. -/
theorem HTree.table_lengths {T : HTree} {p : Byte × Bits} (h : p ∈ T.table) :
    1 ≤ p.2.length ∧ p.2.length ≤ max 1 T.depth := by
  cases T with
  | leaf s w =>
    obtain rfl := List.mem_singleton.1 h
    exact ⟨le_rfl, le_rfl⟩
  | node w l r =>
    have hle := (prefix_of_mem_codes h).2
    rw [List.length_nil, Nat.zero_add] at hle
    have hpos {bit : Bool} (hpre : [] ++ [bit] <+: p.2) : 1 ≤ p.2.length := by simpa using hpre.length_le
    refine ⟨?_, hle.trans (Nat.le_max_right ..)⟩
    rcases List.mem_append.1 h with h | h
    · exact hpos (prefix_of_mem_codes h).1
    · exact hpos (prefix_of_mem_codes h).1

/-! ### Looking up codewords -/

/-- Of two pairs with the same key in a table without doubled keys the codeword found is the pair's. -/
theorem codeIn_of_mem {table : List (Byte × Bits)} (hnd : (table.map Prod.fst).Nodup) {s : Byte} {c : Bits}
    (h : (s, c) ∈ table) : codeIn table s = c := by
  obtain ⟨l₁, l₂, rfl⟩ := List.append_of_mem h
  have hlook : (l₁ ++ (s, c) :: l₂).lookup s = some c := by
    refine List.lookup_eq_some_iff.2 ⟨l₁, l₂, rfl, fun p hp => bne_iff_ne.2 ?_⟩
    rintro rfl
    rw [List.map_append, List.map_cons, List.nodup_middle, List.nodup_cons] at hnd
    exact hnd.1 (List.mem_append_left _ (List.mem_map.2 ⟨p, hp, rfl⟩))
  rw [codeIn, hlook]
  rfl

/-- A symbol that is in no pair has no codeword. -/
theorem codeIn_of_not_mem {table : List (Byte × Bits)} {s : Byte} (h : s ∉ table.map Prod.fst) :
    codeIn table s = [] := by
  have hlook : table.lookup s = none :=
    List.lookup_eq_none_iff.2 fun p hp => bne_iff_ne.2 fun hs => h (hs ▸ List.mem_map_of_mem hp)
  rw [codeIn, hlook]
  rfl

theorem codeIn_mem {table : List (Byte × Bits)} (hnd : (table.map Prod.fst).Nodup) {s : Byte}
    (h : s ∈ table.map Prod.fst) : (s, codeIn table s) ∈ table := by
  obtain ⟨p, hp, rfl⟩ := List.mem_map.1 h
  rwa [codeIn_of_mem hnd (c := p.2) hp]

/-- What the decoder needs of a code for the symbols given (43_code_table_generator.md R194, R195). -/
structure IsCode (table : List (Byte × Bits)) (symbols : List Byte) : Prop where
  lengths : ∀ s ∈ symbols, 1 ≤ (codeIn table s).length ∧ (codeIn table s).length ≤ 255
  prefixFree : ∀ s ∈ symbols, ∀ t ∈ symbols, codeIn table s <+: codeIn table t → s = t
  others : ∀ s, s ∉ symbols → codeIn table s = []

/-- The codewords of a tree with at most 256 different symbols. -/
theorem HTree.table_isCode {T : HTree} (hnd : T.symbols.Nodup) (hlen : T.symbols.length ≤ 256) :
    IsCode T.table T.symbols := by
  have hkeys : (T.table.map Prod.fst).Nodup := T.map_fst_table.symm ▸ hnd
  have hmem {s : Byte} (hs : s ∈ T.symbols) : (s, codeIn T.table s) ∈ T.table :=
    codeIn_mem hkeys (T.map_fst_table.symm ▸ hs)
  refine ⟨fun s hs => ?_, fun s hs t ht hpre => ?_, fun s hs => codeIn_of_not_mem (T.map_fst_table.symm ▸ hs)⟩
  · obtain ⟨hpos, hle⟩ := table_lengths (hmem hs)
    have hdepth := T.depth_lt
    dsimp only at hpos hle
    exact ⟨hpos, by omega⟩
  · by_contra hne
    have symm : Std.Symm fun p q : Byte × Bits => p = q ∨ Unrelated p.2 q.2 :=
      ⟨fun p q hpq => hpq.imp Eq.symm And.symm⟩
    have hall := (T.table_unrelated.imp fun h => Or.inr h).forall_of_forall
      (R := fun p q : Byte × Bits => p = q ∨ Unrelated p.2 q.2) (fun _ _ => .inl rfl) (hmem hs) (hmem ht)
    rcases hall with heq | hun
    · exact hne (congrArg Prod.fst heq)
    · exact hun.1 hpre

/-- The code table of counts with a symbol present. -/
theorem codeTable_isCode {f : Byte → Nat} (h : presentSymbols f ≠ []) :
    IsCode (codeTable f) (presentSymbols f) := by
  obtain ⟨T, hT, hsyms⟩ := treeOf_of_present h
  have hcode : IsCode T.table T.symbols :=
    HTree.table_isCode (hsyms.nodup_iff.2 (alphabet_nodup.filter _))
      (hsyms.length_eq.trans_le (presentSymbols_length_le f))
  have htable : codeTable f = T.table := by rw [codeTable, hT]; rfl
  rw [htable]
  exact ⟨fun s hs => hcode.lengths s (hsyms.symm.subset hs),
    fun s hs t ht => hcode.prefixFree s (hsyms.symm.subset hs) t (hsyms.symm.subset ht),
    fun s hs => hcode.others s fun hs' => hs (hsyms.subset hs')⟩

end Sys2Proof.Machine

/-! ## The container and its parts -/

namespace Sys2Proof.Machine

/-! ### Lengths -/

/-- A sum over an input is a sum over its symbols, each as often as it is counted. -/
theorem sum_map_eq_sum_count (X L : List Byte) (hnd : L.Nodup) (hL : ∀ b ∈ X, b ∈ L) (g : Byte → Nat) :
    (X.map g).sum = (L.map fun b => g b * X.count b).sum := by
  rw [Finset.sum_list_map_count, ← List.sum_toFinset _ hnd]
  refine Finset.sum_subset_zero_on_sdiff (fun b hb => ?_) (fun b hb => ?_) fun b _ => Nat.mul_comm ..
  · exact List.mem_toFinset.2 (hL b (List.mem_toFinset.1 hb))
  · have hb : b ∉ X := fun h => (Finset.mem_sdiff.1 hb).2 (List.mem_toFinset.2 h)
    rw [List.count_eq_zero_of_not_mem hb, Nat.mul_zero]

theorem presentSymbols_nodup (f : Byte → Nat) : (presentSymbols f).Nodup := alphabet_nodup.filter _

theorem mem_presentSymbols_freqOf {X : List Byte} {b : Byte} : b ∈ presentSymbols (freqOf X) ↔ b ∈ X :=
  mem_presentSymbols.trans List.count_pos_iff

/-- 40_commands.md R150: the payload's bits, codeword by codeword. -/
theorem codedInput_length (table : List (Byte × Bits)) (X : List Byte) :
    (codedInput table X).length =
      ((presentSymbols (freqOf X)).map fun b => (codeIn table b).length * freqOf X b).sum := by
  rw [codedInput, List.length_flatMap]
  exact sum_map_eq_sum_count X _ (presentSymbols_nodup _) (fun b hb => mem_presentSymbols_freqOf.2 hb) _

theorem headerOf_length (table : List (Byte × Bits)) (symbols : List Byte) (bits : Nat) :
    (headerOf table symbols bits).length = headerSize table symbols := by
  simp [headerOf, headerSize, List.length_flatMap]
  omega

/-- The container of a non-empty input, with its parts named. -/
theorem encodeFn_of_ne_nil {X : List Byte} (hX : X ≠ []) : encodeFn X =
    headerOf (codeTable (freqOf X)) (presentSymbols (freqOf X)) (codedInput (codeTable (freqOf X)) X).length ++
      pack (codedInput (codeTable (freqOf X)) X) :=
  if_neg hX

theorem presentSymbols_freqOf_ne_nil {X : List Byte} (hX : X ≠ []) : presentSymbols (freqOf X) ≠ [] :=
  fun h => hX (presentSymbols_freqOf_eq_nil.1 h)

/-- Every symbol of an input has a codeword, so a non-empty one has payload bits. -/
theorem codedInput_length_pos {X : List Byte} (hX : X ≠ []) : 0 < (codedInput (codeTable (freqOf X)) X).length := by
  obtain ⟨b, hb⟩ := List.exists_mem_of_ne_nil X hX
  have hcode := codeTable_isCode (presentSymbols_freqOf_ne_nil hX)
  have hpos := (hcode.lengths b (mem_presentSymbols_freqOf.2 hb)).1
  have hle : (codeIn (codeTable (freqOf X)) b).length ≤ (codedInput (codeTable (freqOf X)) X).length := by
    rw [codedInput, List.length_flatMap]
    exact List.le_sum_of_mem (List.mem_map_of_mem hb)
  omega

theorem tableSizeByte_eq_zero_iff {n : Nat} (hpos : 1 ≤ n) (hle : n ≤ 256) : tableSizeByte n = 0 ↔ n = 256 := by
  rw [tableSizeByte, ← BitVec.toNat_inj, BitVec.toNat_ofNat]
  show n % 256 % 2 ^ 8 = 0 ↔ n = 256
  omega

/-- Settles O53. -/
theorem containerOfANonEmptyInput : Obligations.ContainerOfANonEmptyInput := by
  rintro X table syms bits hX rfl rfl hbits
  rw [← codedInput_length] at hbits
  have hpos := codedInput_length_pos hX
  have hsyms : 1 ≤ (presentSymbols (freqOf X)).length := List.length_pos_iff.2 (presentSymbols_freqOf_ne_nil hX)
  have hlen : (encodeFn X).length =
      headerSize (codeTable (freqOf X)) (presentSymbols (freqOf X)) + ceil8 bits := by
    rw [encodeFn_of_ne_nil hX, List.length_append, headerOf_length, pack_length, hbits]
  refine ⟨hlen, ?_, ?_, hbits, ?_⟩
  · rw [← tableSizeByte_eq_zero_iff hsyms (presentSymbols_length_le _), encodeFn_of_ne_nil hX, headerOf]
    exact Option.some_inj
  · rw [hbits, encodeFn_of_ne_nil hX, headerOf]
    rfl
  · rw [hlen, ceil8]
    omega

/-! ### The table is read back -/

/-- The decode table of a code: an entry for each symbol, in order. -/
def entriesOf (table : List (Byte × Bits)) (symbols : List Byte) : List DtEntry :=
  symbols.map fun s => { bits := codeIn table s, sym := s }

/-- An entry is read back from its bytes (44_table_codec.md R202, R210). -/
theorem parseEntries_entryBytes {c : Bits} (hpos : 1 ≤ c.length) (hle : c.length ≤ 255) (k off : Nat) (sym : Byte)
    (rest : List Byte) : parseEntries (k + 1) off (entryBytes sym c ++ rest) =
      (parseEntries k (off + entryLength c.length) rest).map fun p => ({ bits := c, sym := sym } :: p.1, p.2) := by
  have hbyte : (BitVec.ofNat 8 c.length).toNat = c.length := by
    rw [BitVec.toNat_ofNat]
    omega
  have hne : BitVec.ofNat 8 c.length ≠ 0 := by
    intro h
    rw [h] at hbyte
    exact absurd hbyte (by show 0 ≠ c.length; omega)
  have hroom : ¬ (BitVec.ofNat 8 c.length = 0 ∨
      (pack c ++ rest).length < ceil8 (BitVec.ofNat 8 c.length).toNat) := by
    rw [hbyte, List.length_append, pack_length]
    exact not_or.2 ⟨hne, by omega⟩
  show parseEntries (k + 1) off (sym :: BitVec.ofNat 8 c.length :: (pack c ++ rest)) = _
  rw [parseEntries, if_neg hroom, hbyte, ← pack_length, List.take_left, List.drop_left, codeword, unpack_pack]

theorem parseEntries_flatMap {table : List (Byte × Bits)} {symbols : List Byte}
    (hlen : ∀ s ∈ symbols, 1 ≤ (codeIn table s).length ∧ (codeIn table s).length ≤ 255) (off : Nat)
    (rest : List Byte) :
    parseEntries symbols.length off ((symbols.flatMap fun s => entryBytes s (codeIn table s)) ++ rest) =
      some (entriesOf table symbols, off + (symbols.map fun s => entryLength (codeIn table s).length).sum) := by
  induction symbols generalizing off with
  | nil => rfl
  | cons s symbols ih =>
    obtain ⟨hs, hrest⟩ := List.forall_mem_cons.1 hlen
    rw [List.length_cons, List.flatMap_cons, List.append_assoc, parseEntries_entryBytes hs.1 hs.2, ih hrest,
      Option.map_some, List.map_cons, List.sum_cons, Nat.add_assoc]
    rfl

theorem entryCount_tableSizeByte {n : Nat} (hpos : 1 ≤ n) (hle : n ≤ 256) : entryCount (tableSizeByte n) = n := by
  rw [entryCount]
  split
  · next h => exact ((tableSizeByte_eq_zero_iff hpos hle).1 h).symm
  · next h =>
    have hne : n ≠ 256 := fun h' => h ((tableSizeByte_eq_zero_iff hpos hle).2 h')
    rw [tableSizeByte, BitVec.toNat_ofNat]
    omega

theorem toNat_padByte (len : Nat) : (BitVec.ofNat 8 (padCount len).val).toNat = (padCount len).val := by
  rw [BitVec.toNat_ofNat]
  omega

/-- A container with at least one entry and a payload is read as it was written (44_table_codec.md R210, R214). -/
theorem parseContainer_headerOf {table : List (Byte × Bits)} {symbols : List Byte} (hcode : IsCode table symbols)
    (hpos : symbols ≠ []) (hle : symbols.length ≤ 256) (bits : Nat) {payload : List Byte} (hpay : payload ≠ []) :
    parseContainer (headerOf table symbols bits ++ payload) = some
      { tb := tableSizeByte symbols.length, pb := BitVec.ofNat 8 (padCount bits).val, tn := symbols.length
        entries := entriesOf table symbols, payStart := headerSize table symbols } := by
  have hnotEmpty (t p : Byte) (l : List Byte) : ¬ (t = 0 ∧ p = 0 ∧ l ++ payload = []) :=
    fun h => hpay (List.append_eq_nil_iff.1 h.2.2).2
  have hpad : ¬ 7 < (BitVec.ofNat 8 (padCount bits).val).toNat := by
    rw [toNat_padByte]
    omega
  show parseContainer (tableSizeByte symbols.length :: BitVec.ofNat 8 (padCount bits).val ::
    ((symbols.flatMap fun s => entryBytes s (codeIn table s)) ++ payload)) = _
  rw [parseContainer, if_neg (hnotEmpty _ _ _), if_neg hpad, entryCount_tableSizeByte (List.length_pos_iff.2 hpos) hle,
    parseEntries_flatMap hcode.lengths]
  rfl

/-! ### The payload is walked back -/

/-- All of a packed string's bits are scanned, and no padding (30_encoding.md R108). -/
theorem scannedBits_pack {B : Bits} (hB : 0 < B.length) :
    scannedBits (pack B) (BitVec.ofNat 8 (padCount B.length).val).toNat = B := by
  have hbits : payloadBits (pack B).length (padCount B.length).val = B.length := by
    have := eight_mul_ceil8 B.length
    rw [pack_length, payloadBits, if_neg (by omega)]
    omega
  rw [scannedBits, toNat_padByte, hbits, unpack_pack]

/-- A codeword that only entries of one symbol have is found. -/
theorem lookup_of_unique {dt : List DtEntry} {e : DtEntry} (he : e ∈ dt)
    (huniq : ∀ d ∈ dt, d.bits = e.bits → d.sym = e.sym) : lookup dt e.bits = some e.sym := by
  cases h : dt.reverse.find? fun d => d.bits == e.bits with
  | none => simpa using List.find?_eq_none.1 h e (List.mem_reverse.2 he)
  | some d =>
    have hd : d ∈ dt := List.mem_reverse.1 (List.mem_of_find?_eq_some h)
    have hbits : d.bits = e.bits := by simpa using List.find?_some h
    rw [lookup, h, Option.map_some, huniq d hd hbits]

theorem le_maxLength {dt : List DtEntry} {e : DtEntry} (he : e ∈ dt) : e.len ≤ maxLength dt := by
  have foldl_ge (l : List DtEntry) (m : Nat) : m ≤ l.foldl (fun m e => max m e.len) m := by
    induction l generalizing m with
    | nil => exact le_rfl
    | cons d l ih => exact (Nat.le_max_left ..).trans (ih _)
  obtain ⟨l₁, l₂, rfl⟩ := List.append_of_mem he
  rw [maxLength, List.foldl_append, List.foldl_cons]
  exact (Nat.le_max_right ..).trans (foldl_ge _ _)

section
variable {table : List (Byte × Bits)} {symbols : List Byte} (hcode : IsCode table symbols)
include hcode

/-- A whole codeword is found. -/
theorem IsCode.lookup_codeIn {s : Byte} (hs : s ∈ symbols) :
    lookup (entriesOf table symbols) (codeIn table s) = some s := by
  refine lookup_of_unique (e := { bits := codeIn table s, sym := s }) (List.mem_map_of_mem hs) fun d hd hbits => ?_
  obtain ⟨t, ht, rfl⟩ := List.mem_map.1 hd
  exact hcode.prefixFree t ht s hs (by rw [show codeIn table t = codeIn table s from hbits])

/-- A part of a codeword is none. -/
theorem IsCode.lookup_prefix {s : Byte} (hs : s ∈ symbols) {acc more : Bits} (hmore : more ≠ [])
    (hacc : acc ++ more = codeIn table s) : lookup (entriesOf table symbols) acc = none := by
  cases h : lookup (entriesOf table symbols) acc with
  | none => rfl
  | some t =>
    obtain ⟨e, he, rfl⟩ := lookup_mem h
    obtain ⟨t, ht, rfl⟩ := List.mem_map.1 he
    dsimp only at hacc
    obtain rfl := hcode.prefixFree t ht s hs ⟨more, hacc⟩
    exact absurd (List.append_right_eq_self.1 hacc) hmore

/-- 46_decoder.md R260: the walk over what is left of a codeword emits its symbol. -/
theorem IsCode.walkFn_codeword {cap : Nat} {s : Byte} (hs : s ∈ symbols) {left acc bits : Bits} {out : List Byte}
    (hleft : left ≠ []) (hacc : acc ++ left = codeIn table s) (hcap : out.length < cap) :
    walkFn (entriesOf table symbols) (maxLength (entriesOf table symbols)) cap (left ++ bits) acc out =
      walkFn (entriesOf table symbols) (maxLength (entriesOf table symbols)) cap bits [] (out ++ [s]) := by
  induction left generalizing acc with
  | nil => exact absurd rfl hleft
  | cons bit left ih =>
    rw [List.append_cons] at hacc
    rw [List.cons_append, walkFn]
    by_cases hend : left = []
    · rw [hend, List.append_nil] at hacc
      rw [hacc, hcode.lookup_codeIn hs, hend]
      exact if_neg hcap.ne
    · rw [hcode.lookup_prefix hs hend hacc]
      have hpre : acc ++ [bit] <+: codeIn table s := ⟨left, hacc⟩
      have hlen : (acc ++ [bit]).length ≤ maxLength (entriesOf table symbols) :=
        hpre.length_le.trans (le_maxLength (e := { bits := codeIn table s, sym := s }) (List.mem_map_of_mem hs))
      exact (if_neg (Nat.not_lt.2 hlen)).trans (ih hend hacc)

/-- The walk over the codewords of an input emits the input. -/
theorem IsCode.walkFn_codedInput {cap : Nat} {X out : List Byte} (hX : ∀ s ∈ X, s ∈ symbols)
    (hcap : out.length + X.length ≤ cap) :
    walkFn (entriesOf table symbols) (maxLength (entriesOf table symbols)) cap (codedInput table X) [] out =
      .ok (out ++ X) := by
  induction X generalizing out with
  | nil => rw [List.append_nil]; rfl
  | cons s X ih =>
    obtain ⟨hs, hrest⟩ := List.forall_mem_cons.1 hX
    rw [List.length_cons] at hcap
    have hne : codeIn table s ≠ [] := List.ne_nil_of_length_pos (hcode.lengths s hs).1
    rw [codedInput, List.flatMap_cons, hcode.walkFn_codeword hs hne (List.nil_append _) (by omega)]
    have hnext := ih (out := out ++ [s]) hrest (by rw [List.length_append, List.length_singleton]; omega)
    rwa [List.append_assoc] at hnext

end

/-- 40_commands.md R143: decoding what was encoded gives it back. -/
theorem decodeFn_encodeFn {X : List Byte} {cap : Nat} (hcap : X.length ≤ cap) :
    decodeFn cap (encodeFn X) = .ok X := by
  by_cases hX : X = []
  · subst hX
    rfl
  have hne := presentSymbols_freqOf_ne_nil hX
  have hcode := codeTable_isCode hne
  have hpos := codedInput_length_pos hX
  have hpay : pack (codedInput (codeTable (freqOf X)) X) ≠ [] := by
    refine List.ne_nil_of_length_pos ?_
    rw [pack_length, ceil8]
    omega
  rw [decodeFn, encodeFn_of_ne_nil hX, parseContainer_headerOf hcode hne (presentSymbols_length_le _) _ hpay]
  dsimp only
  rw [← headerOf_length _ _ (codedInput (codeTable (freqOf X)) X).length, List.drop_left, scannedBits_pack hpos]
  exact hcode.walkFn_codedInput (fun s hs => mem_presentSymbols_freqOf.2 hs) (by rwa [List.length_nil, Nat.zero_add])

end Sys2Proof.Machine

/-! ## TBUILD builds the functional tree -/

namespace Sys2Proof.Machine

/-! ### The tree at a node -/

/-- Every node of `ns` stands in `ms` at the same place, with its kind and weight. -/
def KeepsNodes (ns ms : List Node) : Prop :=
  ∀ (i : Nat) (nd : Node), ns[i]? = some nd → ∃ md : Node, ms[i]? = some md ∧ md.kind = nd.kind ∧ md.w = nd.w

theorem KeepsNodes.refl (ns : List Node) : KeepsNodes ns ns := fun _ nd h => ⟨nd, h, rfl, rfl⟩

theorem keepsNodes_append (ns ms : List Node) : KeepsNodes ns (ns ++ ms) := fun _ nd h =>
  ⟨nd, (List.getElem?_append_left (List.getElem?_eq_some_iff.1 h).1).trans h, rfl, rfl⟩

theorem keepsNodes_markMerged (ns : List Node) (i : Nat) : KeepsNodes ns (markMerged ns i) := fun j _ h =>
  ⟨_, (markMerged_getElem? ns i j).trans (congrArg _ h), rfl, rfl⟩

/-- All that the tree at a node can be: a leaf, or a node over the trees at its children. -/
theorem treeAt_cases {ns : List Node} {k i : Nat} {T : HTree} (h : treeAt ns k i = some T) :
    ∃ (m : Nat) (nd : Node), k = m + 1 ∧ ns[i]? = some nd ∧
      ((∃ sym, nd.kind = .leaf sym ∧ T = .leaf sym nd.w) ∨
        ∃ l r tl tr, nd.kind = .internal l r ∧ treeAt ns m l = some tl ∧ treeAt ns m r = some tr ∧
          T = .node nd.w tl tr) := by
  cases k with
  | zero => cases h
  | succ m =>
    unfold treeAt at h
    split at h
    · cases h
    · next nd hnd =>
      refine ⟨m, nd, rfl, hnd, ?_⟩
      split at h
      · next sym hk => cases h; exact .inl ⟨sym, hk, rfl⟩
      · next l r hk =>
        split at h
        · next tl tr hl hr => cases h; exact .inr ⟨l, r, tl, tr, hk, hl, hr, rfl⟩
        · cases h

theorem treeAt_leaf {ns : List Node} {i : Nat} {sym : Byte} {nd : Node} (k : Nat) (hnd : ns[i]? = some nd)
    (hk : nd.kind = .leaf sym) : treeAt ns (k + 1) i = some (.leaf sym nd.w) := by
  simp [treeAt, hnd, hk]

theorem treeAt_internal {ns : List Node} {k i l r : Nat} {nd : Node} {tl tr : HTree} (hnd : ns[i]? = some nd)
    (hk : nd.kind = .internal l r) (hl : treeAt ns k l = some tl) (hr : treeAt ns k r = some tr) :
    treeAt ns (k + 1) i = some (.node nd.w tl tr) := by
  simp [treeAt, hnd, hk, hl, hr]

/-- A tree's weight is its root's. -/
theorem treeAt_weight {ns : List Node} {k i : Nat} {T : HTree} (h : treeAt ns k i = some T) :
    ∃ nd, ns[i]? = some nd ∧ nd.w = T.weight := by
  obtain ⟨m, nd, -, hnd, ⟨sym, -, rfl⟩ | ⟨l, r, tl, tr, -, -, -, rfl⟩⟩ := treeAt_cases h
  · exact ⟨nd, hnd, rfl⟩
  · exact ⟨nd, hnd, rfl⟩

/-- The tree at a node stays, also when more levels are looked at. -/
theorem KeepsNodes.treeAt {ns ms : List Node} (h : KeepsNodes ns ms) {k m i : Nat} {T : HTree} (hkm : k ≤ m)
    (hT : treeAt ns k i = some T) : treeAt ms m i = some T := by
  induction k generalizing m i T with
  | zero => cases hT
  | succ k ih =>
    obtain ⟨m, rfl⟩ : ∃ j, m = j + 1 := ⟨m - 1, by omega⟩
    have hkm : k ≤ m := Nat.le_of_succ_le_succ hkm
    obtain ⟨k', nd, hk', hnd, hkind⟩ := treeAt_cases hT
    obtain rfl : k = k' := Nat.succ.inj hk'
    obtain ⟨md, hmd, hmk, hw⟩ := h i nd hnd
    rw [← hmk, ← hw] at hkind
    obtain ⟨sym, hleaf, rfl⟩ | ⟨l, r, tl, tr, hint, hl, hr, rfl⟩ := hkind
    · exact treeAt_leaf m hmd hleaf
    · exact treeAt_internal hmd hint (ih hkm hl) (ih hkm hr)

/-! ### The lowest candidate -/

/-- No other candidate comes before the lowest one (42_tree_builder.md R171). -/
theorem lowestFrom_lowest {base : Nat} {ns : List Node} {i w : Nat} (h : lowestFrom base ns = some (i, w)) :
    ns[i - base]?.map Node.w = some w ∧
      ∀ (j : Nat) (nd : Node), ns[j]? = some nd → nd.live = true → base + j ≠ i →
      w < nd.w ∨ (w = nd.w ∧ i < base + j) := by
  induction ns generalizing base i w with
  | nil => cases h
  | cons x rest ih =>
    unfold lowestFrom at h
    split at h
    · next hnone =>
      split at h <;> cases h
      refine ⟨by simp, fun j nd hnd hlive hne => ?_⟩
      cases j with
      | zero => exact absurd rfl hne
      | succ j =>
        have := lowestFrom_eq_none hnone nd (List.mem_of_getElem? hnd)
        simp [hlive] at this
    · next j₀ w₀ hj =>
      obtain ⟨hw₀, hlow⟩ := ih hj
      have hbase := (lowestFrom_live hj).1
      split at h
      · next hx =>
        cases h
        rw [Bool.and_eq_true, decide_eq_true_eq] at hx
        refine ⟨by simp, fun j nd hnd hlive hne => ?_⟩
        cases j with
        | zero => exact absurd rfl hne
        | succ j =>
          by_cases hj₀ : base + 1 + j = j₀
          · have hwj : nd.w = w₀ := by
              rw [show j₀ - (base + 1) = j by omega] at hw₀
              rw [List.getElem?_cons_succ] at hnd
              simpa [hnd] using hw₀
            omega
          · have := hlow j nd hnd hlive hj₀
            omega
      · next hx =>
        cases h
        have hw : (x :: rest)[i - base]?.map Node.w = some w := by
          rwa [show i - base = i - (base + 1) + 1 by omega, List.getElem?_cons_succ]
        refine ⟨hw, fun j nd hnd hlive hne => ?_⟩
        cases j with
        | zero =>
          obtain rfl : x = nd := Option.some.inj hnd
          rw [hlive, Bool.true_and, decide_eq_true_eq] at hx
          omega
        | succ j =>
          have := hlow j nd hnd hlive (by omega)
          omega

theorem lowestLive_lowest {ns : List Node} {i : Nat} (h : lowestLive ns = some i) {j : Nat} {nd md : Node}
    (hnd : ns[i]? = some nd) (hmd : ns[j]? = some md) (hlive : md.live = true) (hne : j ≠ i) :
    nd.w < md.w ∨ (nd.w = md.w ∧ i < j) := by
  obtain ⟨⟨i', w⟩, hi, rfl⟩ := Option.map_eq_some_iff.1 h
  obtain ⟨hw, hlow⟩ := lowestFrom_lowest hi
  dsimp only [Nat.sub_zero] at hw hnd hne ⊢
  rw [hnd] at hw
  obtain rfl : nd.w = w := Option.some.inj hw
  have := hlow j md hmd hlive (by rwa [Nat.zero_add])
  rwa [Nat.zero_add] at this

/-! ### Arena and work list side by side -/

/-- The arena holds the work list (42_tree_builder.md R178): its candidates are the list's sequence numbers, and each
holds its tree. -/
structure Holds (ns : List Node) (wl : WorkList) : Prop where
  nodup : (wl.map Prod.snd).Nodup
  live : ∀ i, ns[i]?.map Node.live = some true ↔ i ∈ wl.map Prod.snd
  trees : ∀ p ∈ wl, treeAt ns (p.1.depth + 1) p.2 = some p.1

theorem Holds.perm {ns : List Node} {wl vl : WorkList} (h : Holds ns wl) (hp : wl.Perm vl) : Holds ns vl where
  nodup := (hp.map Prod.snd).nodup_iff.1 h.nodup
  live i := (h.live i).trans (hp.map Prod.snd).mem_iff
  trees p hm := h.trees p (hp.symm.subset hm)

/-- A candidate merged is an element taken out of the list. -/
theorem Holds.remove {ns : List Node} {p : HTree × Nat} {rest : WorkList} (h : Holds ns (p :: rest)) :
    Holds (markMerged ns p.2) rest := by
  obtain ⟨nodup, live, trees⟩ := h
  rw [List.map_cons, List.nodup_cons] at nodup
  refine ⟨nodup.2, fun i => ?_, fun q hq =>
    (keepsNodes_markMerged ns p.2).treeAt le_rfl (trees q (List.mem_cons_of_mem _ hq))⟩
  have hlive : (markMerged ns p.2)[i]?.map Node.live = some true ↔
      ns[i]?.map Node.live = some true ∧ p.2 ≠ i := by
    rw [markMerged_getElem?]
    cases ns[i]? <;> simp
  rw [hlive, live, List.map_cons, List.mem_cons]
  constructor
  · rintro ⟨rfl | hi, hne⟩
    · exact absurd rfl hne
    · exact hi
  · intro hi
    exact ⟨.inr hi, fun heq => nodup.1 (heq ▸ hi)⟩

theorem Holds.candidate {ns : List Node} {wl : WorkList} (h : Holds ns wl) {p : HTree × Nat} (hp : p ∈ wl) :
    ∃ nd, ns[p.2]? = some nd ∧ nd.live = true ∧ nd.w = p.1.weight := by
  obtain ⟨nd, hnd, hlive⟩ := Option.map_eq_some_iff.1 ((h.live p.2).2 (List.mem_map_of_mem hp))
  obtain ⟨md, hmd, hw⟩ := treeAt_weight (h.trees p hp)
  obtain rfl : nd = md := Option.some.inj (hnd.symm.trans hmd)
  exact ⟨nd, hnd, hlive, hw⟩

theorem Holds.liveCount {ns : List Node} {wl : WorkList} (h : Holds ns wl) : liveCount ns = wl.length := by
  induction wl generalizing ns with
  | nil =>
    refine List.countP_eq_zero.2 fun nd hnd hlive => ?_
    obtain ⟨i, hi⟩ := List.mem_iff_getElem?.1 hnd
    have hi' := (h.live i).1 (by rw [hi, Option.map_some, hlive])
    exact List.not_mem_nil hi'
  | cons p rest ih =>
    obtain ⟨nd, hnd, hlive, -⟩ := h.candidate List.mem_cons_self
    rw [← (markMerged_live hnd hlive).1, ih h.remove, List.length_cons]

/-- The element the list's step takes out is the lowest candidate (42_tree_builder.md R171, R178). -/
theorem Holds.lowestLive {ns : List Node} {wl rest : WorkList} {a : HTree × Nat} (h : Holds ns wl)
    (ha : takeLowest wl = some (a, rest)) : lowestLive ns = some a.2 ∧ Holds (markMerged ns a.2) rest := by
  obtain ⟨hperm, hlow⟩ := takeLowest_spec ha
  have hrest := h.perm hperm
  refine ⟨?_, hrest.remove⟩
  obtain ⟨x, hx, hxl, hxw⟩ := hrest.candidate List.mem_cons_self
  obtain ⟨i, hi⟩ := lowestLive_of_live (List.mem_of_getElem? hx) hxl
  obtain ⟨y, hy, hyl⟩ := lowestLive_live hi
  by_cases hia : a.2 = i
  · rw [hia, hi]
  obtain ⟨c, hc, rfl⟩ := List.mem_map.1 ((hrest.live i).1 (by rw [hy, Option.map_some, hyl]))
  rcases List.mem_cons.1 hc with rfl | hc'
  · exact absurd rfl hia
  obtain ⟨z, hz, -, hzw⟩ := hrest.candidate hc
  obtain rfl : y = z := Option.some.inj (hy.symm.trans hz)
  have hbefore := lowestLive_lowest hi hy hx hxl hia
  rw [hxw, hzw] at hbefore
  have hnot := hlow c hc'
  rw [workBefore_iff.2 hbefore] at hnot
  cases hnot

/-- The parent appended is the joined tree, under the next sequence number (42_tree_builder.md R173, R175). -/
theorem Holds.append {ns : List Node} {wl : WorkList} {a b : HTree × Nat} (h : Holds ns wl)
    (ha : treeAt ns (a.1.depth + 1) a.2 = some a.1) (hb : treeAt ns (b.1.depth + 1) b.2 = some b.1) :
    Holds (ns ++ [{ kind := .internal a.2 b.2, w := a.1.weight + b.1.weight, live := true }])
      ((joined a b, ns.length) :: wl) := by
  have hlt {i : Nat} (hi : i ∈ wl.map Prod.snd) : i < ns.length := lt_length_of_map ((h.live i).2 hi)
  have keep := keepsNodes_append ns [{ kind := .internal a.2 b.2, w := a.1.weight + b.1.weight, live := true }]
  refine ⟨List.nodup_cons.2 ⟨fun hi => (hlt hi).false, h.nodup⟩, fun i => ?_, fun p hp => ?_⟩
  · rw [List.map_cons, List.mem_cons, ← h.live i]
    obtain hi | rfl | hi := Nat.lt_trichotomy i ns.length
    · rw [List.getElem?_append_left hi]
      exact ⟨.inr, fun hi' => hi'.resolve_left hi.ne⟩
    · simp
    · rw [List.getElem?_eq_none hi.le, List.getElem?_eq_none (by simpa using hi)]
      exact ⟨.inr, fun hi' => hi'.resolve_left hi.ne'⟩
  · rcases List.mem_cons.1 hp with rfl | hp
    · show treeAt _ (max a.1.depth b.1.depth + 1 + 1) ns.length = some (joined a b)
      exact treeAt_internal List.getElem?_concat_length rfl (keep.treeAt (by omega) ha) (keep.treeAt (by omega) hb)
    · exact keep.treeAt le_rfl (h.trees p hp)

/-- A merge is a step of the work list. -/
theorem Holds.mergeStep {ns : List Node} {wl wl₁ wl₂ : WorkList} {a b : HTree × Nat} (h : Holds ns wl)
    (ha : takeLowest wl = some (a, wl₁)) (hb : takeLowest wl₁ = some (b, wl₂)) :
    Holds (mergeStep ns) ((joined a b, ns.length) :: wl₂) := by
  obtain ⟨hlowa, h₁⟩ := h.lowestLive ha
  obtain ⟨hlowb, h₂⟩ := h₁.lowestLive hb
  have keep := keepsNodes_markMerged (markMerged ns a.2) b.2
  have hmem := (takeTwo_perm ha hb).symm.subset
  have hamem : a ∈ wl := hmem List.mem_cons_self
  have hbmem : b ∈ wl := hmem (List.mem_cons_of_mem _ List.mem_cons_self)
  have weight {p : HTree × Nat} (hp : p ∈ wl) : nodeWeight ns p.2 = p.1.weight := by
    obtain ⟨nd, hnd, -, hw⟩ := h.candidate hp
    rw [nodeWeight, hnd]
    exact hw
  have tree {p : HTree × Nat} (hp : p ∈ wl) :
      treeAt (markMerged (markMerged ns a.2) b.2) (p.1.depth + 1) p.2 = some p.1 :=
    keep.treeAt le_rfl ((keepsNodes_markMerged ns a.2).treeAt le_rfl (h.trees p hp))
  have hjoin := h₂.append (tree hamem) (tree hbmem)
  rw [markMerged_length, markMerged_length] at hjoin
  simpa only [Machine.mergeStep, hlowa, hlowb, weight hamem, weight hbmem] using hjoin

theorem mergeStep_length_of_holds {ns : List Node} {wl wl₁ wl₂ : WorkList} {a b : HTree × Nat} (h : Holds ns wl)
    (ha : takeLowest wl = some (a, wl₁)) (hb : takeLowest wl₁ = some (b, wl₂)) :
    (mergeStep ns).length = ns.length + 1 := by
  obtain ⟨hlowa, h₁⟩ := h.lowestLive ha
  simp only [mergeStep, hlowa, (h₁.lowestLive hb).1, List.length_append, markMerged_length, List.length_singleton]

/-- All merges are all steps of the work list. -/
theorem Holds.mergeLoop (k : Nat) {ns : List Node} {wl : WorkList} (h : Holds ns wl) :
    Holds (mergeLoop k ns) (joinTrees k ns.length wl) := by
  induction k generalizing ns wl with
  | zero => exact h
  | succ k ih =>
    rw [Machine.mergeLoop, h.liveCount]
    rcases joinTrees_succ_cases k ns.length wl with ⟨hlen, he⟩ | ⟨a, wl₁, b, wl₂, ha, hb, he⟩ <;> rw [he]
    · rwa [if_neg (Nat.not_lt.2 hlen)]
    · have hlen := (takeTwo_perm ha hb).length_eq
      rw [List.length_cons, List.length_cons] at hlen
      have hstep := ih (h.mergeStep ha hb)
      rw [mergeStep_length_of_holds h ha hb] at hstep
      rwa [if_pos (by omega)]

/-! ### From the leaves to the root -/

theorem leafNodes_eq_map (f : Vector Nat 256) : leafNodes f =
    (presentSymbols (counts f)).map fun b => { kind := .leaf b, w := counts f b, live := true } := by
  simp only [leafNodes, symbolTable_eq_map, List.filter_map, List.map_map, presentSymbols]
  rfl

theorem leafNodes_holds (f : Vector Nat 256) : Holds (leafNodes f) (startWork (counts f)) := by
  have hseqs : (startWork (counts f)).map Prod.snd = List.range (presentSymbols (counts f)).length := by
    rw [startWork, List.map_map]
    exact (List.zipIdx_map_snd 0 _).trans List.range_eq_range'.symm
  have hnode (i : Nat) : (leafNodes f)[i]? = (presentSymbols (counts f))[i]?.map fun b =>
      { kind := .leaf b, w := counts f b, live := true } := by rw [leafNodes_eq_map, List.getElem?_map]
  refine ⟨hseqs ▸ List.nodup_range, fun i => ?_, fun p hp => ?_⟩
  · rw [hseqs, List.mem_range, hnode]
    cases hb : (presentSymbols (counts f))[i]? with
    | none => simpa using List.getElem?_eq_none_iff.1 hb
    | some b => simpa using (List.getElem?_eq_some_iff.1 hb).1
  · obtain ⟨⟨b, i⟩, hq, rfl⟩ := List.mem_map.1 hp
    have hb := List.mem_zipIdx_iff_getElem?.1 hq
    dsimp only at hb
    simp [treeAt, hnode, hb]

/-- 42_tree_builder.md R178: from an empty arena TBUILD builds the tree of the functional form. -/
theorem buildArena_tree {f : Vector Nat 256} (h : presentSymbols (counts f) ≠ []) :
    ∃ T i, treeOf (counts f) = some T ∧ lowestLive (buildArena [] f) = some i ∧
      treeAt (buildArena [] f) 256 i = some T ∧ T.symbols.Perm (presentSymbols (counts f)) := by
  obtain ⟨T, i, hjoin, hsyms⟩ := joinTrees_startWork h
  have hleaves := leafNodes_holds f
  have hlen : (leafNodes f).length = (presentSymbols (counts f)).length := by rw [leafNodes_eq_map, List.length_map]
  have hholds : Holds (buildArena [] f) [(T, i)] := by
    have hloop := hleaves.mergeLoop (liveCount (leafNodes f))
    rwa [hleaves.liveCount, hlen, startWork_length, hjoin, ← startWork_length, ← hleaves.liveCount] at hloop
  have hdepth : T.depth + 1 ≤ 256 := T.depth_lt.trans_le (hsyms.length_eq.trans_le (presentSymbols_length_le _))
  refine ⟨T, i, by rw [treeOf, hjoin]; rfl, (hholds.lowestLive rfl).1, ?_, hsyms⟩
  exact (KeepsNodes.refl _).treeAt hdepth (hholds.trees (T, i) List.mem_cons_self)

end Sys2Proof.Machine

/-! ## CGEN records the codes of the tree -/

namespace Sys2Proof.Machine

/-- A code table with the codewords of a list recorded in it, in order. -/
def recordCodes (code : Vector Bits 256) (table : List (Byte × Bits)) : Vector Bits 256 :=
  table.foldl (fun c p => c.set p.1.toNat p.2 p.1.isLt) code

theorem recordCodes_append (code : Vector Bits 256) (t u : List (Byte × Bits)) :
    recordCodes code (t ++ u) = recordCodes (recordCodes code t) u := List.foldl_append

/-- A node of the tree is inside the arena. -/
theorem nodeAt_of_treeAt {ns : List Node} {k i : Nat} {T : HTree} (hlen : ns.length ≤ 511)
    (h : treeAt ns k i = some T) : nodeAt ns i = ns[i]? := by
  obtain ⟨nd, hnd, -⟩ := treeAt_weight h
  have hi := (List.getElem?_eq_some_iff.1 hnd).1
  rw [nodeAt, if_pos (show i < maxNodes from hi.trans_le hlen), List.getD_eq_getElem?_getD, hnd]
  rfl

/-- 43_code_table_generator.md R191, R193: the walk from a node records the paths of its tree. -/
theorem walkTree_of_treeAt {ns : List Node} (hlen : ns.length ≤ 511) {k i : Nat} {T : HTree}
    (h : treeAt ns k i = some T) (path : Bits) (code : Vector Bits 256) :
    walkTree ns k i path code = .ok (recordCodes code (T.codes path)) := by
  induction k generalizing i T path code with
  | zero => cases h
  | succ k ih =>
    rw [walkTree, nodeAt_of_treeAt hlen h]
    obtain ⟨k', nd, hk', hnd, hkind⟩ := treeAt_cases h
    obtain rfl : k = k' := Nat.succ.inj hk'
    rw [hnd]
    dsimp only
    obtain ⟨sym, hleaf, rfl⟩ | ⟨l, r, tl, tr, hint, hl, hr, rfl⟩ := hkind
    · rw [hleaf]
      rfl
    · rw [hint]
      dsimp only
      rw [ih hl, HTree.codes, recordCodes_append]
      exact ih hr _ _

/-- 43_code_table_generator.md R191, R192: CGEN records the codewords of the arena's tree. -/
theorem generateCodes_of_treeAt {ns : List Node} (hlen : ns.length ≤ 511) {i : Nat} {T : HTree}
    (h : treeAt ns 256 i = some T) (code : Vector Bits 256) :
    generateCodes ns i code = .ok (recordCodes code T.table) := by
  rw [generateCodes, nodeAt_of_treeAt hlen h]
  obtain ⟨m, nd, -, hnd, ⟨sym, hleaf, rfl⟩ | ⟨l, r, tl, tr, hint, -, -, rfl⟩⟩ := treeAt_cases h
  · rw [hnd, Option.map_some, hleaf]
    rfl
  · rw [hnd, Option.map_some, hint]
    exact walkTree_of_treeAt hlen h [] code

/-- What is recorded for each symbol of a table without doubled keys. -/
theorem recordCodes_get {table : List (Byte × Bits)} (hnd : (table.map Prod.fst).Nodup) (code : Vector Bits 256)
    (b : Byte) : (recordCodes code table).get b.toFin =
      if b ∈ table.map Prod.fst then codeIn table b else code.get b.toFin := by
  induction table generalizing code with
  | nil => rfl
  | cons p table ih =>
    obtain ⟨s, c⟩ := p
    obtain ⟨hs, hnd'⟩ := List.nodup_cons.1 hnd
    rw [recordCodes, List.foldl_cons, List.map_cons]
    refine (ih hnd' _).trans ?_
    have hsb : s.toNat = b.toNat ↔ s = b := BitVec.toNat_inj
    by_cases hb : b ∈ table.map Prod.fst
    · have hne : ¬ b = s := fun h => hs (h ▸ hb)
      rw [if_pos hb, if_pos (List.mem_cons_of_mem _ hb), codeIn, codeIn, List.lookup_cons, beq_false_of_ne hne]
    · rw [if_neg hb]
      simp only [List.mem_cons, hb, or_false, Vector.get_eq_getElem, BitVec.val_toFin, Vector.getElem_set, hsb]
      by_cases h : s = b
      · simp [h, codeIn]
      · simp [h, Ne.symm h]

/-- CGEN from an empty code table records the codewords of the counts, and nothing else. -/
theorem generateCodes_of_present {f : Vector Nat 256} {i : Nat} {T : HTree} (hT : treeOf (counts f) = some T)
    (hat : treeAt (buildArena [] f) 256 i = some T) (hsyms : T.symbols.Perm (presentSymbols (counts f))) :
    ∃ c, generateCodes (buildArena [] f) i (Vector.replicate 256 []) = .ok c ∧
      ∀ b : Byte, c.get b.toFin = codeIn (codeTable (counts f)) b := by
  have hlen : (buildArena [] f).length ≤ 511 := (buildArena_arena le_rfl).length_le
  have hnd : (T.table.map Prod.fst).Nodup :=
    T.map_fst_table.symm ▸ hsyms.nodup_iff.2 (presentSymbols_nodup _)
  refine ⟨_, generateCodes_of_treeAt hlen hat _, fun b => ?_⟩
  rw [recordCodes_get hnd, codeTable, hT]
  show _ = codeIn T.table b
  split
  · rfl
  · next hb =>
    rw [codeIn_of_not_mem hb]
    simp [Vector.get_eq_getElem]

end Sys2Proof.Machine

/-! ## BPACK packs bits into code bytes -/

namespace Sys2Proof.Machine

/-! ### One bit more in a code byte -/

/-- A full code byte does not change when bits follow. -/
theorem codeByte_append_of_lt {C : Bits} (D : Bits) {j : Nat} (hj : j < C.length / 8) :
    codeByte (C ++ D) j = codeByte C j := by
  have hbits : ∀ t ∈ List.range 8,
      bitWeight ((C ++ D).getD (8 * j + t) false) t = bitWeight (C.getD (8 * j + t) false) t := by
    intro t ht
    have ht := List.mem_range.1 ht
    rw [List.getD_append _ _ _ _ (by omega)]
  rw [codeByte, List.map_congr_left hbits, codeByte]

/-- A code byte past the code's end is 0. -/
theorem codeByte_of_le {C : Bits} {j : Nat} (hj : C.length ≤ 8 * j) : codeByte C j = 0 := by
  have hbits : ∀ t ∈ List.range 8, bitWeight (C.getD (8 * j + t) false) t = 0 := by
    intro t _
    rw [List.getD_eq_default _ _ (by omega)]
    rfl
  rw [codeByte, List.map_congr_left hbits]
  rfl

/-- 45_bit_packer.md R232: a bit appended to the code adds its weight to the last code byte. -/
theorem codeByte_append_bit (C : Bits) (bit : Bool) :
    codeByte (C ++ [bit]) (C.length / 8) =
      codeByte C (C.length / 8) + BitVec.ofNat 8 (bitWeight bit (C.length % 8)) := by
  have hbits : ∀ t ∈ List.range 8, bitWeight ((C ++ [bit]).getD (8 * (C.length / 8) + t) false) t =
      bitWeight (C.getD (8 * (C.length / 8) + t) false) t +
        if t = C.length % 8 then bitWeight bit (C.length % 8) else 0 := by
    intro t ht
    have ht := List.mem_range.1 ht
    obtain hlt | rfl | hgt := Nat.lt_trichotomy t (C.length % 8)
    · rw [List.getD_append _ _ _ _ (by omega), if_neg hlt.ne, Nat.add_zero]
    · rw [List.getD_append_right _ _ _ _ (by omega), List.getD_eq_default C _ (by omega), if_pos rfl, Nat.div_add_mod,
        Nat.sub_self, List.getD_cons_zero]
      exact (Nat.zero_add _).symm
    · rw [List.getD_eq_default _ _ (by rw [List.length_append, List.length_singleton]; omega),
        List.getD_eq_default _ _ (by omega), if_neg hgt.ne', Nat.add_zero]
  have hweight (r w : Nat) (hr : r < 8) : ((List.range 8).map fun t => if t = r then w else 0).sum = w := by
    interval_cases r <;> simp [List.range_succ]
  rw [codeByte, List.map_congr_left hbits, List.sum_map_add, hweight _ _ (Nat.mod_lt _ (by decide)), BitVec.ofNat_add,
    codeByte]

/-! ### The state while bits are packed -/

/-- The bytes of a code that are full. -/
def fullBytes (C : Bits) : List Byte := (List.range (C.length / 8)).map (codeByte C)

/-- BPACK's state after the bits `C`: the full bytes are written, and the rest is pending (45_bit_packer.md R231). -/
def State.afterBits (s : State) (C : Bits) : State :=
  { s with
    obuf := s.obuf.writeBytes s.hdrLen (fullBytes C), opos := s.hdrLen + C.length / 8, totalBits := C.length
    pkAcc := codeByte C (C.length / 8), pkN := ⟨C.length % 8, Nat.mod_lt _ (by decide)⟩ }

theorem fullBytes_length (C : Bits) : (fullBytes C).length = C.length / 8 := by simp [fullBytes]

theorem fullBytes_append_bit (C : Bits) (bit : Bool) : fullBytes (C ++ [bit]) =
    if C.length % 8 = 7 then fullBytes C ++ [codeByte (C ++ [bit]) (C.length / 8)] else fullBytes C := by
  have hfull : (List.range (C.length / 8)).map (codeByte (C ++ [bit])) = fullBytes C :=
    List.map_congr_left fun j hj => codeByte_append_of_lt _ (List.mem_range.1 hj)
  rw [fullBytes, List.length_append, List.length_singleton]
  split
  · rw [show (C.length + 1) / 8 = C.length / 8 + 1 by omega, List.range_succ, List.map_append, hfull]
    rfl
  · rw [show (C.length + 1) / 8 = C.length / 8 by omega, hfull]

/-- A bit that fills a byte: the byte is written. -/
theorem packBit_of_full {s : State} (bit : Bool) (hfull : s.pkN = 7) (hroom : s.opos < s.cfg.obufBytes) :
    packBit bit s = .ok { s with
      totalBits := s.totalBits + 1, obuf := s.obuf.write s.opos (s.pkAcc + BitVec.ofNat 8 (bitWeight bit s.pkN.val))
      opos := s.opos + 1, pkAcc := 0, pkN := 0 } := by
  simp only [packBit, if_pos hfull, obufWrite, if_pos hroom]
  rfl

/-- A bit that fills no byte stays pending. -/
theorem packBit_of_not_full {s : State} (bit : Bool) (hfull : s.pkN ≠ 7) :
    packBit bit s = .ok { s with
      totalBits := s.totalBits + 1, pkAcc := s.pkAcc + BitVec.ofNat 8 (bitWeight bit s.pkN.val), pkN := s.pkN + 1 } :=
  if_neg hfull

/-- A bit is packed where OBUF has room for the byte it may fill. -/
theorem packBit_afterBits {s : State} {C : Bits} (bit : Bool)
    (hroom : s.hdrLen + (C.length + 1) / 8 ≤ s.cfg.obufBytes) :
    packBit bit (s.afterBits C) = .ok (s.afterBits (C ++ [bit])) := by
  have hlen : (C ++ [bit]).length = C.length + 1 := by simp
  have hpending : (s.afterBits C).pkN.val = C.length % 8 := rfl
  by_cases hfull : C.length % 8 = 7
  · have hpkN : (s.afterBits C).pkN = 7 := Fin.ext hfull
    have hwrite : (s.afterBits C).opos < s.cfg.obufBytes := by
      show s.hdrLen + C.length / 8 < s.cfg.obufBytes
      omega
    have hnext : codeByte (C ++ [bit]) ((C.length + 1) / 8) = 0 := codeByte_of_le (by rw [hlen]; omega)
    have hobuf : (s.obuf.writeBytes s.hdrLen (fullBytes C)).write (s.hdrLen + C.length / 8)
        (codeByte C (C.length / 8) + BitVec.ofNat 8 (bitWeight bit (C.length % 8))) =
        s.obuf.writeBytes s.hdrLen (fullBytes (C ++ [bit])) := by
      rw [fullBytes_append_bit, if_pos hfull, Memory.writeBytes_append, fullBytes_length, codeByte_append_bit]
      rfl
    refine (packBit_of_full bit hpkN hwrite).trans (congrArg Except.ok ?_)
    simp only [hobuf, State.afterBits, State.mk.injEq, hlen, hnext, true_and, and_true]
    refine ⟨by omega, Fin.ext ?_⟩
    show 0 = (C.length + 1) % 8
    omega
  · have hpkN : (s.afterBits C).pkN ≠ 7 := fun h => hfull (congrArg Fin.val h)
    have hsame : (C.length + 1) / 8 = C.length / 8 := by omega
    refine (packBit_of_not_full bit hpkN).trans (congrArg Except.ok ?_)
    simp only [State.afterBits, State.mk.injEq, hlen, hsame, fullBytes_append_bit, if_neg hfull, codeByte_append_bit,
      true_and, and_true]
    refine Fin.ext ?_
    rw [Fin.val_add]
    show (C.length % 8 + 1) % 8 = (C.length + 1) % 8
    omega

theorem packBits_afterBits (D : Bits) {s : State} {C : Bits}
    (hroom : s.hdrLen + (C.length + D.length) / 8 ≤ s.cfg.obufBytes) :
    packBits D (s.afterBits C) = .ok (s.afterBits (C ++ D)) := by
  induction D generalizing C with
  | nil => rw [List.append_nil]; rfl
  | cons bit D ih =>
    rw [List.length_cons] at hroom
    rw [packBits, packBit_afterBits bit (by omega), List.append_cons C bit D]
    exact ih (C := C ++ [bit]) (by rw [List.length_append, List.length_singleton]; omega)

/-- 45_bit_packer.md R231: BPACK's loop packs the codewords of the bytes it reads. -/
theorem bpackLoop_afterBits (X : List Byte) {s : State} {C : Bits} (hcap : s.ipos + X.length ≤ s.cfg.ibufBytes)
    (hX : ∀ i < X.length, s.ibuf.read (s.ipos + i) = X[i]?)
    (hroom : s.hdrLen + (C ++ X.flatMap fun b => s.code.get b.toFin).length / 8 ≤ s.cfg.obufBytes) :
    bpackLoop X.length (s.afterBits C) =
      .ok (State.afterBits { s with ipos := s.ipos + X.length } (C ++ X.flatMap fun b => s.code.get b.toFin)) := by
  induction X generalizing s C with
  | nil => rw [List.flatMap_nil, List.append_nil]; rfl
  | cons b X ih =>
    rw [List.length_cons] at hcap hX
    rw [List.flatMap_cons, ← List.append_assoc] at hroom ⊢
    have hread : s.ibuf.read s.ipos = some b := by simpa using hX 0 (Nat.zero_lt_succ _)
    have hin : s.ipos < s.cfg.ibufBytes := by omega
    have hb : ibufRead (s.afterBits C) (s.afterBits C).ipos = .ok b := ibufRead_of_read (s := s.afterBits C) hin hread
    have hpack : packBits (s.code.get b.toFin) (s.afterBits C) = .ok (s.afterBits (C ++ s.code.get b.toFin)) := by
      refine packBits_afterBits _ ((Nat.add_le_add_left (Nat.div_le_div_right ?_) _).trans hroom)
      rw [List.length_append, List.length_append]
      exact Nat.le_add_right ..
    have hrest : ∀ i < X.length, s.ibuf.read (s.ipos + 1 + i) = X[i]? := by
      intro i hi
      rw [Nat.add_assoc, Nat.add_comm 1]
      simpa using hX (i + 1) (Nat.succ_lt_succ hi)
    have hloop := ih (s := { s with ipos := s.ipos + 1 }) (C := C ++ s.code.get b.toFin)
      (by show s.ipos + 1 + X.length ≤ s.cfg.ibufBytes; omega) hrest hroom
    rw [List.length_cons, bpackLoop, hb]
    show (packBits (s.code.get b.toFin) (s.afterBits C) >>= _) = _
    rw [hpack]
    refine hloop.trans ?_
    rw [show s.ipos + (X.length + 1) = s.ipos + 1 + X.length by omega]

/-- The packed bytes of a code: its full bytes, and the pending one if there is one (45_bit_packer.md R233). -/
theorem pack_eq_fullBytes (C : Bits) :
    pack C = if C.length % 8 = 0 then fullBytes C else fullBytes C ++ [codeByte C (C.length / 8)] := by
  rw [pack]
  split
  · rw [show ceil8 C.length = C.length / 8 by rw [ceil8]; omega, fullBytes]
  · rw [show ceil8 C.length = C.length / 8 + 1 by rw [ceil8]; omega, List.range_succ, List.map_append, fullBytes]
    rfl

/-- The pending byte is written. -/
theorem flushPartial_of_pending {s : State} (hpend : 0 < s.pkN.val) (hroom : s.opos < s.cfg.obufBytes) :
    flushPartial s = .ok { s with obuf := s.obuf.write s.opos s.pkAcc, opos := s.opos + 1 } := by
  simp only [flushPartial, if_pos hpend, obufWrite, if_pos hroom]
  rfl

theorem flushPartial_afterBits {s : State} {C : Bits} (hroom : s.hdrLen + ceil8 C.length ≤ s.cfg.obufBytes) :
    ∃ op, flushPartial (s.afterBits C) =
      .ok { s.afterBits C with obuf := s.obuf.writeBytes s.hdrLen (pack C), opos := op } := by
  by_cases hpend : C.length % 8 = 0
  · have hnone : ¬ 0 < (s.afterBits C).pkN.val := by
      show ¬ 0 < C.length % 8
      omega
    refine ⟨s.hdrLen + C.length / 8, ?_⟩
    rw [flushPartial, if_neg hnone, pack_eq_fullBytes, if_pos hpend]
    rfl
  · have hsome : 0 < (s.afterBits C).pkN.val := Nat.pos_of_ne_zero hpend
    have hwrite : (s.afterBits C).opos < s.cfg.obufBytes := by
      show s.hdrLen + C.length / 8 < s.cfg.obufBytes
      rw [ceil8] at hroom
      omega
    refine ⟨s.hdrLen + C.length / 8 + 1, ?_⟩
    rw [flushPartial_of_pending hsome hwrite, pack_eq_fullBytes, if_neg hpend, Memory.writeBytes_append,
      fullBytes_length]
    rfl

/-- 45_bit_packer.md R231, R236: BPACK of a latched operand, where its payload fits. -/
theorem bpack_of_latched {s : State} {X : List Byte} {B : Bits} (hX : LatchedIs s X)
    (hB : B = X.flatMap fun b => s.code.get b.toFin) (hroom : s.hdrLen + ceil8 B.length ≤ s.cfg.obufBytes) :
    ∃ ip op a k, bpack s = .ok { s with
      obuf := s.obuf.writeBytes s.hdrLen (pack B), totalBits := B.length, pad := padCount B.length
      pkAcc := a, pkN := k, ipos := ip, opos := op } := by
  obtain ⟨hlen, hcap, hread⟩ := hX
  have hfull : s.hdrLen + B.length / 8 ≤ s.cfg.obufBytes := by
    rw [ceil8] at hroom
    omega
  have hloop := bpackLoop_afterBits X (s := { s with ipos := 0 }) (C := [])
    (by show 0 + X.length ≤ s.cfg.ibufBytes; omega) (by simpa using hread) (hB ▸ hfull)
  rw [List.nil_append, ← hB, hlen] at hloop
  obtain ⟨op, hflush⟩ := flushPartial_afterBits (s := { s with ipos := 0 + s.n }) (C := B) hroom
  have hstart : ({ s with opos := s.hdrLen, pkAcc := 0, pkN := 0, totalBits := 0, ipos := 0 } : State) =
      State.afterBits { s with ipos := 0 } [] := rfl
  refine ⟨0 + s.n, op, codeByte B (B.length / 8), ⟨B.length % 8, Nat.mod_lt _ (by decide)⟩, ?_⟩
  rw [bpack, hstart, hloop]
  show (flushPartial _ >>= _) = _
  rw [hflush]
  rfl

end Sys2Proof.Machine

/-! ## TSER writes the header -/

namespace Sys2Proof.Machine

/-- Bytes are written from OPOS on where OBUF has room for them. -/
theorem obufPut_of_room (bs : List Byte) {s : State} (h : s.opos + bs.length ≤ s.cfg.obufBytes) :
    obufPut bs s = .ok { s with obuf := s.obuf.writeBytes s.opos bs, opos := s.opos + bs.length } := by
  induction bs generalizing s with
  | nil => rfl
  | cons b bs ih =>
    rw [List.length_cons] at h
    rw [obufPut, obufWrite_of_lt b (by omega)]
    refine (ih (s := { s with obuf := s.obuf.write s.opos b, opos := s.opos + 1 }) ?_).trans ?_
    · show s.opos + 1 + bs.length ≤ s.cfg.obufBytes
      omega
    · rw [List.length_cons, show s.opos + (bs.length + 1) = s.opos + 1 + bs.length by omega]
      rfl

theorem obufPut_append (bs cs : List Byte) (s : State) : obufPut (bs ++ cs) s = obufPut bs s >>= obufPut cs := by
  induction bs generalizing s with
  | nil => rfl
  | cons b bs ih =>
    rw [List.cons_append, obufPut, obufPut]
    rcases obufWrite_cases s s.opos b with ⟨-, h⟩ | ⟨-, h⟩ <;> rw [h]
    · exact ih _
    · rfl

/-- The entries written are those of the symbols that have a code, one after the other (44_table_codec.md R203). -/
theorem putEntries_eq_obufPut (entries : List (Byte × Bits)) (s : State) : putEntries entries s =
    obufPut ((entries.filter fun p => 0 < p.2.length).flatMap fun p => entryBytes p.1 p.2) s := by
  induction entries generalizing s with
  | nil => rfl
  | cons p rest ih =>
    obtain ⟨sym, c⟩ := p
    rw [putEntries, List.filter_cons]
    by_cases hc : 0 < c.length
    · rw [if_pos hc, if_pos (decide_eq_true hc), List.flatMap_cons, obufPut_append, funext ih]
    · rw [if_neg hc, if_neg (by simpa using hc), ih]

/-- The symbols that have a code, in ascending order. -/
def codedSymbols (code : Vector Bits 256) : List Byte := alphabet.filter fun b => 1 ≤ (code.get b.toFin).length

/-- The table entries of the symbols that have a code. -/
def tableEntries (code : Vector Bits 256) : List Byte :=
  (codedSymbols code).flatMap fun b => entryBytes b (code.get b.toFin)

theorem putEntries_symbolTable (code : Vector Bits 256) (s : State) :
    putEntries (symbolTable code) s = obufPut (tableEntries code) s := by
  rw [putEntries_eq_obufPut, symbolTable_eq_map, List.filter_map, List.flatMap_map]
  rfl

theorem headerLength_eq (code : Vector Bits 256) :
    headerLength code = 2 + ((codedSymbols code).map fun b => entryLength (code.get b.toFin).length).sum := by
  rw [headerLength, List.sum_map_ite, List.map_const', List.sum_replicate, smul_zero, Nat.add_zero, symbolTable_eq_map,
    List.filter_map, List.map_map]
  rfl

/-- 44_table_codec.md R201: TSER writes the header from index 0 on, where it fits. -/
theorem tser_of_room {s : State} {H : List Byte}
    (hH : H = [tableSizeByte s.nsym, BitVec.ofNat 8 s.pad.val] ++ tableEntries s.code)
    (hroom : H.length ≤ s.cfg.obufBytes) :
    tser s = .ok { s with obuf := s.obuf.writeBytes 0 H, opos := H.length } := by
  have hlen : H.length = 2 + (tableEntries s.code).length := by rw [hH, List.length_append]; rfl
  have hput := obufPut_of_room (tableEntries s.code)
    (s := { s with obuf := (s.obuf.write 0 (tableSizeByte s.nsym)).write 1 (BitVec.ofNat 8 s.pad.val), opos := 2 })
    (hlen ▸ hroom)
  rw [tser, obufWrite_of_lt _ (by omega)]
  show (obufWrite { s with obuf := s.obuf.write 0 (tableSizeByte s.nsym) } 1 _ >>= _) = _
  rw [obufWrite_of_lt _ (by show 1 < s.cfg.obufBytes; omega)]
  refine (putEntries_symbolTable _ _).trans (hput.trans ?_)
  rw [hlen, hH]
  rfl

end Sys2Proof.Machine

/-! ## ENCODE ends with the container -/

namespace Sys2Proof.Machine

/-! ### The buffer's contents -/

/-- A payload written behind the header, and then the header, are the two one after the other. -/
theorem Memory.writeBytes_payload_header (H P : List Byte) :
    (Memory.writeBytes [] H.length P).writeBytes 0 H = Memory.ofBytes (H ++ P) := by
  refine Memory.ext_of_wf (Memory.wf_writeBytes (Memory.wf_writeBytes Memory.wf_nil _ _) _ _) (Memory.wf_ofBytes _)
    fun i => ?_
  rw [Memory.read_writeBytes, Memory.read_writeBytes, Memory.read_ofBytes, Nat.zero_add, Nat.sub_zero]
  by_cases hH : i < H.length
  · rw [if_pos ⟨Nat.zero_le _, hH⟩, List.getElem?_append_left hH]
  · have hle : H.length ≤ i := Nat.le_of_not_lt hH
    rw [if_neg fun h => hH h.2, List.getElem?_append_right hle]
    by_cases hP : i < H.length + P.length
    · rw [if_pos ⟨hle, hP⟩]
    · rw [if_neg fun h => hP h.2, Memory.read_nil, List.getElem?_eq_none (by omega)]

/-! ### From the operand to its code table -/

/-- A command start latches the operand. -/
theorem latchedIs_startCommand {s : State} {X : List Byte} (h : CommandReady s X) (p : Phase) :
    LatchedIs (s.startCommand.enterPhase p) X := by
  obtain ⟨-, ⟨hlen, hread⟩, hcap⟩ := h
  exact ⟨hlen, hlen.symm.trans_le hcap, hread⟩

theorem beginCommand_of_ready {s : State} {X : List Byte} (h : CommandReady s X) (p : Phase) :
    beginCommand p s = .ok (s.startCommand.enterPhase p) := by
  obtain ⟨-, ⟨hlen, -⟩, hcap⟩ := h
  exact beginCommand_of_le (hlen ▸ hcap)

/-- FCOUNT of a latched operand from cleared counters ends normally. -/
theorem fcount_eq_ok {s : State} {X : List Byte} (hX : LatchedIs s X) (hf : s.freq = Vector.replicate 256 0)
    (hn : s.nsym = 0) :
    ∃ f, (∀ b, counts f b = freqOf X b) ∧
      fcount s = .ok { s with freq := f, nsym := (presentSymbols (freqOf X)).length, ipos := 0 + X.length } := by
  obtain ⟨f, hcounts, -, hexec⟩ := fcount_of_latched hX hf hn
  refine ⟨f, hcounts, ?_⟩
  have hfin : finish (fcount s) = _ := hexec
  rcases finish_next hfin with h | ⟨e, u, h, -⟩
  · exact h
  · rcases fcountLoop_cases s.n { s with ipos := 0 } with ⟨Y, -, hok⟩ | ⟨g, hfault⟩
    · cases hok.symm.trans h
    · cases hfault.symm.trans h

/-- What ENCODE has between CGEN and the measurement of its output (40_commands.md R135): the operand, its counts and
its code table, and an empty OBUF. -/
structure CodesReady (s : State) (X : List Byte) : Prop where
  latched : LatchedIs s X
  counted : ∀ b, counts s.freq b = freqOf X b
  nsym : s.nsym = (presentSymbols (freqOf X)).length
  code : ∀ b : Byte, s.code.get b.toFin = codeIn (codeTable (freqOf X)) b
  obuf : s.obuf = []
  err : s.err = .ok

/-- The rest of ENCODE from there. -/
def encodeOutput (s : State) : Except Stop State := do
  let s ← measureOutput s
  let s ← bpack (s.enterPhase .bpack)
  let s ← tser (s.enterPhase .tser)
  .ok (endEncode s)

/-- 40_commands.md R145: the empty operand. -/
theorem encodeWhole_of_nil {s : State} (h : CommandReady s []) :
    ∃ u, encodeWhole s = endEmpty u ∧ u.obuf = [] ∧ u.err = .ok ∧ u.cfg = s.cfg := by
  obtain ⟨f, -, hcount⟩ := fcount_eq_ok (latchedIs_startCommand h .fcount) rfl rfl
  refine ⟨{ s.startCommand.enterPhase .fcount with freq := f, nsym := 0, ipos := 0 }, ?_, rfl, rfl, rfl⟩
  rw [encodeWhole, beginCommand_of_ready h]
  show (fcount _ >>= _) = _
  rw [hcount]
  rfl

/-- 40_commands.md R135: TBUILD and CGEN of a non-empty operand leave its code table. -/
theorem encodeWhole_of_ne_nil {s : State} {X : List Byte} (h : CommandReady s X) (hX : X ≠ []) :
    ∃ d, encodeWhole s = encodeOutput d ∧ CodesReady d X ∧ d.cfg = s.cfg := by
  have hlatched := latchedIs_startCommand h .fcount
  obtain ⟨f, hcounts, hcount⟩ := fcount_eq_ok hlatched rfl rfl
  have hfreq : counts f = freqOf X := funext hcounts
  have hne : presentSymbols (counts f) ≠ [] := hfreq ▸ presentSymbols_freqOf_ne_nil hX
  obtain ⟨T, root, hT, hroot, htree, hsyms⟩ := buildArena_tree hne
  obtain ⟨code, hgen, hcode⟩ := generateCodes_of_present hT htree hsyms
  have hnsym : ¬ (presentSymbols (freqOf X)).length = 0 :=
    fun h0 => presentSymbols_freqOf_ne_nil hX (List.length_eq_zero_iff.1 h0)
  rw [hfreq] at hcode
  have hbuild (a : State) (hn : a.nodes = []) (hf : a.freq = f) :
      tbuild a = .ok { a with nodes := buildArena [] f, root := root } := by
    obtain ⟨i, hi, ht⟩ := tbuild_of_present hn (by rw [hf]; exact List.length_pos_iff.2 hne)
    rw [hf] at hi
    obtain rfl : root = i := Option.some.inj (hroot.symm.trans hi)
    rw [ht, hf]
  have hcgen (a : State) (hn : a.nodes = buildArena [] f) (hr : a.root = root)
      (hc : a.code = Vector.replicate 256 []) : cgen a = .ok { a with code := code } := by
    rw [cgen, hn, hr, hc, hgen]
    rfl
  refine ⟨{ s.startCommand.enterPhase .cgen with
    freq := f, nsym := (presentSymbols (freqOf X)).length, ipos := 0 + X.length, nodes := buildArena [] f, root := root
    code := code }, ?_, ⟨hlatched, hcounts, rfl, hcode, rfl, rfl⟩, rfl⟩
  rw [encodeWhole, beginCommand_of_ready h]
  show (fcount _ >>= _) = _
  rw [hcount]
  refine (if_neg hnsym).trans ?_
  rw [hbuild _ rfl rfl]
  show (cgen _ >>= _) = _
  rw [hcgen _ rfl rfl rfl]
  rfl

/-! ### From the code table to the container -/

/-- A table indexed by symbol, listed. -/
theorem toList_eq_map {α : Type} (v : Vector α 256) : v.toList = alphabet.map fun b => v.get b.toFin := by
  have h := congrArg (List.map Prod.snd) (symbolTable_eq_map v)
  rw [symbolTable, List.map_snd_zip (by simp), List.map_map] at h
  exact h

theorem codedBits_eq_sum (code : Vector Bits 256) (freq : Vector Nat 256) : codedBits code freq =
    (alphabet.map fun b => (code.get b.toFin).length * counts freq b).sum := by
  rw [codedBits, toList_eq_map, toList_eq_map, List.zipWith_map, List.zipWith_self]

/-- 40_commands.md R135, R136: where the container fits, BPACK writes the bits `B` behind the header and TSER then
the header `H` from index 0. -/
theorem encodeOutput_of_room {s : State} {X : List Byte} {B : Bits} {H : List Byte} (hX : LatchedIs s X)
    (hB : B = X.flatMap fun b => s.code.get b.toFin) (hbits : codedBits s.code s.freq = B.length)
    (hH : H = [tableSizeByte s.nsym, BitVec.ofNat 8 (padCount B.length).val] ++ tableEntries s.code)
    (hHlen : H.length = headerLength s.code)
    (hroom : headerLength s.code + ceil8 B.length ≤ s.cfg.obufBytes) :
    ∃ ip op a k, encodeOutput s = .ok (endEncode { s with
      hdrLen := headerLength s.code, obuf := (s.obuf.writeBytes (headerLength s.code) (pack B)).writeBytes 0 H
      totalBits := B.length, pad := padCount B.length, pkAcc := a, pkN := k, ipos := ip, opos := op
      phase := .tser }) := by
  have hmeasure : measureOutput s = .ok { s with hdrLen := headerLength s.code } :=
    if_neg (by dsimp only; rw [hbits]; omega)
  obtain ⟨ip, op, a, k, hpack⟩ := bpack_of_latched
    (s := State.enterPhase { s with hdrLen := headerLength s.code } .bpack) (X := X) (B := B) hX hB hroom
  have hser := tser_of_room (H := H) (s := { s with
      hdrLen := headerLength s.code, obuf := s.obuf.writeBytes (headerLength s.code) (pack B), totalBits := B.length
      pad := padCount B.length, pkAcc := a, pkN := k, ipos := ip, opos := op, phase := .tser })
    hH (by show H.length ≤ s.cfg.obufBytes; omega)
  refine ⟨ip, H.length, a, k, ?_⟩
  rw [encodeOutput, hmeasure]
  show (bpack _ >>= _) = _
  rw [hpack]
  exact congrArg (· >>= fun s => .ok (endEncode s)) hser

section
variable {s : State} {X : List Byte} (h : CodesReady s X)
include h

theorem CodesReady.payload : codedInput (codeTable (freqOf X)) X = X.flatMap fun b => s.code.get b.toFin :=
  congrArg X.flatMap (funext h.code).symm

theorem CodesReady.payload_length : codedBits s.code s.freq = (codedInput (codeTable (freqOf X)) X).length := by
  rw [codedBits_eq_sum, codedInput, List.length_flatMap,
    sum_map_eq_sum_count X alphabet alphabet_nodup (fun b _ => mem_alphabet b)]
  refine congrArg List.sum (List.map_congr_left fun b _ => ?_)
  rw [h.code, h.counted]
  rfl

theorem CodesReady.symbols (hX : X ≠ []) : codedSymbols s.code = presentSymbols (freqOf X) := by
  have hcode := codeTable_isCode (presentSymbols_freqOf_ne_nil hX)
  refine List.filter_congr fun b _ => ?_
  rw [h.code, decide_eq_decide, ← mem_presentSymbols (f := freqOf X)]
  refine ⟨fun hlen => ?_, fun hb => (hcode.lengths b hb).1⟩
  by_contra hb
  rw [hcode.others b hb] at hlen
  cases hlen

theorem CodesReady.header_length (hX : X ≠ []) :
    headerLength s.code = headerSize (codeTable (freqOf X)) (presentSymbols (freqOf X)) := by
  rw [headerLength_eq, h.symbols hX]
  simp only [h.code]

theorem CodesReady.entries (hX : X ≠ []) : tableEntries s.code =
    (presentSymbols (freqOf X)).flatMap fun b => entryBytes b (codeIn (codeTable (freqOf X)) b) := by
  rw [tableEntries, h.symbols hX]
  simp only [h.code]

/-- HDR_LEN and the payload's bytes measure the container (40_commands.md R138, R139). -/
theorem CodesReady.output_length (hX : X ≠ []) :
    headerLength s.code + ceil8 (codedBits s.code s.freq) = (encodeFn X).length := by
  rw [h.header_length hX, h.payload_length, encodeFn_of_ne_nil hX, List.length_append, headerOf_length, pack_length]

/-- 40_commands.md R135, R136: BPACK and TSER write the container where it fits. -/
theorem CodesReady.encodeOutput_ok (hX : X ≠ []) (hcap : (encodeFn X).length ≤ s.cfg.obufBytes) :
    ∃ t, encodeOutput s = .ok t ∧ EndedWith t (encodeFn X) := by
  have hlen := h.output_length hX
  rw [h.payload_length] at hlen
  obtain ⟨ip, op, a, k, hout⟩ := encodeOutput_of_room h.latched h.payload h.payload_length
    (H := headerOf (codeTable (freqOf X)) (presentSymbols (freqOf X)) (codedInput (codeTable (freqOf X)) X).length)
    (by rw [headerOf, h.entries hX, h.nsym]) (by rw [headerOf_length, h.header_length hX]) (hlen ▸ hcap)
  refine ⟨_, hout, rfl, rfl, h.err, hlen, ?_⟩
  show (s.obuf.writeBytes _ _).writeBytes 0 _ = _
  rw [h.obuf, h.header_length hX, ← headerOf_length, Memory.writeBytes_payload_header, encodeFn_of_ne_nil hX]

end

theorem endEmpty_of_room {s : State} (hobuf : s.obuf = []) (herr : s.err = .ok) (hcap : 2 ≤ s.cfg.obufBytes) :
    ∃ t, endEmpty s = .ok t ∧ EndedWith t emptyContainer := by
  have h₀ : 0 < s.cfg.obufBytes := by omega
  have h₁ : 1 < s.cfg.obufBytes := hcap
  refine ⟨State.endCommand { s with obuf := (s.obuf.write 0 0x00).write 1 0x00 } 2, ?_, rfl, rfl, herr, rfl, ?_⟩
  · simp [endEmpty, Nat.not_lt.2 hcap, obufWrite, h₀, h₁, bind, Except.bind]
  · show (s.obuf.write 0 0x00).write 1 0x00 = _
    rw [hobuf]
    rfl

/-- 40_commands.md R135, R136, R145: ENCODE of a provided operand whose container fits in OBUF. -/
theorem encodeWhole_of_ready {s : State} {X : List Byte} (h : CommandReady s X)
    (hcap : (encodeFn X).length ≤ s.cfg.obufBytes) : ∃ t, encodeWhole s = .ok t ∧ EndedWith t (encodeFn X) := by
  by_cases hX : X = []
  · subst hX
    obtain ⟨u, hu, hobuf, herr, hcfg⟩ := encodeWhole_of_nil h
    rw [hu]
    exact endEmpty_of_room hobuf herr (hcfg ▸ hcap)
  · obtain ⟨d, hd, hready, hcfg⟩ := encodeWhole_of_ne_nil h hX
    rw [hd]
    exact hready.encodeOutput_ok hX (hcfg ▸ hcap)

end Sys2Proof.Machine

/-! ## TDES reads the header and the table -/

namespace Sys2Proof.Machine

/-! ### The header's two bytes -/

theorem readHeader_of_short {s : State} (h : s.n < 2) : readHeader s = .error (.raised .malformedTable s) := if_pos h

/-- The header of an operand of two bytes or more (44_table_codec.md R211, R212). -/
theorem readHeader_of_read {s : State} {t p : Byte} (hn : 2 ≤ s.n) (hcap : s.n ≤ s.cfg.ibufBytes)
    (ht : s.ibuf.read 0 = some t) (hp : s.ibuf.read 1 = some p) : readHeader s =
      if isEmptyContainer s.n t p then .ok { s with tb := t, pb := p, tn := 0 }
      else if 7 < p.toNat then .error (.raised .malformedTable { s with tb := t, pb := p })
      else .ok { s with tb := t, pb := p, tn := entryCount t } := by
  rw [readHeader, if_neg (Nat.not_lt.2 hn), ibufRead_of_read (by omega) ht, ibufRead_of_read (by omega) hp]
  rfl

theorem tdes_of_readHeader_error {s : State} {x : Stop} (h : readHeader s = .error x) : tdes s = .error x := by
  rw [tdes, h]
  rfl

theorem tdes_of_readHeader_ok {s t : State} (h : readHeader s = .ok t) : tdes s =
    (readEntries t.tn { t with ipos := 2 } >>= fun u => .ok { u with payStart := u.ipos }) := by
  rw [tdes, h]
  rfl

theorem isEmptyContainer_iff {n : Nat} {t p : Byte} :
    isEmptyContainer n t p = true ↔ n = 2 ∧ t = 0 ∧ p = 0 := by
  simp [isEmptyContainer, and_assoc]

/-- Settles O40: the header alone decides in all three cases. -/
theorem tdesHeaderCases : Obligations.TdesHeaderCases := by
  intro s
  refine ⟨fun hn => ?short, fun t p hn hcap ht hp hpad => ?padded, fun hX => ?empty⟩
  case short => exact congrArg finish (tdes_of_readHeader_error (readHeader_of_short hn))
  case padded =>
    have hne : ¬ isEmptyContainer s.n t p = true := by
      rw [isEmptyContainer_iff]
      rintro ⟨-, -, rfl⟩
      exact absurd hpad (by decide)
    have hread := readHeader_of_read hn hcap ht hp
    rw [if_neg hne, if_pos hpad] at hread
    exact congrArg finish (tdes_of_readHeader_error hread)
  case empty =>
    obtain ⟨hlen, hcap, hread⟩ := hX
    have hn : s.n = 2 := hlen.symm
    have hheader := readHeader_of_read hn.ge hcap (hread 0 (by decide)) (hread 1 (by decide))
    rw [if_pos (isEmptyContainer_iff.2 ⟨hn, rfl, rfl⟩)] at hheader
    show finish (tdes s) = _
    rw [tdes, hheader]
    rfl

/-! ### The table -/

/-- Bytes of a latched operand are read as they stand in it. -/
theorem ibufRead_of_latched {s : State} {X : List Byte} (hX : LatchedIs s X) {i : Nat} {b : Byte}
    (hb : X[i]? = some b) : ibufRead s i = .ok b := by
  obtain ⟨hlen, hcap, hread⟩ := hX
  have hi := (List.getElem?_eq_some_iff.1 hb).1
  exact ibufRead_of_read (by omega) ((hread i hi).trans hb)

theorem ibufReadRange_of_latched {s : State} {X : List Byte} (hX : LatchedIs s X) {i k : Nat}
    (hik : i + k ≤ X.length) : ibufReadRange s i k = .ok ((X.drop i).take k) := by
  induction k generalizing i with
  | zero => rw [List.take_zero]; rfl
  | succ k ih =>
    have hi : i < X.length := by omega
    rw [ibufReadRange, ibufRead_of_latched hX (List.getElem?_eq_getElem hi), ih (by omega),
      List.drop_eq_getElem_cons hi, List.take_succ_cons]
    rfl

section
variable {s : State} {X : List Byte} (hX : LatchedIs s X)
include hX

theorem drop_length_of_latched (i : Nat) : (X.drop i).length = s.n - i := by rw [List.length_drop, hX.1]

/-- 44_table_codec.md R213: no entry begins in the last byte or past it. -/
theorem readEntry_of_short (hshort : (X.drop s.ipos).length < 2) :
    readEntry s = .error (.raised .malformedTable s) := by
  rw [drop_length_of_latched hX] at hshort
  exact if_pos (by omega)

/-- 44_table_codec.md R210, R213: an entry whose first two bytes are there. -/
theorem readEntry_of_cons {sym len : Byte} {rest : List Byte} (hdrop : X.drop s.ipos = sym :: len :: rest) :
    readEntry s =
      if len = 0 ∨ rest.length < ceil8 len.toNat then .error (.raised .malformedTable s)
      else .ok { s with
        dt := s.dt ++ [{ bits := codeword (rest.take (ceil8 len.toNat)) len.toNat, sym := sym }]
        lmax := max s.lmax len.toNat, ipos := s.ipos + entryLength len.toNat } := by
  have hleft := drop_length_of_latched hX s.ipos
  rw [hdrop, List.length_cons, List.length_cons] at hleft
  have hsym : X[s.ipos]? = some sym := by rw [← Nat.add_zero s.ipos, ← List.getElem?_drop, hdrop]; rfl
  have hlen : X[s.ipos + 1]? = some len := by rw [← List.getElem?_drop, hdrop]; rfl
  have hrest : X.drop (s.ipos + 2) = rest := by rw [← List.drop_drop, hdrop]; rfl
  rw [readEntry, if_neg (by omega), ibufRead_of_latched hX hsym, ibufRead_of_latched hX hlen]
  show (if len = 0 then _ else _) = _
  by_cases h0 : len = 0
  · rw [if_pos h0, if_pos (.inl h0)]
  by_cases hroom : rest.length < ceil8 len.toNat
  · rw [if_neg h0, if_pos (by rw [entryLength]; omega), if_pos (.inr hroom)]
  · have hend : s.ipos + 2 + ceil8 len.toNat ≤ X.length := by rw [hX.1]; omega
    rw [if_neg h0, if_neg (by rw [entryLength]; omega), if_neg (not_or.2 ⟨h0, hroom⟩),
      ibufReadRange_of_latched hX hend, hrest]
    rfl

end

/-- 44_table_codec.md R210: TDES's loop reads the entries of the functional form, or takes an error where it reads
none. -/
theorem readEntries_of_latched (k : Nat) {s : State} {X : List Byte} (hX : LatchedIs s X) :
    (∀ es off, parseEntries k s.ipos (X.drop s.ipos) = some (es, off) → readEntries k s = .ok { s with
      dt := s.dt ++ es, lmax := es.foldl (fun m e => max m e.len) s.lmax, ipos := off }) ∧
    (parseEntries k s.ipos (X.drop s.ipos) = none → ∃ u, readEntries k s = .error (.raised .malformedTable u)) := by
  induction k generalizing s with
  | zero =>
    refine ⟨fun es off h => ?_, fun h => by cases h⟩
    cases h
    rw [List.append_nil]
    rfl
  | succ k ih =>
    have malformed (h : readEntry s = .error (.raised .malformedTable s)) :
        ∃ u, readEntries (k + 1) s = .error (.raised .malformedTable u) := ⟨s, by rw [readEntries, h]; rfl⟩
    match hdrop : X.drop s.ipos with
    | [] => exact ⟨fun _ _ h => (nomatch h), fun _ => malformed (readEntry_of_short hX (by rw [hdrop]; decide))⟩
    | [b] => exact ⟨fun _ _ h => (nomatch h), fun _ => malformed (readEntry_of_short hX (by rw [hdrop]; simp))⟩
    | sym :: len :: rest =>
      have hentry := readEntry_of_cons hX hdrop
      rw [parseEntries]
      split
      · next hbad =>
        rw [if_pos hbad] at hentry
        exact ⟨fun _ _ h => (nomatch h), fun _ => malformed hentry⟩
      · next hgood =>
        rw [if_neg hgood] at hentry
        rw [not_or, Nat.not_lt] at hgood
        have hbits : (codeword (rest.take (ceil8 len.toNat)) len.toNat).length = len.toNat :=
          unpack_length _ (by rw [List.length_take_of_le hgood.2]; exact le_ceil8 _)
        have hnext : X.drop (s.ipos + entryLength len.toNat) = rest.drop (ceil8 len.toNat) := by
          rw [entryLength, ← Nat.add_assoc, ← List.drop_drop, ← List.drop_drop, hdrop]
          rfl
        obtain ⟨hok, herr⟩ := ih (s := { s with
          dt := s.dt ++ [{ bits := codeword (rest.take (ceil8 len.toNat)) len.toNat, sym := sym }]
          lmax := max s.lmax len.toNat, ipos := s.ipos + entryLength len.toNat }) hX
        dsimp only at hok herr
        rw [hnext] at hok herr
        rw [readEntries, hentry]
        refine ⟨fun es off h => ?_, fun h => herr (Option.map_eq_none_iff.1 h)⟩
        obtain ⟨⟨es', off'⟩, hparse, heq⟩ := Option.map_eq_some_iff.1 h
        cases heq
        refine (hok es' off' hparse).trans ?_
        rw [List.append_assoc, List.foldl_cons, DtEntry.len, hbits]
        rfl

/-- 44_table_codec.md R210, R213, R214: TDES of a latched operand from an empty decode table. -/
theorem tdes_of_latched {s : State} {X : List Byte} (hX : LatchedIs s X) (hdt : s.dt = []) (hlmax : s.lmax = 0) :
    (∀ p, parseContainer X = some p → tdes s = .ok { s with
      tb := p.tb, pb := p.pb, tn := p.tn, dt := p.entries, lmax := maxLength p.entries, ipos := p.payStart
      payStart := p.payStart }) ∧
    (parseContainer X = none → ∃ u, tdes s = .error (.raised .malformedTable u)) := by
  obtain ⟨s, rfl⟩ : ∃ u : State, s = { u with dt := [], lmax := 0 } := ⟨s, by rw [← hdt, ← hlmax]⟩
  have hlatched := hX
  obtain ⟨hlen, hcap, hread⟩ := hX
  have short (hn : s.n < 2) : ∃ u, tdes { s with dt := [], lmax := 0 } = .error (.raised .malformedTable u) :=
    ⟨_, tdes_of_readHeader_error (readHeader_of_short hn)⟩
  rcases X with _ | ⟨t, _ | ⟨p, rest⟩⟩
  · exact ⟨fun _ h => (nomatch h), fun _ => short (hlen.symm.trans_lt (by decide))⟩
  · exact ⟨fun _ h => (nomatch h), fun _ => short (hlen.symm.trans_lt (by simp))⟩
  have hn : s.n = rest.length + 2 := hlen.symm
  have hheader := readHeader_of_read (s := { s with dt := [], lmax := 0 }) (by dsimp only; omega) hcap
    (hread 0 (by simp)) (hread 1 (by simp))
  have hempty : isEmptyContainer s.n t p = true ↔ t = 0 ∧ p = 0 ∧ rest = [] := by
    rw [isEmptyContainer_iff, hn, ← List.length_eq_zero_iff]
    exact ⟨fun ⟨hr, ht, hp⟩ => ⟨ht, hp, by omega⟩, fun ⟨ht, hp, hr⟩ => ⟨by omega, ht, hp⟩⟩
  rw [parseContainer]
  by_cases he : t = 0 ∧ p = 0 ∧ rest = []
  · rw [if_pos (hempty.2 he)] at hheader
    rw [if_pos he, tdes_of_readHeader_ok hheader]
    refine ⟨fun q h => ?_, fun h => nomatch h⟩
    cases h
    rfl
  rw [if_neg fun h => he (hempty.1 h)] at hheader
  rw [if_neg he]
  by_cases hpad : 7 < p.toNat
  · rw [if_pos hpad] at hheader ⊢
    exact ⟨fun _ h => (nomatch h), fun _ => ⟨_, tdes_of_readHeader_error hheader⟩⟩
  rw [if_neg hpad] at hheader ⊢
  obtain ⟨hok, herr⟩ := readEntries_of_latched (entryCount t)
    (s := { s with dt := [], lmax := 0, tb := t, pb := p, tn := entryCount t, ipos := 2 }) hlatched
  dsimp only [List.drop_succ_cons, List.drop_zero] at hok herr
  rw [tdes_of_readHeader_ok hheader]
  refine ⟨fun q h => ?_, fun h => ?_⟩
  · obtain ⟨⟨es, off⟩, hparse, rfl⟩ := Option.map_eq_some_iff.1 h
    exact congrArg (· >>= fun u => .ok { u with payStart := u.ipos }) (hok es off hparse)
  · obtain ⟨u, hu⟩ := herr (Option.map_eq_none_iff.1 h)
    exact ⟨u, congrArg (· >>= fun u => .ok { u with payStart := u.ipos }) hu⟩

end Sys2Proof.Machine

/-! ## BWALK walks the payload -/

namespace Sys2Proof.Machine

/-! ### The scanned bits -/

/-- 46_decoder.md R253: every payload byte but the last is scanned whole. -/
theorem scannedBits_cons (b : Byte) (payload : List Byte) (p : Nat) : scannedBits (b :: payload) p =
    (byteBits b).take (if payload = [] then 8 - p else 8) ++ scannedBits payload p := by
  rw [scannedBits, scannedBits, unpack, unpack, List.flatMap_cons, List.take_append, byteBits_length, payloadBits,
    if_neg (by simp), List.length_cons, Nat.add_sub_cancel]
  by_cases hlast : payload = []
  · subst hlast
    simp
  · have hpos : 1 ≤ payload.length := List.length_pos_iff.2 hlast
    rw [if_neg hlast, payloadBits, if_neg (by omega), List.take_of_length_le (by rw [byteBits_length]; omega),
      List.take_of_length_le (byteBits_length b).le, show 8 * payload.length + (8 - p) - 8 =
        8 * (payload.length - 1) + (8 - p) by omega]

theorem scannedBits_nil (p : Nat) : scannedBits [] p = [] := rfl

/-! ### The walk -/

/-- BWALK's state with the accumulator `acc` and the bytes `out` written (46_decoder.md R251). -/
def State.walked (s : State) (acc : Bits) (out : List Byte) : State :=
  { s with acc := acc, ocnt := out.length, obuf := s.obuf.writeBytes 0 out, opos := out.length }

/-- The functional walk with a state's decode table and room (46_decoder.md R260). -/
def State.walkFn (s : State) (bits acc : Bits) (out : List Byte) : Except Err (List Byte) :=
  Machine.walkFn s.dt s.lmax s.cfg.obufBytes bits acc out

/-- What the machine's walk does is what the functional walk does: it goes on to where `more` bits are left, or both
end with the same error. -/
def WalksAlike (s : State) (r : Except Stop State) (w : Except Err (List Byte)) (more : Bits) : Prop :=
  (∃ acc out, out.length ≤ s.cfg.obufBytes ∧ r = .ok (s.walked acc out) ∧ w = s.walkFn more acc out) ∨
    ∃ e u, r = .error (.raised e u) ∧ w = .error e

theorem emitSymbol_walked {s : State} {acc : Bits} {out : List Byte} (sym : Byte)
    (hroom : out.length < s.cfg.obufBytes) :
    emitSymbol sym (s.walked acc out) = .ok (s.walked [] (out ++ [sym])) := by
  have hocnt : (s.walked acc out).ocnt ≠ (s.walked acc out).cfg.obufBytes := hroom.ne
  have hwrite := obufWrite_of_lt (s := s.walked acc out) (i := (s.walked acc out).ocnt) sym hroom
  have hobuf : (s.obuf.writeBytes 0 out).write out.length sym = s.obuf.writeBytes 0 (out ++ [sym]) := by
    rw [Memory.writeBytes_append, Nat.zero_add]
    rfl
  have hlen : (out ++ [sym]).length = out.length + 1 := by simp
  rw [emitSymbol, if_neg hocnt, hwrite]
  refine congrArg Except.ok ?_
  simp only [State.walked, hobuf, hlen]

/-- 46_decoder.md R252, R255, R258: one bit. -/
theorem scanBit_walksAlike (bit : Bool) (more : Bits) {s : State} {acc : Bits} {out : List Byte}
    (hout : out.length ≤ s.cfg.obufBytes) :
    WalksAlike s (scanBit bit (s.walked acc out)) (s.walkFn (bit :: more) acc out) more := by
  rw [State.walkFn, Machine.walkFn]
  show WalksAlike s (match lookup s.dt (acc ++ [bit]) with
    | some sym => emitSymbol sym (s.walked (acc ++ [bit]) out)
    | none => if s.lmax < (acc ++ [bit]).length then .error (.raised .unknownCode (s.walked (acc ++ [bit]) out))
      else .ok (s.walked (acc ++ [bit]) out)) _ more
  cases lookup s.dt (acc ++ [bit]) with
  | some sym =>
    dsimp only
    by_cases hfull : out.length = s.cfg.obufBytes
    · rw [if_pos hfull]
      exact .inr ⟨_, _, if_pos hfull, rfl⟩
    · rw [if_neg hfull]
      have hroom : out.length < s.cfg.obufBytes := Nat.lt_of_le_of_ne hout hfull
      exact .inl ⟨_, _, by simpa using hroom, emitSymbol_walked sym hroom, rfl⟩
  | none =>
    dsimp only
    by_cases hlong : s.lmax < (acc ++ [bit]).length
    · rw [if_pos hlong, if_pos hlong]
      exact .inr ⟨_, _, rfl, rfl⟩
    · rw [if_neg hlong, if_neg hlong]
      exact .inl ⟨_, _, hout, rfl, rfl⟩

theorem scanBits_walksAlike (bits more : Bits) {s : State} {acc : Bits} {out : List Byte}
    (hout : out.length ≤ s.cfg.obufBytes) :
    WalksAlike s (scanBits bits (s.walked acc out)) (s.walkFn (bits ++ more) acc out) more := by
  induction bits generalizing acc out with
  | nil => exact .inl ⟨acc, out, hout, rfl, rfl⟩
  | cons bit bits ih =>
    rw [scanBits, List.cons_append]
    rcases scanBit_walksAlike bit (bits ++ more) (acc := acc) hout with ⟨acc', out', hout', hscan, hwalk⟩ |
      ⟨e, u, hscan, hwalk⟩ <;> rw [hscan, hwalk]
    · exact ih hout'
    · exact .inr ⟨e, u, rfl, rfl⟩

/-- 46_decoder.md R251, R253: the bytes of the payload from the cursor on. -/
theorem walkBytes_walksAlike (payload : List Byte) {s : State} {X : List Byte} {acc : Bits} {out : List Byte}
    (hX : LatchedIs s X) (hpay : X.drop s.ipos = payload) (hout : out.length ≤ s.cfg.obufBytes) :
    WalksAlike { s with ipos := s.ipos + payload.length } (walkBytes payload.length (s.walked acc out))
      (s.walkFn (scannedBits payload s.pb.toNat) acc out) [] := by
  induction payload generalizing s acc out with
  | nil => exact .inl ⟨acc, out, hout, rfl, rfl⟩
  | cons b payload ih =>
    have hleft := drop_length_of_latched hX s.ipos
    rw [hpay, List.length_cons] at hleft
    have hb : X[s.ipos]? = some b := by rw [← Nat.add_zero s.ipos, ← List.getElem?_drop, hpay]; rfl
    have hnext : X.drop (s.ipos + 1) = payload := by rw [← List.drop_drop, hpay]; rfl
    have hread : ibufRead (s.walked acc out) (s.walked acc out).ipos = .ok b :=
      ibufRead_of_latched (s := s.walked acc out) hX hb
    have hscanned : bitsScanned (s.walked acc out) (s.walked acc out).ipos =
        if payload = [] then 8 - s.pb.toNat else 8 := by
      refine if_congr ?_ rfl rfl
      show s.ipos = s.n - 1 ↔ payload = []
      rw [← List.length_eq_zero_iff]
      omega
    rw [List.length_cons, walkBytes, hread, scannedBits_cons]
    show WalksAlike _ (scanBits _ (s.walked acc out) >>= _) _ _
    rw [hscanned]
    rcases scanBits_walksAlike ((byteBits b).take (if payload = [] then 8 - s.pb.toNat else 8))
      (scannedBits payload s.pb.toNat) (acc := acc) hout
        with ⟨acc', out', hout', hscan, hwalk⟩ | ⟨e, u, hscan, hwalk⟩ <;>
      rw [hscan, hwalk]
    · have hrest := ih (s := { s with ipos := s.ipos + 1 }) (acc := acc') hX hnext hout'
      rwa [show s.ipos + (payload.length + 1) = s.ipos + 1 + payload.length by omega]
    · exact .inr ⟨e, u, rfl, rfl⟩

/-- 46_decoder.md R251, R257, R260: BWALK of a latched operand is the functional walk over its scanned bits. -/
theorem bwalk_of_latched {s : State} {X : List Byte} (hX : LatchedIs s X) :
    (∀ out, s.walkFn (scannedBits (X.drop s.payStart) s.pb.toNat) [] [] = .ok out →
      ∃ ip op, bwalk s = .ok { s with
      obuf := s.obuf.writeBytes 0 out, ocnt := out.length, acc := [], ipos := ip, opos := op }) ∧
    (∀ e, s.walkFn (scannedBits (X.drop s.payStart) s.pb.toNat) [] [] = .error e →
      ∃ u, bwalk s = .error (.raised e u)) := by
  have hloop := walkBytes_walksAlike (X.drop s.payStart) (s := { s with ipos := s.payStart }) (acc := []) (out := [])
    hX rfl (Nat.zero_le _)
  rw [drop_length_of_latched hX] at hloop
  have hstart : bwalk s = (walkBytes (s.n - s.payStart) (State.walked { s with ipos := s.payStart } [] []) >>=
      fun t => if 0 < t.acc.length then .error (.raised .truncatedPayload t) else .ok t) := rfl
  rcases hloop with ⟨acc, out, -, hwalk, hfn⟩ | ⟨e, u, hwalk, hfn⟩ <;> rw [hstart, hwalk]
  · change s.walkFn (scannedBits (X.drop s.payStart) s.pb.toNat) [] [] = if acc = [] then .ok out else _ at hfn
    rw [hfn]
    by_cases hacc : acc = []
    · subst hacc
      refine ⟨fun out' h => ?_, fun e h => nomatch h⟩
      cases h
      exact ⟨_, _, rfl⟩
    · rw [if_neg hacc]
      refine ⟨fun out' h => (nomatch h), fun e h => ?_⟩
      cases h
      exact ⟨_, if_pos (List.length_pos_iff.2 hacc)⟩
  · change s.walkFn (scannedBits (X.drop s.payStart) s.pb.toNat) [] [] = _ at hfn
    rw [hfn]
    refine ⟨fun out' h => (nomatch h), fun e h => ?_⟩
    cases h
    exact ⟨u, rfl⟩

end Sys2Proof.Machine

/-! ## The round trip on the machine -/

namespace Sys2Proof.Machine

theorem decodeWhole_of_ready_eq {s : State} {C : List Byte} (h : CommandReady s C) :
    decodeWhole s = (tdes (s.startCommand.enterPhase .tdes) >>= fun a =>
      bwalk (a.enterPhase .bwalk) >>= fun b => .ok (endDecode b)) := by
  rw [decodeWhole, beginCommand_of_ready h]
  rfl

/-- 40_commands.md R140, R142: DECODE of a provided operand ends with its bytes or its error. -/
theorem decodeWhole_of_ready {s : State} {C : List Byte} (h : CommandReady s C) :
    (∀ out, decodeFn s.cfg.obufBytes C = .ok out → ∃ t, decodeWhole s = .ok t ∧ EndedWith t out) ∧
    (∀ e, decodeFn s.cfg.obufBytes C = .error e → ∃ u, decodeWhole s = .error (.raised e u)) := by
  have hlatched := latchedIs_startCommand h .tdes
  obtain ⟨hok, herr⟩ := tdes_of_latched hlatched rfl rfl
  rw [decodeFn, decodeWhole_of_ready_eq h]
  cases hparse : parseContainer C with
  | none =>
    obtain ⟨u, hu⟩ := herr hparse
    rw [hu]
    refine ⟨fun out h => (nomatch h), fun e h => ?_⟩
    cases h
    exact ⟨u, rfl⟩
  | some p =>
    rw [hok p hparse]
    obtain ⟨hout, hstop⟩ := bwalk_of_latched (X := C) (s := State.enterPhase { s.startCommand.enterPhase .tdes with
      tb := p.tb, pb := p.pb, tn := p.tn, dt := p.entries, lmax := maxLength p.entries
      ipos := p.payStart, payStart := p.payStart } .bwalk) hlatched
    refine ⟨fun out h => ?_, fun e h => ?_⟩
    · obtain ⟨ip, op, hwalk⟩ := hout out h
      refine ⟨endDecode { s.startCommand.enterPhase .bwalk with
        tb := p.tb, pb := p.pb, tn := p.tn, dt := p.entries, lmax := maxLength p.entries, payStart := p.payStart
        obuf := Memory.writeBytes [] 0 out, ocnt := out.length, acc := [], ipos := ip, opos := op },
        ?_, rfl, rfl, rfl, rfl, Memory.writeBytes_payload_header [] out⟩
      show (bwalk _ >>= _) = _
      rw [hwalk]
      rfl
    · obtain ⟨u, hu⟩ := hstop e h
      refine ⟨u, ?_⟩
      show (bwalk _ >>= _) = _
      rw [hu]
      rfl

/-- ENCODE as one atomic step, where the container fits in OBUF. -/
theorem exec_encode_of_ready {s : State} {X : List Byte} (hg : s.cfg.grain = .command) (h : CommandReady s X)
    (hcap : (encodeFn X).length ≤ s.cfg.obufBytes) :
    ∃ t, exec .encode s = .next t ∧ EndedWith t (encodeFn X) ∧ SameHostSide s t := by
  obtain ⟨t, ht, hend⟩ := encodeWhole_of_ready h hcap
  have hexec : exec .encode s = .next t := (execEncode_command h.1 hg).trans (congrArg finish ht)
  exact ⟨t, hexec, hend, (exec_frame hexec).1⟩

/-- DECODE as one atomic step, where the container has a result that fits in OBUF. -/
theorem exec_decode_of_ready {s : State} {C out : List Byte} (hg : s.cfg.grain = .command) (h : CommandReady s C)
    (hout : decodeFn s.cfg.obufBytes C = .ok out) :
    ∃ t, exec .decode s = .next t ∧ EndedWith t out ∧ SameHostSide s t := by
  obtain ⟨t, ht, hend⟩ := (decodeWhole_of_ready h).1 out hout
  have hexec : exec .decode s = .next t := (execDecode_command h.1 hg).trans (congrArg finish ht)
  exact ⟨t, hexec, hend, (exec_frame hexec).1⟩

/-- A command ended without an error shows STATE = DONE and nothing else in STATUS (10_state.md R25). -/
theorem EndedWith.statusWord {t : State} {bytes : List Byte} (h : EndedWith t bytes) : statusWord t = 2 := by
  obtain ⟨hstat, hphase, herr, -, -⟩ := h
  rw [Machine.statusWord, hstat, hphase, herr]
  rfl

theorem step_wait_of_done {s : State} {rest : List HostMove} (hd : s.stat = .done) (h : s.host = .wait :: rest) :
    step s = .next { s with host := rest, reply := .word (statusWord s) } :=
  step_of_access h (hostMove_wait_done (s := { s with host := rest }) hd)

/-- Settles O49: ENCODE leaves the container, COPYBACK provides it, and DECODE leaves the operand; each WAIT finds the
command ended. -/
theorem roundTripOnTheMachine : Obligations.RoundTripOnTheMachine := by
  intro s X rest hwf hg hready hobuf hibuf hX hhost
  -- ENCODE and WAIT
  obtain ⟨a, ha, aend, acfg, -, -, ahost, -⟩ := exec_encode_of_ready (s := { s with
    host := [.wait, .copyback, cmdMove 2, .wait] ++ rest }) hg hready hobuf
  have step₁ : step s = .next a := (stepRunsWrittenCommand s 1 _ _ hhost hready.1 decodeCmd_one).trans ha
  have step₂ := step_wait_of_done aend.1 ahost
  -- COPYBACK
  obtain ⟨c, step₃, cready, hc⟩ := copybackMakesTheResultTheOperand { a with
    host := [.copyback, cmdMove 2, .wait] ++ rest, reply := .word (statusWord a) } (encodeFn X)
    ([cmdMove 2, .wait] ++ rest) (acfg ▸ hwf) aend (acfg ▸ hobuf) (acfg ▸ hibuf) rfl
  have ccfg : c.cfg = s.cfg := by rw [hc]; exact acfg
  have chost : c.host = cmdMove 2 :: ([.wait] ++ rest) := by rw [hc]; rfl
  -- DECODE and WAIT
  obtain ⟨d, hd, dend, -, dinLen, dibuf, dhost, -⟩ := exec_decode_of_ready (s := { c with host := [.wait] ++ rest })
    (C := encodeFn X) (ccfg ▸ hg) cready (decodeFn_encodeFn (ccfg ▸ hX))
  have step₄ : step c = .next d := (stepRunsWrittenCommand c 2 _ _ chost cready.1 decodeCmd_two).trans hd
  have step₅ := step_wait_of_done dend.1 dhost
  refine ⟨{ d with host := rest, reply := .word (statusWord d) }, ?_, dend, rfl, congrArg Reply.word dend.statusWord,
    ?_⟩
  · calc Sys2Proof.core.run 5 s
      _ = Sys2Proof.core.run 4 a := run_succ_of_step step₁ 4
      _ = _ := run_succ_of_step step₂ 3
      _ = Sys2Proof.core.run 2 c := run_succ_of_step step₃ 2
      _ = Sys2Proof.core.run 1 d := run_succ_of_step step₄ 1
      _ = _ := run_succ_of_step step₅ 0
  · obtain ⟨-, ⟨hlen, hread⟩, -⟩ := cready
    exact ⟨hlen.trans dinLen.symm, fun i hi => (congrArg (Memory.read · i) dibuf).trans (hread i hi)⟩

end Sys2Proof.Machine

/-! ## Errors that end a command -/

namespace Sys2Proof.Machine

/-- Of an operand longer than IBUF_BYTES the command start raises CapacityExceeded (40_commands.md R133). -/
theorem beginCommand_of_gt {s : State} (h : s.cfg.ibufBytes < s.inLen) (p : Phase) :
    beginCommand p s = .error (.raised .capacityExceeded s.startCommand) := if_pos h

/-- Settles O17: with either grain the command start is the first thing done. -/
theorem inputCapacityIsCheckedFirst : Obligations.InputCapacityIsCheckedFirst := by
  intro s i hi hb hlen
  have hencode : encodeWhole s = .error (.raised .capacityExceeded s.startCommand) := by
    rw [encodeWhole, beginCommand_of_gt hlen]
    rfl
  have hdecode : decodeWhole s = .error (.raised .capacityExceeded s.startCommand) := by
    rw [decodeWhole, beginCommand_of_gt hlen]
    rfl
  rcases hi with rfl | rfl <;> cases hg : s.cfg.grain
  · exact (execEncode_command hb hg).trans (congrArg finish hencode)
  · exact (execEncode_microOp hb hg).trans (congrArg finish (beginCommand_of_gt hlen _))
  · exact (execDecode_command hb hg).trans (congrArg finish hdecode)
  · exact (execDecode_microOp hb hg).trans (congrArg finish (beginCommand_of_gt hlen _))

/-- Where the status fields agree, an error has ended the command (60_exceptions.md R280). -/
theorem StatusInv.endedWithError {t : State} (h : StatusInv t) (he : t.err ≠ .ok) : EndedWithError t t.err := by
  obtain ⟨hbusy, hdone, -, herr⟩ := h
  obtain ⟨houtLen, hobuf⟩ := herr he
  have hstat : t.stat = .done := by
    by_contra hne
    exact he (hdone hne).1
  have hphase : t.phase = .none := by
    by_contra hne
    exact absurd (hbusy.2 hne) (by rw [hstat]; decide)
  exact ⟨hstat, hphase, rfl, houtLen, fun i => by rw [hobuf, Memory.read_nil]⟩

/-- A micro-operation started without an error pending ends with one only by raising it. -/
theorem Ran.endedWithError {s t : State} {r : Except Stop State} (hr : Ran Works s r) (hs : s.err = .ok)
    (ht : finish r = .next t) (he : t.err ≠ .ok) : EndedWithError t t.err := by
  rcases finish_next ht with rfl | ⟨e, u, rfl, rfl⟩
  · obtain ⟨-, -, -, herr, -⟩ := hr
    exact absurd (herr.trans hs) he
  · exact (statusInv_raiseErr u e).endedWithError he

/-- Settles O20: a command leaves the status fields in agreement, and a micro-operation raises its error. -/
theorem errorEntryLeavesTheErrorAlone : Obligations.ErrorEntryLeavesTheErrorAlone := by
  intro i s t h hstart he
  refine ⟨?_, (exec_frame h).1⟩
  by_cases hcmd : i = .encode ∨ i = .decode
  · exact StatusInv.endedWithError (command_statusInv hcmd h) he
  have hs : s.err = .ok := hstart.resolve_right hcmd
  cases i with
  | encode => exact absurd (.inl rfl) hcmd
  | decode => exact absurd (.inr rfl) hcmd
  | fcount => exact (ran_fcount s).endedWithError hs h he
  | tbuild => exact (ran_tbuild s).endedWithError hs h he
  | cgen => exact (ran_cgen s).endedWithError hs h he
  | bpack => exact (ran_bpack s).endedWithError hs h he
  | tser => exact (ran_tser s).endedWithError hs h he
  | tdes => exact (ran_tdes s).endedWithError hs h he
  | bwalk => exact (ran_bwalk s).endedWithError hs h he

end Sys2Proof.Machine

/-! ## The header and the round trip of the functions -/

namespace Sys2Proof.Machine

/-- T, P and the table entries measure HDR_LEN (40_commands.md R138). -/
theorem length_append_tableEntries (code : Vector Bits 256) (t p : Byte) :
    ([t, p] ++ tableEntries code).length = headerLength code := by
  rw [headerLength_eq, List.length_append, tableEntries, List.length_flatMap]
  simp only [entryBytes_length]
  rfl

/-- Settles O39: TSER's loop over the code table is one write of the header. -/
theorem tserWritesTheHeader : Obligations.TserWritesTheHeader := by
  intro s H hH hroom
  exact ⟨congrArg finish (tser_of_room hH hroom), hH ▸ length_append_tableEntries _ _ _⟩

/-- Settles O48. -/
theorem decodeUndoesEncode : Obligations.DecodeUndoesEncode := fun _ _ => decodeFn_encodeFn

end Sys2Proof.Machine

/-! ## Every running command ends -/

namespace Sys2Proof.Machine

/-- How many steps of the core are left to a command in a phase, its last step included (40_commands.md R137, R141). -/
def Phase.stepsLeft : Phase → Nat
  | .none => 0
  | .fcount => 5
  | .tbuild => 4
  | .cgen => 3
  | .bpack => 2
  | .tser => 1
  | .tdes => 2
  | .bwalk => 1

theorem Phase.stepsLeft_le (p : Phase) : p.stepsLeft ≤ 5 := by cases p <;> decide

theorem stepsLeft_pos {p : Phase} (h : p ≠ .none) : 0 < p.stepsLeft := by
  cases p with
  | none => exact absurd rfl h
  | _ => exact Nat.succ_pos _

theorem stepsLeft_of_successor : ∀ p ∈ phaseSuccessors, p.2.stepsLeft < p.1.stepsLeft ∧ p.2 ≠ .none := by decide

theorem step_of_host_nil {s : State} (h : s.host = []) (hb : s.stat ≠ .busy) : step s = .next s := by
  rw [step, nextMove_of_coreSlot (.inl ⟨h, rfl⟩), coreMove_of_ne_busy hb]

/-- With no command running and no host move to come nothing happens (10_state.md R47). -/
theorem run_of_host_nil (k : Nat) {s : State} (h : s.host = []) (hb : s.stat ≠ .busy) :
    Sys2Proof.core.run k s = .next s := by
  induction k with
  | zero => rfl
  | succ k ih => rw [run_succ_of_step (step_of_host_nil h hb), ih]

theorem PhaseStep.host {s t : State} (h : PhaseStep s t) : t.host = s.host := by
  obtain ⟨⟨-, -, -, hhost, -⟩, -⟩ := h.frame
  exact hhost

/-- `k` steps from the state an outcome is. -/
def thenRun (k : Nat) : Host.Outcome State Fault Refusal → Host.Outcome State Fault Refusal
  | .next t => Sys2Proof.core.run k t
  | .fault f => .fault f
  | .refused r => .refused r

theorem coreRun_succ_of_fault {M : Host.Core} {s : M.State} {f : M.Fault} (h : M.step s = .fault f) (k : Nat) :
    M.run (k + 1) s = .fault f := by
  rw [Host.Core.run, h]

theorem coreRun_succ_of_refused {M : Host.Core} {s : M.State} {r : M.Refusal} (h : M.step s = .refused r) (k : Nat) :
    M.run (k + 1) s = .refused r := by
  rw [Host.Core.run, h]

theorem run_succ (k : Nat) (s : State) : Sys2Proof.core.run (k + 1) s = thenRun k (step s) := by
  cases h : step s with
  | next t => exact run_succ_of_step h k
  | fault f => exact coreRun_succ_of_fault (M := Sys2Proof.core) h k
  | refused r => exact coreRun_succ_of_refused (M := Sys2Proof.core) h k

/-- A run of more steps that ends in a next state made the first one. -/
theorem step_of_run {k : Nat} {s t : State} (h : Sys2Proof.core.run (k + 1) s = .next t) :
    ∃ u, step s = .next u ∧ Sys2Proof.core.run k u = .next t := by
  rw [run_succ] at h
  cases hs : step s with
  | next u => exact ⟨u, rfl, by rwa [hs] at h⟩
  | fault f => rw [hs] at h; cases h
  | refused r => rw [hs] at h; cases h

/-- A running command ends within the steps that are left to its phase. -/
theorem run_stepsLeft (k : Nat) {s t : State} (hhost : s.host = []) (hb : s.stat = .busy) (hp : s.phase ≠ .none)
    (hk : s.phase.stepsLeft ≤ k) (h : Sys2Proof.core.run k s = .next t) : t.stat = .done := by
  induction k generalizing s with
  | zero => exact absurd (stepsLeft_pos hp) (Nat.not_lt.2 hk)
  | succ k ih =>
    obtain ⟨u, hu, hrun⟩ := step_of_run h
    have hstep := step_coreSlot_busy (.inl ⟨hhost, rfl⟩) hb hu
    have huhost := hstep.host.trans hhost
    have ended (hd : u.stat = .done) : t.stat = .done := by
      rw [run_of_host_nil k huhost (by rw [hd]; decide)] at hrun
      cases hrun
      exact hd
    cases hstep with
    | next hw hq =>
      obtain ⟨-, hstat, -⟩ := hw
      obtain ⟨hlt, hne⟩ := stepsLeft_of_successor _ hq
      exact ih huhost (hstat.trans hb) hne (by dsimp only [State.enterPhase_phase] at hlt ⊢; omega) hrun
    | done _ _ => exact ended rfl
    | raised _ _ => exact ended rfl

/-- Settles O51: no phase has more than five steps left to it. -/
theorem runningCommandEnds : Obligations.RunningCommandEnds :=
  fun s _ hhost hb hp h => run_stepsLeft 5 hhost hb hp s.phase.stepsLeft_le h

end Sys2Proof.Machine

/-! ## The finer model -/

namespace Sys2Proof.Machine

/-! ### No micro-operation looks at the grain -/

/-- The state with the grain parameter `g`. -/
def State.withGrain (s : State) (g : Grain) : State := { s with cfg := { s.cfg with grain := g } }

/-- How a micro-operation ends, with the grain parameter `g` in its last state. -/
def atGrain (g : Grain) : Except Stop State → Except Stop State
  | .ok t => .ok (t.withGrain g)
  | .error (.raised e u) => .error (.raised e (u.withGrain g))
  | .error (.fault f) => .error (.fault f)

/-- `f` does with one grain what it does with the other. -/
def GrainFree (f : State → Except Stop State) : Prop := ∀ (g : Grain) (s : State), f (s.withGrain g) = atGrain g (f s)

section
variable {g : Grain}

/-- One micro-operation after another. -/
theorem atGrain_bind {r r' : Except Stop State} {f f' : State → Except Stop State} (h : r' = atGrain g r)
    (hf : ∀ t, f' (t.withGrain g) = atGrain g (f t)) : (r' >>= f') = atGrain g (r >>= f) := by
  subst h
  rcases r with (⟨e, u⟩ | x) | t
  · rfl
  · rfl
  · exact hf t

/-- A computation of a value, which raises no error, and then what is done with the value. -/
theorem atGrain_bindValue {α : Type} {r : Except Stop α} {f f' : α → Except Stop State}
    (hr : (∃ a, r = .ok a) ∨ ∃ x, r = .error (.fault x)) (hf : ∀ a, f' a = atGrain g (f a)) :
    (r >>= f') = atGrain g (r >>= f) := by
  rcases hr with ⟨a, rfl⟩ | ⟨x, rfl⟩
  · exact hf a
  · rfl

/-- A read, and then what is done with the byte. -/
theorem atGrain_bindRead {s : State} {i : Nat} {f f' : Byte → Except Stop State}
    (hf : ∀ b, f' b = atGrain g (f b)) :
    (ibufRead (s.withGrain g) i >>= f') = atGrain g (ibufRead s i >>= f) := by
  refine atGrain_bindValue (r := ibufRead s i) ?_ hf
  cases h : ibufRead s i with
  | ok b => exact .inl ⟨b, rfl⟩
  | error x =>
    obtain ⟨y, rfl⟩ := ibufRead_error h
    exact .inr ⟨y, rfl⟩

theorem atGrain_ite {c : Prop} [Decidable c] {a a' b b' : Except Stop State} (ha : a' = atGrain g a)
    (hb : b' = atGrain g b) : (if c then a' else b') = atGrain g (if c then a else b) := by
  rw [ha, hb, apply_ite (atGrain g)]

theorem obufWrite_withGrain (s : State) (i : Nat) (b : Byte) :
    obufWrite (s.withGrain g) i b = atGrain g (obufWrite s i b) := atGrain_ite rfl rfl

end

theorem GrainFree.bind {f h : State → Except Stop State} (hf : GrainFree f) (hh : GrainFree h) :
    GrainFree fun s => f s >>= h := fun g s => atGrain_bind (hf g s) (hh g)

theorem GrainFree.enterPhase {f : State → Except Stop State} (hf : GrainFree f) (p : Phase) :
    GrainFree fun s => f (s.enterPhase p) := fun g s => hf g (s.enterPhase p)

theorem grainFree_fcountLoop (k : Nat) : GrainFree (fcountLoop k) := by
  intro g s
  induction k generalizing s with
  | zero => rfl
  | succ k ih => exact atGrain_bindRead fun b => ih { countByte b s with ipos := (countByte b s).ipos + 1 }

theorem grainFree_fcount : GrainFree fcount := fun g s => grainFree_fcountLoop s.n g { s with ipos := 0 }

theorem grainFree_tbuild : GrainFree tbuild := by
  intro g s
  refine congrArg Except.ok ?_
  unfold setRoot
  dsimp only [State.withGrain]
  cases lowestLive (buildArena s.nodes s.freq) <;> rfl

theorem grainFree_cgen : GrainFree cgen := fun _ s =>
  atGrain_bindValue (generateCodes_cases s.nodes s.root s.code) fun _ => rfl

theorem grainFree_measureOutput : GrainFree measureOutput := fun _ _ => atGrain_ite rfl rfl

theorem grainFree_packBit (bit : Bool) : GrainFree (packBit bit) := fun _ s =>
  atGrain_ite
    (atGrain_bind (obufWrite_withGrain { s with totalBits := s.totalBits + 1 } s.opos _) fun _ => rfl) rfl

theorem grainFree_packBits (bits : Bits) : GrainFree (packBits bits) := by
  induction bits with
  | nil => exact fun _ _ => rfl
  | cons bit bits ih => exact (grainFree_packBit bit).bind ih

theorem grainFree_bpackLoop (k : Nat) : GrainFree (bpackLoop k) := by
  induction k with
  | zero => exact fun _ _ => rfl
  | succ k ih =>
    intro g s
    refine atGrain_bindRead fun b => atGrain_bind (grainFree_packBits _ g s) fun t => ?_
    exact ih g { t with ipos := t.ipos + 1 }

theorem grainFree_flushPartial : GrainFree flushPartial := fun _ s =>
  atGrain_ite (atGrain_bind (obufWrite_withGrain s _ _) fun _ => rfl) rfl

theorem grainFree_bpack : GrainFree bpack := fun g s =>
  atGrain_bind
    (grainFree_bpackLoop s.n g { s with opos := s.hdrLen, pkAcc := 0, pkN := 0, totalBits := 0, ipos := 0 })
    fun t => atGrain_bind (grainFree_flushPartial g t) fun _ => rfl

theorem grainFree_obufPut (bs : List Byte) : GrainFree (obufPut bs) := by
  induction bs with
  | nil => exact fun _ _ => rfl
  | cons b bs ih =>
    exact fun g s => atGrain_bind (obufWrite_withGrain s s.opos b) fun t => ih g { t with opos := t.opos + 1 }

theorem grainFree_tser : GrainFree tser := by
  intro g s
  refine atGrain_bind (obufWrite_withGrain s 0 _) fun t => atGrain_bind (obufWrite_withGrain t 1 _) fun u => ?_
  rw [putEntries_symbolTable, putEntries_symbolTable]
  exact grainFree_obufPut _ g { u with opos := 2 }

theorem grainFree_endEmpty : GrainFree endEmpty := fun _ s =>
  atGrain_ite rfl (atGrain_bind (obufWrite_withGrain s 0 _) fun t =>
    atGrain_bind (obufWrite_withGrain t 1 _) fun _ => rfl)

theorem grainFree_readHeader : GrainFree readHeader := fun _ _ =>
  atGrain_ite rfl (atGrain_bindRead fun _ => atGrain_bindRead fun _ => atGrain_ite rfl (atGrain_ite rfl rfl))

theorem ibufReadRange_withGrain (s : State) (g : Grain) (i k : Nat) :
    ibufReadRange (s.withGrain g) i k = ibufReadRange s i k := by
  induction k generalizing i with
  | zero => rfl
  | succ k ih => exact congrArg (fun r => ibufRead s i >>= fun b => r >>= fun bs => .ok (b :: bs)) (ih (i + 1))

theorem grainFree_readEntry : GrainFree readEntry := by
  intro g s
  refine atGrain_ite rfl (atGrain_bindRead fun _ => atGrain_bindRead fun len =>
    atGrain_ite rfl (atGrain_ite rfl ?_))
  rw [ibufReadRange_withGrain]
  refine atGrain_bindValue ?_ fun _ => rfl
  exact (ibufReadRange_cases s _ _).imp_left fun ⟨bs, hbs, _⟩ => ⟨bs, hbs⟩

theorem grainFree_readEntries (k : Nat) : GrainFree (readEntries k) := by
  induction k with
  | zero => exact fun _ _ => rfl
  | succ k ih => exact grainFree_readEntry.bind ih

theorem grainFree_tdes : GrainFree tdes := fun g s =>
  atGrain_bind (grainFree_readHeader g s) fun t =>
    atGrain_bind (grainFree_readEntries t.tn g { t with ipos := 2 }) fun _ => rfl

theorem grainFree_emitSymbol (sym : Byte) : GrainFree (emitSymbol sym) := fun _ s =>
  atGrain_ite rfl (atGrain_bind (obufWrite_withGrain s _ _) fun _ => rfl)

theorem grainFree_scanBit (bit : Bool) : GrainFree (scanBit bit) := by
  intro g s
  unfold scanBit
  dsimp only [State.withGrain]
  cases lookup s.dt (s.acc ++ [bit]) with
  | some sym => exact grainFree_emitSymbol sym g { s with acc := s.acc ++ [bit] }
  | none => exact atGrain_ite rfl rfl

theorem grainFree_scanBits (bits : Bits) : GrainFree (scanBits bits) := by
  induction bits with
  | nil => exact fun _ _ => rfl
  | cons bit bits ih => exact (grainFree_scanBit bit).bind ih

theorem grainFree_walkBytes (k : Nat) : GrainFree (walkBytes k) := by
  induction k with
  | zero => exact fun _ _ => rfl
  | succ k ih =>
    intro g s
    refine atGrain_bindRead fun b => atGrain_bind (grainFree_scanBits _ g s) fun t => ?_
    exact ih g { t with ipos := t.ipos + 1 }

theorem grainFree_bwalk : GrainFree bwalk := fun g s =>
  atGrain_bind
    (grainFree_walkBytes (s.n - s.payStart) g { s with acc := [], ocnt := 0, ipos := s.payStart, opos := 0 })
    fun _ => atGrain_ite rfl rfl

theorem grainFree_beginCommand (p : Phase) : GrainFree (beginCommand p) := fun _ _ => atGrain_ite rfl rfl

/-! ### The rest of a command, from each of its phases on (40_commands.md R135, R137, R140, R141) -/

/-- ENCODE from TSER on. -/
def encodeFromTser (s : State) : Except Stop State := tser s >>= fun t => .ok (endEncode t)

/-- ENCODE from BPACK on. -/
def encodeFromBpack (s : State) : Except Stop State := bpack s >>= fun t => encodeFromTser (t.enterPhase .tser)

/-- ENCODE from CGEN on. -/
def encodeFromCgen (s : State) : Except Stop State :=
  cgen s >>= fun t => measureOutput t >>= fun t => encodeFromBpack (t.enterPhase .bpack)

/-- ENCODE from TBUILD on. -/
def encodeFromTbuild (s : State) : Except Stop State := tbuild s >>= fun t => encodeFromCgen (t.enterPhase .cgen)

/-- ENCODE from FCOUNT on. -/
def encodeFromFcount (s : State) : Except Stop State :=
  fcount s >>= fun t => if t.nsym = 0 then endEmpty t else encodeFromTbuild (t.enterPhase .tbuild)

/-- DECODE from BWALK on. -/
def decodeFromBwalk (s : State) : Except Stop State := bwalk s >>= fun t => .ok (endDecode t)

/-- DECODE from TDES on. -/
def decodeFromTdes (s : State) : Except Stop State := tdes s >>= fun t => decodeFromBwalk (t.enterPhase .bwalk)

theorem encodeWhole_eq (s : State) : encodeWhole s = beginCommand .fcount s >>= encodeFromFcount := rfl

theorem decodeWhole_eq (s : State) : decodeWhole s = beginCommand .tdes s >>= decodeFromTdes := rfl

theorem grainFree_encodeWhole : GrainFree encodeWhole := by
  have htser : GrainFree encodeFromTser := grainFree_tser.bind fun _ _ => rfl
  have hbpack : GrainFree encodeFromBpack := grainFree_bpack.bind (htser.enterPhase _)
  have hcgen : GrainFree encodeFromCgen := grainFree_cgen.bind (grainFree_measureOutput.bind (hbpack.enterPhase _))
  have htbuild : GrainFree encodeFromTbuild := grainFree_tbuild.bind (hcgen.enterPhase _)
  have hfcount : GrainFree encodeFromFcount :=
    grainFree_fcount.bind fun g t => atGrain_ite (grainFree_endEmpty g t) (htbuild.enterPhase _ g t)
  exact (grainFree_beginCommand _).bind hfcount

theorem grainFree_decodeWhole : GrainFree decodeWhole := by
  have hbwalk : GrainFree decodeFromBwalk := grainFree_bwalk.bind fun _ _ => rfl
  have htdes : GrainFree decodeFromTdes := grainFree_tdes.bind (hbwalk.enterPhase _)
  exact (grainFree_beginCommand _).bind htdes

/-! ### A command run phase by phase -/

theorem thenRun_raiseErr (k : Nat) {t : State} (h : t.host = []) (e : Err) :
    thenRun k (.next (t.raiseErr e)) = .next (t.raiseErr e) := run_of_host_nil k h fun hb => nomatch hb

theorem thenRun_endCommand (k : Nat) {t : State} (h : t.host = []) (len : Nat) :
    thenRun k (.next (t.endCommand len)) = .next (t.endCommand len) := run_of_host_nil k h fun hb => nomatch hb

/-- With no host move to come, `k` steps of a command running in phase `p` are the rest `f` of the command. -/
def RunsTo (p : Phase) (k : Nat) (f : State → Except Stop State) : Prop :=
  ∀ s : State, s.host = [] → s.stat = .busy → s.phase = p → Sys2Proof.core.run k s = finish (f s)

theorem RunsTo.enterPhase {p : Phase} {k : Nat} {f : State → Except Stop State} (h : RunsTo p k f) {t : State}
    (hhost : t.host = []) (hb : t.stat = .busy) :
    thenRun k (finish (.ok (t.enterPhase p))) = finish (f (t.enterPhase p)) := h (t.enterPhase p) hhost hb rfl

/-- The step of a running phase. -/
theorem step_of_phase {s : State} {i : Instr} (hhost : s.host = []) (hb : s.stat = .busy)
    (hi : decodePhase (BitVec.ofNat 4 s.phase.number) = .ok i) : step s = sequenceAfter s.phase (exec i s) := by
  have hcore : coreMove s = .phase i s := by
    rw [coreMove, hb, hi]
  rw [step, nextMove_of_coreSlot (.inl ⟨hhost, rfl⟩), hcore]

/-- A phase's micro-operation `op`, and then what follows it: the sequence goes on to the rest of the command. -/
theorem runsTo_phase {p : Phase} {i : Instr} {k : Nat} {op rest : State → Except Stop State}
    (hi : decodePhase (BitVec.ofNat 4 p.number) = .ok i) (hop : ∀ s, exec i s = finish (op s))
    (hran : ∀ s, Ran Works s (op s))
    (hrest : ∀ t : State, t.host = [] → t.stat = .busy → thenRun k (finish (advance p t)) = finish (rest t)) :
    RunsTo p (k + 1) fun s => op s >>= rest := by
  rintro s hhost hb rfl
  have hworks := hran s
  show _ = finish (op s >>= rest)
  rw [run_succ, step_of_phase hhost hb hi, hop]
  rcases hr : op s with (⟨e, u⟩ | f) | t <;> rw [hr] at hworks
  · obtain ⟨-, ⟨⟨-, -, -, huhost, -⟩, -⟩, -⟩ := hworks
    exact thenRun_raiseErr k (huhost.trans hhost) e
  · rfl
  · obtain ⟨⟨⟨-, -, -, hthost, -⟩, -⟩, htb, -⟩ := hworks
    have htb := htb.trans hb
    refine Eq.trans ?_ (hrest t (hthost.trans hhost) htb)
    exact congrArg (thenRun k) (if_pos htb)

theorem runsTo_tser (k : Nat) : RunsTo .tser (k + 1) encodeFromTser :=
  runsTo_phase (i := .tser) rfl (fun _ => rfl) ran_tser fun _ hhost _ =>
    thenRun_endCommand k hhost _

theorem runsTo_bpack (k : Nat) : RunsTo .bpack (k + 2) encodeFromBpack :=
  runsTo_phase (i := .bpack) rfl (fun _ => rfl) ran_bpack fun _ => (runsTo_tser k).enterPhase

theorem runsTo_cgen (k : Nat) : RunsTo .cgen (k + 3) encodeFromCgen := by
  refine runsTo_phase (i := .cgen) rfl (fun _ => rfl) ran_cgen fun t hhost hb => ?_
  rw [advance]
  rcases measureOutput_cases t with h | h <;> rw [h]
  · exact thenRun_raiseErr (k + 2) (t := { t with hdrLen := headerLength t.code }) hhost _
  · exact (runsTo_bpack k).enterPhase (t := { t with hdrLen := headerLength t.code }) hhost hb

theorem runsTo_tbuild (k : Nat) : RunsTo .tbuild (k + 4) encodeFromTbuild :=
  runsTo_phase (i := .tbuild) rfl (fun _ => rfl) ran_tbuild fun _ => (runsTo_cgen k).enterPhase

theorem runsTo_fcount (k : Nat) : RunsTo .fcount (k + 5) encodeFromFcount := by
  refine runsTo_phase (i := .fcount) rfl (fun _ => rfl) ran_fcount fun t hhost hb => ?_
  rw [advance]
  split
  · rcases endEmpty_cases t with h | ⟨m, -, h⟩ <;> rw [h]
    · exact thenRun_raiseErr (k + 4) hhost _
    · exact thenRun_endCommand (k + 4) (t := { t with obuf := m }) hhost _
  · exact (runsTo_tbuild k).enterPhase hhost hb

theorem runsTo_bwalk (k : Nat) : RunsTo .bwalk (k + 1) decodeFromBwalk :=
  runsTo_phase (i := .bwalk) rfl (fun _ => rfl) ran_bwalk fun _ hhost _ =>
    thenRun_endCommand k hhost _

theorem runsTo_tdes (k : Nat) : RunsTo .tdes (k + 2) decodeFromTdes :=
  runsTo_phase (i := .tdes) rfl (fun _ => rfl) ran_tdes fun _ => (runsTo_bwalk k).enterPhase

/-- A command started in the finer model and run on is its start and the rest of it. -/
theorem RunsTo.start {p : Phase} {k : Nat} {f : State → Except Stop State} (h : RunsTo p k f) {s : State}
    (hhost : s.host = []) : thenRun k (finish (beginCommand p s)) = finish (beginCommand p s >>= f) := by
  rcases beginCommand_cases p s with ⟨-, hbegin⟩ | ⟨-, hbegin⟩ <;> rw [hbegin]
  · exact thenRun_raiseErr k (t := s.startCommand) hhost _
  · exact h.enterPhase (t := s.startCommand) hhost rfl

/-- An outcome with the parameters `c` in its state. -/
def outcomeWithCfg (c : Config) : Host.Outcome State Fault Refusal → Host.Outcome State Fault Refusal
  | .next t => .next { t with cfg := c }
  | .fault f => .fault f
  | .refused r => .refused r

/-- The grain changed and the parameters put back. -/
theorem outcomeWithCfg_atGrain {s : State} (g : Grain) {r : Except Stop State} (hr : Ran Frame s r) :
    outcomeWithCfg s.cfg (finish (atGrain g r)) = finish r := by
  have restore {t : State} (ht : Frame s t) : { t.withGrain g with cfg := s.cfg } = t := by
    obtain ⟨⟨hcfg, -⟩, -⟩ := ht
    rw [← hcfg]
    rfl
  rcases r with (⟨e, u⟩ | f) | t
  · exact congrArg (fun v : State => Host.Outcome.next (v.raiseErr e)) (restore hr.2)
  · rfl
  · exact congrArg Host.Outcome.next (restore hr)

/-- A command whose start in the finer model runs on to the rest of it, and which does not look at the grain, ends as
one atomic step of it does. -/
theorem RunsTo.agrees {p : Phase} {k : Nat} {f : State → Except Stop State} (h : RunsTo p k f) {s : State}
    (hhost : s.host = []) (hfree : GrainFree fun s => beginCommand p s >>= f)
    (hframe : Ran Frame s (beginCommand p s >>= f)) :
    thenRun k (finish (beginCommand p s)) =
      outcomeWithCfg s.cfg (finish (beginCommand p (s.withGrain .command) >>= f)) := by
  rw [h.start hhost, show (beginCommand p (s.withGrain .command) >>= f) = _ from hfree .command s,
    outcomeWithCfg_atGrain .command hframe]

/-- A command's start in the finer model and five steps more are one atomic step. -/
theorem exec_agrees {i : Instr} {s : State} (hi : i = .encode ∨ i = .decode) (hhost : s.host = [])
    (hb : s.stat ≠ .busy) (hg : s.cfg.grain = .microOp) :
    thenRun 5 (exec i s) = outcomeWithCfg s.cfg (exec i (s.withGrain .command)) := by
  rcases hi with rfl | rfl
  · have hatomic : exec .encode (s.withGrain .command) = finish (encodeWhole (s.withGrain .command)) :=
      execEncode_command hb rfl
    rw [hatomic, show exec .encode s = _ from execEncode_microOp hb hg]
    exact (runsTo_fcount 0).agrees hhost grainFree_encodeWhole (ran_encodeWhole s)
  · have hatomic : exec .decode (s.withGrain .command) = finish (decodeWhole (s.withGrain .command)) :=
      execDecode_command hb rfl
    rw [hatomic, show exec .decode s = _ from execDecode_microOp hb hg]
    exact (runsTo_tdes 3).agrees hhost grainFree_decodeWhole (ran_decodeWhole s)

theorem command_of_decodeCmd {v : Word} {i : Instr} (h : decodeCmd v = .ok i) : i = .encode ∨ i = .decode := by
  obtain ⟨hfmt, -⟩ := decodeCmd_eq_ok_iff.1 h
  cases i with
  | encode => exact .inl rfl
  | decode => exact .inr rfl
  | _ => cases hfmt

/-- Settles O50: the finer run is the command's parts one after the other, none of which looks at the grain. -/
theorem finerModelAgreesWithTheAtomicOne : Obligations.FinerModelAgreesWithTheAtomicOne := by
  intro s i v hi hb hg hhost
  rw [run_succ, stepRunsWrittenCommand s v [] i hhost hb hi]
  refine (exec_agrees (s := { s with host := [] }) (command_of_decodeCmd hi) rfl hb hg).trans ?_
  show outcomeWithCfg s.cfg (exec i { s with host := [], cfg := { s.cfg with grain := .command } }) = _
  cases exec i { s with host := [], cfg := { s.cfg with grain := .command } } <;> rfl

end Sys2Proof.Machine

/-! ## The codes that TBUILD and CGEN make -/

namespace Sys2Proof.Machine

/-! ### The code table that TBUILD and CGEN make -/

/-- TBUILD and CGEN from an empty arena and code table record the codewords of the counts (42_tree_builder.md R178,
43_code_table_generator.md R193). -/
theorem tbuild_cgen_of_present {f : Vector Nat 256} (h : presentSymbols (counts f) ≠ []) :
    ∃ (ns : List Node) (root : Nat) (code : Vector Bits 256),
      (∀ s : State, s.nodes = [] → s.freq = f → tbuild s = .ok { s with nodes := ns, root := root }) ∧
      (∀ s : State, s.code = Vector.replicate 256 [] →
        cgen { s with nodes := ns, root := root } = .ok { s with nodes := ns, root := root, code := code }) ∧
      ∀ b : Byte, code.get b.toFin = codeIn (codeTable (counts f)) b := by
  obtain ⟨T, root, hT, hroot, htree, hsyms⟩ := buildArena_tree h
  obtain ⟨code, hgen, hcode⟩ := generateCodes_of_present hT htree hsyms
  refine ⟨buildArena [] f, root, code, ?_, ?_, hcode⟩
  · rintro s hn rfl
    rw [tbuild, hn, setRoot_of_lowestLive (i := root) hroot]
  · intro s hc
    rw [cgen, hc, hgen]
    rfl

/-! ### The Kraft sum -/

/-- 43_code_table_generator.md R195: below a path of `d` bits the codewords fill the share `2^-d`; `m` bits are enough
for the longest. -/
theorem HTree.codes_kraft (T : HTree) (path : Bits) {m : Nat} (hm : path.length + T.depth ≤ m) :
    ((T.codes path).map fun p => 2 ^ (m - p.2.length)).sum = 2 ^ (m - path.length) := by
  induction T generalizing path with
  | leaf s w => rfl
  | node w l r ihl ihr =>
    rw [depth] at hm
    have hlen (bit : Bool) : (path ++ [bit]).length = path.length + 1 := by simp
    have hm' : m - path.length = m - (path.length + 1) + 1 := by omega
    rw [codes, List.map_append, List.sum_append, ihl _ (by rw [hlen]; omega), ihr _ (by rw [hlen]; omega), hlen, hlen,
      hm', pow_succ, Nat.mul_two]

theorem HTree.table_eq_codes {T : HTree} (h : 2 ≤ T.symbols.length) : T.table = T.codes [] := by
  cases T with
  | leaf s w => exact absurd h (Nat.not_succ_le_self 1)
  | node w l r => rfl

/-- A sum over a tree's codewords, symbol by symbol. -/
theorem HTree.sum_symbols {T : HTree} (hnd : T.symbols.Nodup) (g : Bits → Nat) :
    (T.symbols.map fun b => g (codeIn T.table b)).sum = (T.table.map fun p => g p.2).sum := by
  rw [← T.map_fst_table] at hnd ⊢
  rw [List.map_map]
  refine congrArg List.sum (List.map_congr_left fun p hp => ?_)
  show g (codeIn T.table p.1) = g p.2
  rw [codeIn_of_mem hnd (c := p.2) hp]

/-- 43_code_table_generator.md R195: no codeword is longer than the number of symbols less one, or one bit. -/
theorem codeTable_lengths {f : Byte → Nat} {b : Byte} (hb : b ∈ presentSymbols f) :
    (codeIn (codeTable f) b).length ≤ max 1 ((presentSymbols f).length - 1) := by
  obtain ⟨T, hT, hsyms⟩ := treeOf_of_present (List.ne_nil_of_mem hb)
  have hnd : (T.table.map Prod.fst).Nodup := T.map_fst_table.symm ▸ hsyms.nodup_iff.2 (presentSymbols_nodup f)
  have hmem : b ∈ T.table.map Prod.fst := T.map_fst_table.symm ▸ hsyms.symm.subset hb
  have hle := (HTree.table_lengths (codeIn_mem hnd hmem)).2
  have hdepth := T.depth_lt
  rw [hsyms.length_eq] at hdepth
  rw [codeTable, hT]
  show (codeIn T.table b).length ≤ _
  dsimp only at hle
  omega

theorem codeTable_kraft {f : Byte → Nat} (h : 2 ≤ (presentSymbols f).length) :
    ((presentSymbols f).map fun b => 2 ^ (255 - (codeIn (codeTable f) b).length)).sum = 2 ^ 255 := by
  obtain ⟨T, hT, hsyms⟩ := treeOf_of_present (List.ne_nil_of_length_pos (Nat.zero_lt_of_lt h))
  have hdepth := T.depth_lt.trans_le (hsyms.length_eq.trans_le (presentSymbols_length_le f))
  have htable : codeTable f = T.table := by rw [codeTable, hT]; rfl
  have hnd : T.symbols.Nodup := hsyms.nodup_iff.2 (presentSymbols_nodup f)
  rw [htable, ← (hsyms.map _).sum_eq, T.sum_symbols hnd fun c => 2 ^ (255 - c.length),
    HTree.table_eq_codes (hsyms.length_eq.symm ▸ h)]
  exact T.codes_kraft [] (by rw [List.length_nil]; omega)

theorem IsCode.one_le_length_iff {table : List (Byte × Bits)} {symbols : List Byte} (h : IsCode table symbols)
    (b : Byte) : 1 ≤ (codeIn table b).length ↔ b ∈ symbols := by
  refine ⟨fun hlen => ?_, fun hb => (h.lengths b hb).1⟩
  by_contra hb
  rw [h.others b hb] at hlen
  cases hlen

/-- Settles O33: CGEN's table is the functional one, which `IsCode` and the tree's shape speak of. -/
theorem codesArePrefixFreeAndComplete : Obligations.CodesArePrefixFreeAndComplete := by
  rintro s syms hn hc rfl hpos
  have hne : presentSymbols (counts s.freq) ≠ [] := List.ne_nil_of_length_pos hpos
  obtain ⟨ns, root, code, hbuild, hgen, hcode⟩ := tbuild_cgen_of_present hne
  have his := codeTable_isCode hne
  refine ⟨{ s with nodes := ns, root := root }, { s with nodes := ns, root := root, code := code },
    congrArg finish (hbuild s hn rfl), congrArg finish (hgen s hc), ?_⟩
  simp only [State.codeLen, hcode, his.one_le_length_iff]
  refine ⟨fun b => mem_presentSymbols, fun a b hab ha hb hpre => hab (his.prefixFree a ha b hb hpre), fun b => ?_,
    codeTable_kraft⟩
  by_cases hb : b ∈ presentSymbols (counts s.freq)
  · exact codeTable_lengths hb
  · rw [his.others b hb]
    exact Nat.zero_le _

end Sys2Proof.Machine

/-! ## ENCODE and DECODE end with the functional results -/

namespace Sys2Proof.Machine

/-! ### ENCODE -/

theorem Ends.after {R : State → State → Prop} (hR : ∀ {a b c}, R a b → R b c → R a c) {s t : State}
    {r : Except Stop State} (hst : R s t) (h : Ends R t r) : Ends R s r := by
  rcases r with (⟨e, u⟩ | f) | u
  · exact hR hst h
  · exact trivial
  · exact hR hst h

/-- A relation that taking an error keeps holds of the state a command answers. -/
theorem Ends.of_finish {R : State → State → Prop} {s t : State} {r : Except Stop State} (h : Ends R s r)
    (hR : ∀ u e, R s u → R s (u.raiseErr e)) (ht : finish r = .next t) : R s t := by
  rcases finish_next ht with rfl | ⟨e, u, rfl, rfl⟩
  · exact h
  · exact hR u e h

/-- What ENCODE leaves alone beside the host's side: the operand's length, the decoder's registers and the free-value
counter. -/
def SameDecoderSide (s t : State) : Prop :=
  t.n = s.n ∧ t.tb = s.tb ∧ t.tn = s.tn ∧ t.pb = s.pb ∧ t.payStart = s.payStart ∧ t.dt = s.dt ∧ t.lmax = s.lmax ∧
    t.acc = s.acc ∧ t.ocnt = s.ocnt ∧ t.freeCtr = s.freeCtr

theorem SameDecoderSide.refl (s : State) : SameDecoderSide s s := ⟨rfl, rfl, rfl, rfl, rfl, rfl, rfl, rfl, rfl, rfl⟩

theorem SameDecoderSide.trans {a b c : State} (h : SameDecoderSide a b) (k : SameDecoderSide b c) :
    SameDecoderSide a c := by
  obtain ⟨h₁, h₂, h₃, h₄, h₅, h₆, h₇, h₈, h₉, h₁₀⟩ := h
  obtain ⟨k₁, k₂, k₃, k₄, k₅, k₆, k₇, k₈, k₉, k₁₀⟩ := k
  exact ⟨k₁.trans h₁, k₂.trans h₂, k₃.trans h₃, k₄.trans h₄, k₅.trans h₅, k₆.trans h₆, k₇.trans h₇, k₈.trans h₈,
    k₉.trans h₉, k₁₀.trans h₁₀⟩

theorem ends_endEmpty (s : State) : Ends SameDecoderSide s (endEmpty s) := by
  rcases endEmpty_cases s with h | ⟨m, -, h⟩ <;> rw [h]
  · exact .refl s
  · exact SameDecoderSide.refl s

/-- 40_commands.md R139: a container longer than OBUF is noticed before a byte of it is written. -/
theorem encodeOutput_of_overflow {s : State}
    (h : s.cfg.obufBytes < headerLength s.code + ceil8 (codedBits s.code s.freq)) :
    encodeOutput s = .error (.raised .capacityExceeded { s with hdrLen := headerLength s.code }) := by
  have hmeasure : measureOutput s = .error (.raised .capacityExceeded { s with hdrLen := headerLength s.code }) :=
    if_pos h
  rw [encodeOutput, hmeasure]
  rfl

theorem CodesReady.ends_encodeOutput {s : State} {X : List Byte} (h : CodesReady s X) :
    Ends SameDecoderSide s (encodeOutput s) := by
  by_cases hroom : headerLength s.code + ceil8 (codedBits s.code s.freq) ≤ s.cfg.obufBytes
  · rw [h.payload_length] at hroom
    obtain ⟨ip, op, a, k, hout⟩ :=
      encodeOutput_of_room h.latched h.payload h.payload_length rfl (length_append_tableEntries s.code _ _) hroom
    rw [hout]
    exact .refl s
  · rw [encodeOutput_of_overflow (Nat.lt_of_not_le hroom)]
    exact .refl s

/-- 40_commands.md R135: TBUILD and CGEN of a counted operand leave its code table. -/
theorem encodeFromTbuild_of_counted {s : State} {X : List Byte} (hX : LatchedIs s X) (hne : X ≠ [])
    (hfreq : ∀ b, counts s.freq b = freqOf X b) (hnsym : s.nsym = (presentSymbols (freqOf X)).length)
    (hnodes : s.nodes = []) (hcode : s.code = Vector.replicate 256 []) (hobuf : s.obuf = []) (herr : s.err = .ok) :
    ∃ d, encodeFromTbuild s = encodeOutput d ∧ CodesReady d X ∧ SameDecoderSide s d ∧ d.cfg = s.cfg := by
  have hcounts : counts s.freq = freqOf X := funext hfreq
  obtain ⟨ns, root, code, hbuild, hgen, hcodes⟩ := tbuild_cgen_of_present (f := s.freq)
    (hcounts ▸ presentSymbols_freqOf_ne_nil hne)
  rw [hcounts] at hcodes
  refine ⟨{ s.enterPhase .cgen with nodes := ns, root := root, code := code }, ?_,
    ⟨hX, hfreq, hnsym, hcodes, hobuf, herr⟩, .refl s, rfl⟩
  rw [encodeFromTbuild, hbuild s hnodes rfl]
  show (cgen { s.enterPhase .cgen with nodes := ns, root := root } >>= _) = _
  rw [hgen (s.enterPhase .cgen) hcode]
  rfl

/-- 40_commands.md R135, R145: FCOUNT of a provided operand, and the two ways that follow. -/
theorem encodeWhole_cases {s : State} {X : List Byte} (h : CommandReady s X) :
    (X = [] ∧ ∃ u, encodeWhole s = endEmpty u ∧ SameDecoderSide s.startCommand u ∧ u.cfg = s.cfg) ∨
      X ≠ [] ∧ ∃ d, encodeWhole s = encodeOutput d ∧ CodesReady d X ∧ SameDecoderSide s.startCommand d ∧
        d.cfg = s.cfg := by
  have hlatched := latchedIs_startCommand h .fcount
  obtain ⟨f, hcounts, hcount⟩ := fcount_eq_ok hlatched rfl rfl
  have hwhole : encodeWhole s = encodeFromFcount (s.startCommand.enterPhase .fcount) := by
    rw [encodeWhole_eq, beginCommand_of_ready h]
    rfl
  rw [encodeFromFcount, hcount] at hwhole
  have hzero : (presentSymbols (freqOf X)).length = 0 ↔ X = [] :=
    List.length_eq_zero_iff.trans presentSymbols_freqOf_eq_nil
  by_cases hX : X = []
  · exact .inl ⟨hX, _, hwhole.trans (if_pos (hzero.2 hX)), .refl s.startCommand, rfl⟩
  · obtain ⟨d, hd, hready, hside, hcfg⟩ := encodeFromTbuild_of_counted
      (s := State.enterPhase { s.startCommand.enterPhase .fcount with
        freq := f, nsym := (presentSymbols (freqOf X)).length, ipos := 0 + X.length } .tbuild)
      hlatched hX hcounts rfl rfl rfl rfl rfl
    exact .inr ⟨hX, d, (hwhole.trans (if_neg fun h0 => hX (hzero.1 h0))).trans hd, hready, hside, hcfg⟩

theorem ends_encodeWhole {s : State} {X : List Byte} (h : CommandReady s X) :
    Ends SameDecoderSide s.startCommand (encodeWhole s) := by
  rcases encodeWhole_cases h with ⟨-, u, hu, hside, -⟩ | ⟨-, d, hd, hready, hside, -⟩
  · rw [hu]
    exact Ends.after .trans hside (ends_endEmpty u)
  · rw [hd]
    exact Ends.after .trans hside hready.ends_encodeOutput

/-- 40_commands.md R139, R145: ENCODE of an operand whose container does not fit in OBUF. -/
theorem encodeWhole_of_overflow {s : State} {X : List Byte} (h : CommandReady s X)
    (hcap : s.cfg.obufBytes < (encodeFn X).length) : ∃ u, encodeWhole s = .error (.raised .capacityExceeded u) := by
  rcases encodeWhole_cases h with ⟨rfl, u, hu, -, hcfg⟩ | ⟨hX, d, hd, hready, -, hcfg⟩
  · exact ⟨u, hu.trans (if_pos (hcfg ▸ hcap))⟩
  · rw [← hready.output_length hX, ← hcfg] at hcap
    exact ⟨_, hd.trans (encodeOutput_of_overflow hcap)⟩

/-- ENCODE of a provided operand ends with its container, or with CapacityExceeded where it does not fit. -/
theorem finish_encodeWhole_of_ready {s : State} {X : List Byte} (h : CommandReady s X) :
    ∃ t, finish (encodeWhole s) = .next t ∧
      if (encodeFn X).length ≤ s.cfg.obufBytes then EndedWith t (encodeFn X)
      else EndedWithError t .capacityExceeded := by
  by_cases hcap : (encodeFn X).length ≤ s.cfg.obufBytes
  · obtain ⟨t, ht, hend⟩ := encodeWhole_of_ready h hcap
    exact ⟨t, congrArg finish ht, (if_pos hcap).mpr hend⟩
  · obtain ⟨u, hu⟩ := encodeWhole_of_overflow h (Nat.lt_of_not_le hcap)
    exact ⟨_, congrArg finish hu, (if_neg hcap).mpr ⟨rfl, rfl, rfl, rfl, Memory.read_nil⟩⟩

/-- Settles O46: the machine's result is the functional one, and ENCODE leaves the decoder's side as the command start
cleared it. -/
theorem encodeGivesTheContainer : Obligations.EncodeGivesTheContainer := by
  intro s X hg hready
  have ⟨hidle, ⟨hlen, _⟩, _⟩ := hready
  obtain ⟨t, ht, hend⟩ := finish_encodeWhole_of_ready hready
  have hexec : exec .encode s = .next t := (execEncode_command hidle hg).trans ht
  obtain ⟨hn, htb, htn, hpb, hpay, hdt, hlmax, hacc, hocnt, hctr⟩ :=
    (ends_encodeWhole hready).of_finish (fun _ _ h => h) ht
  exact ⟨t, hexec, hend, (exec_frame hexec).1, hn.trans hlen.symm, htb, htn, hpb, hpay,
    ⟨hdt, hlmax, hacc, hocnt⟩, hctr⟩

/-! ### DECODE -/

/-- What DECODE's micro-operations leave alone, from the command's start to its end. -/
theorem ends_decodeWhole {s : State} {C : List Byte} (h : CommandReady s C) :
    Ends DecoderFrame s.startCommand (decodeWhole s) := by
  rw [decodeWhole_of_ready_eq h]
  refine Ends.bind (s := s.startCommand.enterPhase .tdes) .trans (ends_tdes _) fun a _ => ?_
  exact Ends.bind (s := a.enterPhase .bwalk) .trans (ends_bwalk _) fun b _ => .refl b

/-- DECODE of a provided operand ends with its bytes or its error. -/
theorem finish_decodeWhole_of_ready {s : State} {C : List Byte} (h : CommandReady s C) :
    ∃ t, finish (decodeWhole s) = .next t ∧
      match decodeFn s.cfg.obufBytes C with
      | .ok out => EndedWith t out
      | .error e => EndedWithError t e := by
  obtain ⟨hok, herr⟩ := decodeWhole_of_ready h
  cases hC : decodeFn s.cfg.obufBytes C with
  | ok out =>
    obtain ⟨t, ht, hend⟩ := hok out hC
    exact ⟨t, congrArg finish ht, hend⟩
  | error e =>
    obtain ⟨u, hu⟩ := herr e hC
    exact ⟨_, congrArg finish hu, rfl, rfl, rfl, rfl, Memory.read_nil⟩

/-- Settles O47: the machine's result is the functional one, and DECODE leaves the encoder's side as the command start
cleared it. -/
theorem decodeGivesTheBytesOrTheError : Obligations.DecodeGivesTheBytesOrTheError := by
  intro s C hg hready
  have ⟨hidle, ⟨hlen, _⟩, _⟩ := hready
  obtain ⟨t, ht, hend⟩ := finish_decodeWhole_of_ready hready
  have hexec : exec .decode s = .next t := (execDecode_command hidle hg).trans ht
  obtain ⟨hside, hfreq, hnsym, hnodes, hroot, hcode, hhdr, hbits, hpad, hacc, hk, hn, hctr⟩ :=
    (ends_decodeWhole hready).of_finish (fun _ _ h => h) ht
  exact ⟨t, hexec, hend, hside, hn.trans hlen.symm, hroot,
    ⟨hfreq, hnsym, hnodes, hcode, hbits, hpad, hacc, hk, hhdr⟩, hctr⟩

end Sys2Proof.Machine

/-! ## FCOUNT's counts -/

namespace Sys2Proof.Machine

/-- Settles O23: `fcount_of_latched` names the counts, NSYM and the cursor that FCOUNT leaves. -/
theorem fcountCountsEverySymbol : Obligations.FcountCountsEverySymbol := by
  intro s X hX hfreq hnsym
  obtain ⟨f, hcounts, -, hexec⟩ := fcount_of_latched hX hfreq hnsym
  exact ⟨f, _, hcounts, hexec⟩

end Sys2Proof.Machine

/-! ## What TBUILD selects, merges and leaves -/

namespace Sys2Proof.Machine

/-! ### The functional tree -/

/-- Settles O29: `buildArena_tree` carries the work list's tree over to the arena. -/
theorem tbuildBuildsTheFunctionalTree : Obligations.TbuildBuildsTheFunctionalTree := by
  intro s hn hp
  obtain ⟨T, root, hT, hroot, htree, -⟩ := buildArena_tree (List.ne_nil_of_length_pos hp)
  obtain ⟨i, hi, htb⟩ := tbuild_of_present hn hp
  obtain rfl : i = root := Option.some.inj (hi.symm.trans hroot)
  exact ⟨_, T, congrArg finish htb, hT, htree⟩

/-! ### The lowest candidate -/

theorem lowestLive_eq_none_iff {ns : List Node} : lowestLive ns = none ↔ ∀ nd ∈ ns, nd.live = false := by
  refine ⟨fun h => lowestFrom_eq_none (Option.map_eq_none_iff.1 h), fun h => ?_⟩
  by_contra hsome
  obtain ⟨i, hi⟩ := Option.ne_none_iff_exists'.1 hsome
  obtain ⟨nd, hnd, hlive⟩ := lowestLive_live hi
  rw [h nd (List.mem_of_getElem? hnd)] at hlive
  cases hlive

/-- A candidate that is before every other one is the lowest: the order of 42_tree_builder.md R171 has no two lowest. -/
theorem lowestLive_of_lowest {ns : List Node} {i : Nat} {nd : Node} (hnd : ns[i]? = some nd) (hlive : nd.live = true)
    (hlow : ∀ j nd', ns[j]? = some nd' → nd'.live = true → j ≠ i → nd.w < nd'.w ∨ (nd.w = nd'.w ∧ i < j)) :
    lowestLive ns = some i := by
  obtain ⟨j, hj⟩ := lowestLive_of_live (List.mem_of_getElem? hnd) hlive
  obtain ⟨md, hmd, hmlive⟩ := lowestLive_live hj
  by_cases hji : j = i
  · rw [← hji, hj]
  · have hbefore := hlow j md hmd hmlive hji
    have hafter := lowestLive_lowest hj hmd hnd hlive (Ne.symm hji)
    omega

/-- Settles O26: one way the selection's own laws, the other way the order has one lowest candidate only. -/
theorem lowestCandidateIsSelected : Obligations.LowestCandidateIsSelected := by
  refine fun ns => ⟨fun i => ⟨fun h => ?_, ?_⟩, lowestLive_eq_none_iff⟩
  · obtain ⟨nd, hnd, hlive⟩ := lowestLive_live h
    exact ⟨nd, hnd, hlive, fun j md hmd hmlive hne => lowestLive_lowest h hnd hmd hmlive hne⟩
  · rintro ⟨nd, hnd, hlive, hlow⟩
    exact lowestLive_of_lowest hnd hlive hlow

/-! ### What the merges leave of the leaves -/

theorem KeepsNodes.trans {ns ms ps : List Node} (h : KeepsNodes ns ms) (h' : KeepsNodes ms ps) : KeepsNodes ns ps := by
  intro i nd hnd
  obtain ⟨md, hmd, hk, hw⟩ := h i nd hnd
  obtain ⟨pd, hpd, hk', hw'⟩ := h' i md hmd
  exact ⟨pd, hpd, hk'.trans hk, hw'.trans hw⟩

/-- What merges make of an arena: its nodes stay, a node is added for each candidate taken away (42_tree_builder.md
R176), and the candidates' weights add up to the same sum. -/
structure MergesTo (ns ms : List Node) : Prop where
  keeps : KeepsNodes ns ms
  length : ms.length + liveCount ms = ns.length + liveCount ns
  weight : liveWeight ms = liveWeight ns

theorem MergesTo.refl (ns : List Node) : MergesTo ns ns := ⟨.refl ns, rfl, rfl⟩

theorem MergesTo.trans {ns ms ps : List Node} (h : MergesTo ns ms) (h' : MergesTo ms ps) : MergesTo ns ps :=
  ⟨h.keeps.trans h'.keeps, h'.length.trans h.length, h'.weight.trans h.weight⟩

theorem mergeStep_mergesTo (ns : List Node) : MergesTo ns (mergeStep ns) := by
  rcases mergeStep_cases ns with he | ⟨a, b, ha, hb, he⟩ <;> rw [he]
  · exact .refl ns
  obtain ⟨x, hx, hxl⟩ := lowestLive_live ha
  obtain ⟨y, hy, hyl⟩ := lowestLive_live hb
  obtain ⟨hcount₁, hweight₁⟩ := markMerged_live hx hxl
  obtain ⟨hcount₂, hweight₂⟩ := markMerged_live hy hyl
  rw [nodeWeight_markMerged] at hweight₂
  refine ⟨?_, ?_, ?_⟩
  · exact (keepsNodes_markMerged ns a).trans ((keepsNodes_markMerged _ b).trans (keepsNodes_append _ _))
  · rw [liveCount, List.countP_append, ← liveCount, List.length_append, markMerged_length, markMerged_length]
    simp only [List.length_singleton, List.countP_singleton, if_true]
    omega
  · have hsum : liveWeight (markMerged (markMerged ns a) b) + (nodeWeight ns a + nodeWeight ns b) = liveWeight ns := by
      omega
    simpa [liveWeight] using hsum

theorem mergeLoop_mergesTo (k : Nat) (ns : List Node) : MergesTo ns (mergeLoop k ns) := by
  induction k generalizing ns with
  | zero => exact .refl ns
  | succ k ih =>
    unfold mergeLoop
    split
    · exact (mergeStep_mergesTo ns).trans (ih _)
    · exact .refl ns

/-- The last node is a candidate: a parent would come after it (10_state.md R35). -/
theorem Forest.last_live {ns : List Node} (h : Forest ns) (hne : ns ≠ []) :
    ns[ns.length - 1]?.map Node.live = some true := by
  have hlt : ns.length - 1 < ns.length := Nat.sub_one_lt (mt List.length_eq_zero_iff.1 hne)
  cases hlast : ns[ns.length - 1].live with
  | true => rw [List.getElem?_eq_getElem hlt, Option.map_some, hlast]
  | false =>
    obtain ⟨i, hi⟩ := h.merged (ns.length - 1) (by rw [List.getElem?_eq_getElem hlt, Option.map_some, hlast])
    obtain ⟨l, r, hkind, hlr⟩ := (hi i).2 rfl
    obtain ⟨hl, hr, -⟩ := h.children i l r hkind
    have := lt_length_of_map hkind
    omega

theorem liveCount_pos_of_lowestLive {ns : List Node} {i : Nat} (h : lowestLive ns = some i) : 0 < liveCount ns := by
  obtain ⟨nd, hnd, hlive⟩ := lowestLive_live h
  exact List.countP_pos_iff.2 ⟨nd, List.mem_of_getElem? hnd, hlive⟩

/-- Where one candidate is left it has all the weight. -/
theorem nodeWeight_of_liveCount_one {ns : List Node} {i : Nat} (hc : liveCount ns = 1) (hi : lowestLive ns = some i) :
    nodeWeight ns i = liveWeight ns := by
  obtain ⟨nd, hnd, hlive⟩ := lowestLive_live hi
  obtain ⟨hcount, hweight⟩ := markMerged_live hnd hlive
  have hnone : liveCount (markMerged ns i) = 0 := by omega
  rw [liveCount, List.countP_eq_length_filter, List.length_eq_zero_iff] at hnone
  rw [liveWeight, hnone] at hweight
  simpa using hweight

/-! ### The leaves -/

theorem leafNodes_length (f : Vector Nat 256) : (leafNodes f).length = (presentSymbols (counts f)).length := by
  rw [leafNodes_eq_map, List.length_map]

theorem leafNodes_liveCount (f : Vector Nat 256) : liveCount (leafNodes f) = (presentSymbols (counts f)).length :=
  (leafNodes_holds f).liveCount.trans (startWork_length _)

theorem leafNodes_liveWeight (f : Vector Nat 256) :
    liveWeight (leafNodes f) = ((presentSymbols (counts f)).map (counts f)).sum := by
  have hall : (leafNodes f).filter Node.live = leafNodes f :=
    List.filter_eq_self.2 fun _ hnd => (mem_leafNodes hnd).1
  rw [liveWeight, hall, leafNodes_eq_map, List.map_map]
  rfl

/-! ### The arena -/

/-- Settles O27: the last node is a candidate and one candidate is left, so ROOT is the last node; the merges keep the
leaves and the sum of the weights. -/
theorem tbuildMakesTheArena : Obligations.TbuildMakesTheArena := by
  rintro s _ hn rfl hp
  obtain ⟨root, hroot, htb⟩ := tbuild_of_present hn hp
  have merges : MergesTo (leafNodes s.freq) (buildArena [] s.freq) := mergeLoop_mergesTo _ _
  have forest : Forest (buildArena [] s.freq) := mergeLoop_forest _ (leafNodes_forest s.freq)
  have hle : liveCount (buildArena [] s.freq) ≤ 1 := mergeLoop_liveCount _ (Nat.le_succ _)
  have hone : liveCount (buildArena [] s.freq) = 1 := Nat.le_antisymm hle (liveCount_pos_of_lowestLive hroot)
  have hlen : (buildArena [] s.freq).length = 2 * (presentSymbols (counts s.freq)).length - 1 := by
    have := merges.length
    rw [hone, leafNodes_length, leafNodes_liveCount] at this
    omega
  have hne : buildArena [] s.freq ≠ [] := List.ne_nil_of_length_pos (by omega)
  obtain rfl : root = 2 * (presentSymbols (counts s.freq)).length - 2 := by
    rw [← live_eq_lowestLive hle hroot (forest.last_live hne), hlen]
    rfl
  refine ⟨_, congrArg finish htb, hlen, ?_, fun i nd hnd => ⟨fun hlive => ?_, ?_⟩, fun i b hb => ?_⟩
  · rw [nodeWeight_of_liveCount_one hone hroot, merges.weight, leafNodes_liveWeight]
  · exact live_eq_lowestLive hle hroot (by rw [hnd, Option.map_some, hlive])
  · rintro rfl
    obtain ⟨md, hmd, hlive⟩ := lowestLive_live hroot
    obtain rfl : nd = md := Option.some.inj (hnd.symm.trans hmd)
    exact hlive
  · exact merges.keeps i { kind := .leaf b, w := counts s.freq b, live := true }
      (by rw [leafNodes_eq_map, List.getElem?_map, hb, Option.map_some])

/-- Settles O30: from counters that are 0 there is no leaf, so ROOT is the free value drawn. -/
theorem tbuildWithoutCandidates : Obligations.TbuildWithoutCandidates := by
  intro s hn hf
  have hsyms : presentSymbols (counts s.freq) = [] :=
    List.eq_nil_iff_forall_not_mem.2 fun b hb => by simpa [hf] using mem_presentSymbols.1 hb
  have hleaves : leafNodes s.freq = [] := by rw [leafNodes_eq_map, hsyms, List.map_nil]
  have harena : buildArena s.nodes s.freq = s.nodes := by
    rw [hn, buildArena, hleaves]
    rfl
  have hnone : lowestLive s.nodes = none := by
    rw [hn]
    rfl
  refine ⟨(s.drawFree 512).1, s.drawFree_lt 512 (by decide), ?_⟩
  show finish (tbuild s) = _
  rw [tbuild, harena]
  simp only [setRoot, hnone]
  rfl

end Sys2Proof.Machine

/-! ## Containers of permuted inputs -/

namespace Sys2Proof.Machine

theorem freqOf_eq_of_perm {X Y : List Byte} (h : X.Perm Y) : freqOf X = freqOf Y :=
  funext h.count_eq

theorem codedInput_length_of_perm {X Y : List Byte} (h : X.Perm Y) (table : List (Byte × Bits)) :
    (codedInput table X).length = (codedInput table Y).length :=
  (h.flatMap_right _).length_eq

/-- The empty container is a header with no entries. -/
theorem emptyContainer_length_eq_headerSize :
    emptyContainer.length = headerSize (codeTable (freqOf [])) (presentSymbols (freqOf [])) := by
  rw [presentSymbols_freqOf_eq_nil.2 rfl]
  rfl

/-- Settles O54: the header is made from the counts and the payload's length, which a permutation leaves alone. -/
theorem headerDependsOnTheCountsOnly : Obligations.HeaderDependsOnTheCountsOnly := by
  intro X Y h
  by_cases hX : X = []
  · subst hX
    obtain rfl : Y = [] := h.symm.eq_nil
    exact ⟨emptyContainer, [], [], rfl, rfl, rfl, emptyContainer_length_eq_headerSize⟩
  · have hY : Y ≠ [] := fun hnil => hX (hnil ▸ h).eq_nil
    have hlen := codedInput_length_of_perm h (codeTable (freqOf X))
    have hYeq := encodeFn_of_ne_nil hY
    rw [← freqOf_eq_of_perm h, ← hlen] at hYeq
    exact ⟨_, _, _, encodeFn_of_ne_nil hX, hYeq, by rw [pack_length, pack_length, hlen], headerOf_length ..⟩

end Sys2Proof.Machine

/-! ## CGEN records each symbol's path -/

namespace Sys2Proof.Machine

/-- NODE[i] at an index below 511 that the arena lists. -/
theorem nodeAt_of_getElem? {ns : List Node} {i : Nat} {nd : Node} (hi : i < 511) (hnd : ns[i]? = some nd) :
    nodeAt ns i = some nd := by
  rw [nodeAt, if_pos (show i < maxNodes from hi), List.getD_eq_getElem?_getD, hnd]
  rfl

/-- 43_code_table_generator.md R192: a leaf at the root has the one-bit code 0. -/
theorem generateCodes_of_leaf {ns : List Node} {root : Nat} {nd : Node} {b : Byte} (hat : nodeAt ns root = some nd)
    (hleaf : nd.kind = .leaf b) (code : Vector Bits 256) :
    generateCodes ns root code = .ok (code.set b.toNat [false] b.isLt) := by
  rw [generateCodes, hat, Option.map_some, hleaf]

/-- CGEN completes with the generated code table and changes nothing else. -/
theorem exec_cgen_of_generateCodes {s : State} {c : Vector Bits 256}
    (h : generateCodes s.nodes s.root s.code = .ok c) : exec .cgen s = .next { s with code := c } := by
  show finish (cgen s) = _
  rw [cgen, h]
  rfl

/-- Settles O31: the root is a leaf, so CGEN records one codeword. -/
theorem cgenGivesTheOnlySymbolZero : Obligations.CgenGivesTheOnlySymbolZero := fun s _ _ hroot hnd hleaf =>
  exec_cgen_of_generateCodes (generateCodes_of_leaf (nodeAt_of_getElem? hroot hnd) hleaf s.code)

/-- Settles O32: CGEN records the tree's codewords in order, and without doubled symbols none is overwritten. -/
theorem cgenRecordsThePathsOfTheTree : Obligations.CgenRecordsThePathsOfTheTree := fun s T hlen hT hnd =>
  ⟨recordCodes s.code T.table, exec_cgen_of_generateCodes (generateCodes_of_treeAt hlen hT s.code),
    recordCodes_get hnd s.code⟩

end Sys2Proof.Machine

/-! ## TDES against the functional parse, and containers cut short in their header -/

namespace Sys2Proof.Machine

/-- Settles O34. -/
theorem codeBytePlacesEachBit : Obligations.CodeBytePlacesEachBit := fun c j _ ht => codeByte_getLsbD c j ht

/-- Settles O41: TDES ends as the functional parse does, and an error it takes leaves what every ending of TDES
leaves. -/
theorem tdesReadsTheTable : Obligations.TdesReadsTheTable := by
  intro s X hX hdt hlmax
  obtain ⟨hok, herr⟩ := tdes_of_latched hX hdt hlmax
  refine ⟨fun p hp => congrArg finish (hok p hp), fun hnone => ?_⟩
  obtain ⟨u, hu⟩ := herr hnone
  have hexec : exec .tdes s = .next (u.raiseErr .malformedTable) := congrArg finish hu
  have hframe : DecoderFrame s (u.raiseErr .malformedTable) :=
    (ends_tdes s).of_finish (fun _ _ h => h) hexec
  exact ⟨_, hexec, ⟨rfl, rfl, rfl, rfl, Memory.read_nil⟩, hframe.1, hframe.2⟩

/-! ### A table cut short -/

/-- The bytes of a table's entries, one after another (44_table_codec.md R203). -/
def entriesBytes (table : List (Byte × Bits)) (symbols : List Byte) : List Byte :=
  symbols.flatMap fun s => entryBytes s (codeIn table s)

theorem entriesBytes_cons (table : List (Byte × Bits)) (s : Byte) (symbols : List Byte) :
    entriesBytes table (s :: symbols) = entryBytes s (codeIn table s) ++ entriesBytes table symbols :=
  List.flatMap_cons

/-- A header is its two bytes and the entries (30_encoding.md R94). -/
theorem headerOf_eq_cons (table : List (Byte × Bits)) (symbols : List Byte) (bits : Nat) :
    headerOf table symbols bits =
      tableSizeByte symbols.length :: BitVec.ofNat 8 (padCount bits).val :: entriesBytes table symbols :=
  rfl

/-- 44_table_codec.md R213: an entry that ends early is not read, whether its first two bytes or its codeword is cut. -/
theorem parseEntries_take_entryBytes {c : Bits} (hle : c.length ≤ 255) (k off : Nat) (sym : Byte) {m : Nat}
    (hm : m < (entryBytes sym c).length) : parseEntries (k + 1) off ((entryBytes sym c).take m) = none := by
  match m with
  | 0 => rfl
  | 1 => rfl
  | m + 2 =>
    have hbyte : (BitVec.ofNat 8 c.length).toNat = c.length := by
      rw [BitVec.toNat_ofNat]
      omega
    rw [entryBytes_length, entryLength] at hm
    show parseEntries (k + 1) off (sym :: BitVec.ofNat 8 c.length :: (pack c).take m) = none
    rw [parseEntries, if_pos (.inr (by rw [hbyte, List.length_take, pack_length]; omega))]

/-- Entries cut short are not all read: those before the cut are read as they were written, the one at the cut is
not. -/
theorem parseEntries_take_entriesBytes {table : List (Byte × Bits)} {symbols : List Byte}
    (hlen : ∀ s ∈ symbols, 1 ≤ (codeIn table s).length ∧ (codeIn table s).length ≤ 255) (off : Nat) {m : Nat}
    (hm : m < (entriesBytes table symbols).length) :
    parseEntries symbols.length off ((entriesBytes table symbols).take m) = none := by
  induction symbols generalizing off m with
  | nil => exact absurd hm (Nat.not_lt_zero m)
  | cons s symbols ih =>
    obtain ⟨hs, hrest⟩ := List.forall_mem_cons.1 hlen
    rw [entriesBytes_cons, List.length_append] at hm
    rw [List.length_cons, entriesBytes_cons]
    by_cases hcut : m < (entryBytes s (codeIn table s)).length
    · rw [List.take_append_of_le_length hcut.le]
      exact parseEntries_take_entryBytes hs.2 _ _ _ hcut
    · rw [List.take_append, List.take_of_length_le (Nat.le_of_not_lt hcut), parseEntries_entryBytes hs.1 hs.2,
        ih hrest _ (by omega), Option.map_none]

/-- 44_table_codec.md R210 to R212: after a written header that does not make the empty container, the entries
decide. -/
theorem parseContainer_header_cons {n : Nat} (hpos : 1 ≤ n) (hle : n ≤ 256) (bits : Nat) {rest : List Byte}
    (hempty : tableSizeByte n :: BitVec.ofNat 8 (padCount bits).val :: rest ≠ emptyContainer) :
    parseContainer (tableSizeByte n :: BitVec.ofNat 8 (padCount bits).val :: rest) =
      (parseEntries n 2 rest).map fun q =>
        { tb := tableSizeByte n, pb := BitVec.ofNat 8 (padCount bits).val, tn := n, entries := q.1, payStart := q.2 } := by
  have hpad : ¬ 7 < (BitVec.ofNat 8 (padCount bits).val).toNat := by
    rw [toNat_padByte]
    omega
  rw [parseContainer, if_neg fun ⟨ht, hp, hrest⟩ => hempty (by rw [ht, hp, hrest]; rfl), if_neg hpad,
    entryCount_tableSizeByte hpos hle]

theorem decodeFn_of_parse_none {C : List Byte} (h : parseContainer C = none) (cap : Nat) :
    decodeFn cap C = .error .malformedTable := by
  rw [decodeFn, h]

/-- 46_decoder.md R256: a container that ends where its table ends decodes to nothing. -/
theorem decodeFn_of_no_payload {C : List Byte} {p : Parsed} (h : parseContainer C = some p)
    (hend : C.length ≤ p.payStart) (cap : Nat) : decodeFn cap C = .ok [] := by
  rw [decodeFn, h]
  show walkFn _ _ _ (scannedBits (C.drop p.payStart) _) [] [] = _
  rw [List.drop_eq_nil_of_le hend, scannedBits_nil]
  rfl

section
variable {table : List (Byte × Bits)} {symbols : List Byte} (hcode : IsCode table symbols)
  (hne : symbols ≠ []) (hle : symbols.length ≤ 256)
include hcode hne hle

/-- 44_table_codec.md R216: a header cut short is MalformedTable, if it is not cut to the empty container. -/
theorem decodeFn_take_headerOf (bits cap : Nat) {k : Nat} (hk : k < headerSize table symbols)
    (hempty : (headerOf table symbols bits).take k ≠ emptyContainer) :
    decodeFn cap ((headerOf table symbols bits).take k) = .error .malformedTable := by
  refine decodeFn_of_parse_none ?_ cap
  match k with
  | 0 => rfl
  | 1 => rfl
  | m + 2 =>
    rw [headerOf_eq_cons, List.take_succ_cons, List.take_succ_cons] at hempty ⊢
    have hm : m < (entriesBytes table symbols).length := by
      rw [← headerOf_length table symbols bits, headerOf_eq_cons, List.length_cons, List.length_cons] at hk
      omega
    rw [parseContainer_header_cons (List.length_pos_iff.2 hne) hle bits hempty,
      parseEntries_take_entriesBytes hcode.lengths 2 hm, Option.map_none]

/-- 46_decoder.md R256: a header without a payload decodes to nothing. -/
theorem decodeFn_headerOf (bits cap : Nat) (hempty : headerOf table symbols bits ≠ emptyContainer) :
    decodeFn cap (headerOf table symbols bits) = .ok [] := by
  have hentries := parseEntries_flatMap hcode.lengths 2 []
  rw [List.append_nil, ← entriesBytes] at hentries
  rw [headerOf_eq_cons] at hempty
  have hparse := parseContainer_header_cons (List.length_pos_iff.2 hne) hle bits hempty
  rw [hentries] at hparse
  exact decodeFn_of_no_payload hparse (headerOf_length table symbols bits).le cap

end

/-- A header with an entry is longer than the empty container. -/
theorem two_lt_headerSize (table : List (Byte × Bits)) {symbols : List Byte} (hne : symbols ≠ []) :
    2 < headerSize table symbols := by
  obtain ⟨s, symbols, rfl⟩ := List.exists_cons_of_ne_nil hne
  rw [headerSize, List.map_cons, List.sum_cons, entryLength]
  omega

/-- A container cut before its payload is a part of its header. -/
theorem encodeFn_take_of_le {X : List Byte} {k : Nat} (hX : X ≠ [])
    (hk : k ≤ headerSize (codeTable (freqOf X)) (presentSymbols (freqOf X))) : (encodeFn X).take k =
      (headerOf (codeTable (freqOf X)) (presentSymbols (freqOf X)) (codedInput (codeTable (freqOf X)) X).length).take
        k := by
  rw [encodeFn_of_ne_nil hX, List.take_append_of_le_length (by rwa [headerOf_length])]

theorem ne_emptyContainer_of_length {C : List Byte} (h : C.length ≠ 2) : C ≠ emptyContainer := fun hC => h (hC ▸ rfl)

/-- Settles O55: up to the header's end the container is its header, and every part of that but the bytes 00 00 is read
entry by entry. -/
theorem truncationInsideTheTable : Obligations.TruncationInsideTheTable := by
  intro X cap k h hX hh
  have hne := presentSymbols_freqOf_ne_nil hX
  have hcode := codeTable_isCode hne
  have hle := presentSymbols_length_le (freqOf X)
  have htwo := two_lt_headerSize (codeTable (freqOf X)) hne
  have hsize := headerOf_length (codeTable (freqOf X)) (presentSymbols (freqOf X))
    (codedInput (codeTable (freqOf X)) X).length
  rw [← hh] at htwo hsize
  have htake (hk : k ≤ h) := encodeFn_take_of_le hX (hh ▸ hk)
  have hlength (hk : k < h) : ((encodeFn X).take k).length = k := by
    rw [htake hk.le, List.length_take, hsize, Nat.min_eq_left hk.le]
  have hcut (hk : k < h) (hempty : (encodeFn X).take k ≠ emptyContainer) :
      decodeFn cap ((encodeFn X).take k) = .error .malformedTable := by
    rw [htake hk.le] at hempty ⊢
    exact decodeFn_take_headerOf hcode hne hle _ cap (hh ▸ hk) hempty
  refine ⟨fun hlo hk => ?inside, fun hk => ?atEnd, fun hk hempty => ?twoBytes, fun hk => ?shorter⟩
  case inside => exact hcut hk (ne_emptyContainer_of_length (by rw [hlength hk]; omega))
  case atEnd =>
    rw [htake hk.le, hk, List.take_of_length_le hsize.le]
    exact decodeFn_headerOf hcode hne hle _ cap (ne_emptyContainer_of_length (by rw [hsize]; omega))
  case twoBytes => exact hcut (by omega) hempty
  case shorter => exact hcut (by omega) (ne_emptyContainer_of_length (by rw [hlength (by omega)]; omega))

end Sys2Proof.Machine

/-! ## BPACK and its padding count -/

namespace Sys2Proof.Machine

/-- 45_bit_packer.md R234: whole bytes need no padding. -/
theorem padCount_eq_zero_of_mod {L : Nat} (h : L % 8 = 0) : padCount L = 0 := by
  apply Fin.ext
  rw [padCount_val, h]
  rfl

/-- Settles O36: the count is a remainder modulo 8, so 8 is out of its range. -/
theorem paddingCountIsNeverEight : Obligations.PaddingCountIsNeverEight := by
  refine ⟨fun L => ⟨padCount_val L, ?atMost, padCount_eq_zero_of_mod⟩, ?table⟩
  case atMost => exact Nat.le_of_lt_succ (padCount L).isLt
  case table => decide

/-- Settles O38: `bpack_of_latched` names what the loop and the last byte leave. -/
theorem bpackPacksTheCodewords : Obligations.BpackPacksTheCodewords := by
  intro s X B hX hB hroom
  obtain ⟨ip, op, a, k, hpack⟩ := bpack_of_latched hX hB hroom
  exact ⟨ip, op, a, k, congrArg finish hpack⟩

end Sys2Proof.Machine

/-! ## BWALK, bit by bit and over the whole payload -/

namespace Sys2Proof.Machine

/-! ### One payload bit -/

/-- 46_decoder.md R255: a symbol that finds OBUF full. -/
theorem emitSymbol_of_full {s : State} (sym : Byte) (h : s.ocnt = s.cfg.obufBytes) :
    emitSymbol sym s = .error (.raised .capacityExceeded s) := if_pos h

/-- 46_decoder.md R251: a symbol that finds room. -/
theorem emitSymbol_of_room {s : State} (sym : Byte) (h : s.ocnt < s.cfg.obufBytes) :
    emitSymbol sym s = .ok { s with
      acc := [], ocnt := s.ocnt + 1, obuf := s.obuf.write s.ocnt sym, opos := s.ocnt + 1 } := by
  rw [emitSymbol, if_neg h.ne, obufWrite_of_lt sym h]
  rfl

/-- 46_decoder.md R252: a bit that completes a codeword. -/
theorem scanBit_of_match {s : State} {bit : Bool} {sym : Byte} (h : lookup s.dt (s.acc ++ [bit]) = some sym) :
    scanBit bit s = emitSymbol sym { s with acc := s.acc ++ [bit] } := by
  simp only [scanBit, h]

/-- 46_decoder.md R252, R258: a bit that completes no codeword. -/
theorem scanBit_of_no_match {s : State} {bit : Bool} (h : lookup s.dt (s.acc ++ [bit]) = none) :
    scanBit bit s = if s.lmax < (s.acc ++ [bit]).length
      then .error (.raised .unknownCode { s with acc := s.acc ++ [bit] })
      else .ok { s with acc := s.acc ++ [bit] } := by
  simp only [scanBit, h]

/-- Settles O43: the probe's answer, then LMAX or the room left in OBUF. -/
theorem onePayloadBit : Obligations.OnePayloadBit := by
  rintro s bit _ rfl
  refine ⟨fun hnone hle => ?goesOn, fun hnone hlong => ?unknownCode, fun sym hsym hfull => ?full,
    fun sym hsym hroom => ?emits⟩
  case goesOn => exact (scanBit_of_no_match hnone).trans (if_neg hle.not_gt)
  case unknownCode => exact (scanBit_of_no_match hnone).trans (if_pos hlong)
  case full => exact (scanBit_of_match hsym).trans (emitSymbol_of_full sym hfull)
  case emits => exact ⟨s.ocnt + 1, (scanBit_of_match hsym).trans (emitSymbol_of_room sym hroom)⟩

/-! ### The whole payload -/

/-- Settles O44: BWALK ends as the functional walk does, and an error it takes leaves what every ending of BWALK
leaves. -/
theorem bwalkWalksThePayload : Obligations.BwalkWalksThePayload := by
  intro s X hX _
  obtain ⟨hok, herr⟩ := bwalk_of_latched hX
  cases hwalk : walkFn s.dt s.lmax s.cfg.obufBytes (scannedBits (X.drop s.payStart) s.pb.toNat) [] [] with
  | ok out =>
    obtain ⟨ip, op, hbwalk⟩ := hok out hwalk
    exact ⟨ip, op, congrArg finish hbwalk⟩
  | error e =>
    obtain ⟨u, hu⟩ := herr e hwalk
    have hexec : exec .bwalk s = .next (u.raiseErr e) := congrArg finish hu
    have hframe : DecoderFrame s (u.raiseErr e) := (ends_bwalk s).of_finish (fun _ _ h => h) hexec
    exact ⟨_, hexec, ⟨rfl, rfl, rfl, rfl, Memory.read_nil⟩, hframe.1, hframe.2⟩

/-- The loop of no payload byte leaves what BWALK starts with. -/
theorem bwalk_of_no_payload {s : State} (h : s.payStart = s.n) :
    bwalk s = .ok { s with acc := [], ocnt := 0, ipos := s.payStart, opos := 0 } := by
  rw [bwalk, h, Nat.sub_self]
  rfl

/-- Settles O45: no IBUF byte is read and no bit is left in the accumulator. -/
theorem bwalkWithoutPayload : Obligations.BwalkWithoutPayload :=
  fun s h => ⟨s.payStart, 0, congrArg finish (bwalk_of_no_payload h)⟩

end Sys2Proof.Machine

/-! ## Which errors a command ends with -/

namespace Sys2Proof.Machine

/-! ### The errors a micro-operation raises -/

/-- An error raised is of one of the kinds `K`. -/
def RaisesOnly {α : Type} (K : List Err) (r : Except Stop α) : Prop := ∀ e u, r = .error (.raised e u) → e ∈ K

theorem RaisesOnly.mono {α : Type} {K L : List Err} {r : Except Stop α} (h : RaisesOnly K r) (hKL : K ⊆ L) :
    RaisesOnly L r := fun e u hr => hKL (h e u hr)

theorem raisesOnly_ok {α : Type} {K : List Err} (a : α) : RaisesOnly K (.ok a) := fun _ _ h => by cases h

theorem raisesOnly_fault {α : Type} {K : List Err} (f : Fault) : RaisesOnly (α := α) K (.error (.fault f)) :=
  fun _ _ h => by cases h

theorem raisesOnly_raised {α : Type} {K : List Err} {e : Err} (he : e ∈ K) (u : State) :
    RaisesOnly (α := α) K (.error (.raised e u)) := by
  rintro _ _ ⟨⟩
  exact he

/-- One micro-operation, or one access, after another. -/
theorem RaisesOnly.bind {α β : Type} {K : List Err} {r : Except Stop α} {f : α → Except Stop β} (h : RaisesOnly K r)
    (hf : ∀ a, RaisesOnly K (f a)) : RaisesOnly K (r >>= f) := by
  cases r with
  | ok a => exact hf a
  | error x =>
    rintro e u ⟨⟩
    exact h e u rfl

theorem raisesOnly_ibufRead {K : List Err} (s : State) (i : Nat) : RaisesOnly K (ibufRead s i) := by
  intro e u h
  obtain ⟨f, hf⟩ := ibufRead_error h
  cases hf

theorem raisesOnly_ibufReadRange {K : List Err} (s : State) (i k : Nat) : RaisesOnly K (ibufReadRange s i k) := by
  rcases ibufReadRange_cases s i k with ⟨bs, h, -⟩ | ⟨f, h⟩ <;> rw [h]
  · exact raisesOnly_ok bs
  · exact raisesOnly_fault f

theorem raisesOnly_obufWrite {K : List Err} (s : State) (i : Nat) (b : Byte) : RaisesOnly K (obufWrite s i b) := by
  rcases obufWrite_cases s i b with ⟨-, h⟩ | ⟨-, h⟩ <;> rw [h]
  · exact raisesOnly_ok _
  · exact raisesOnly_fault _

/-! ### DECODE -/

theorem readHeader_raisesOnly (s : State) : RaisesOnly [.malformedTable] (readHeader s) := by
  unfold readHeader
  split
  · exact raisesOnly_raised (.head _) s
  · refine (raisesOnly_ibufRead s 0).bind fun t => (raisesOnly_ibufRead s 1).bind fun p => ?_
    dsimp only
    split_ifs
    · exact raisesOnly_ok _
    · exact raisesOnly_raised (.head _) _
    · exact raisesOnly_ok _

theorem readEntry_raisesOnly (s : State) : RaisesOnly [.malformedTable] (readEntry s) := by
  unfold readEntry
  split
  · exact raisesOnly_raised (.head _) s
  · refine (raisesOnly_ibufRead s _).bind fun sym => (raisesOnly_ibufRead s _).bind fun len => ?_
    split_ifs
    · exact raisesOnly_raised (.head _) s
    · exact raisesOnly_raised (.head _) s
    · exact (raisesOnly_ibufReadRange s _ _).bind fun bs => raisesOnly_ok _

theorem readEntries_raisesOnly (k : Nat) (s : State) : RaisesOnly [.malformedTable] (readEntries k s) := by
  induction k generalizing s with
  | zero => exact raisesOnly_ok s
  | succ k ih => exact (readEntry_raisesOnly s).bind ih

/-- 44_table_codec.md R213: every check of TDES raises MalformedTable. -/
theorem tdes_raisesOnly (s : State) : RaisesOnly [.malformedTable] (tdes s) :=
  (readHeader_raisesOnly s).bind fun t => (readEntries_raisesOnly t.tn { t with ipos := 2 }).bind fun _ =>
    raisesOnly_ok _

theorem emitSymbol_raisesOnly (sym : Byte) (s : State) : RaisesOnly [.capacityExceeded] (emitSymbol sym s) := by
  unfold emitSymbol
  split
  · exact raisesOnly_raised (.head _) s
  · exact (raisesOnly_obufWrite s _ _).bind fun t => raisesOnly_ok _

theorem scanBit_raisesOnly (bit : Bool) (s : State) : RaisesOnly [.unknownCode, .capacityExceeded] (scanBit bit s) := by
  cases h : lookup s.dt (s.acc ++ [bit]) with
  | some sym =>
    rw [scanBit_of_match h]
    exact (emitSymbol_raisesOnly sym _).mono (by decide)
  | none =>
    rw [scanBit_of_no_match h]
    split
    · exact raisesOnly_raised (.head _) _
    · exact raisesOnly_ok _

theorem scanBits_raisesOnly (bits : Bits) (s : State) :
    RaisesOnly [.unknownCode, .capacityExceeded] (scanBits bits s) := by
  induction bits generalizing s with
  | nil => exact raisesOnly_ok s
  | cons bit bits ih => exact (scanBit_raisesOnly bit s).bind ih

theorem walkBytes_raisesOnly (k : Nat) (s : State) : RaisesOnly [.unknownCode, .capacityExceeded] (walkBytes k s) := by
  induction k generalizing s with
  | zero => exact raisesOnly_ok s
  | succ k ih =>
    exact (raisesOnly_ibufRead s _).bind fun b => (scanBits_raisesOnly _ s).bind fun t =>
      ih { t with ipos := t.ipos + 1 }

/-- 46_decoder.md R255, R257, R258: the payload's three errors. -/
theorem bwalk_raisesOnly (s : State) :
    RaisesOnly [.truncatedPayload, .unknownCode, .capacityExceeded] (bwalk s) := by
  refine ((walkBytes_raisesOnly _ _).mono (by decide)).bind fun t => ?_
  split
  · exact raisesOnly_raised (.head _) t
  · exact raisesOnly_ok t

theorem beginCommand_raisesOnly (p : Phase) (s : State) : RaisesOnly [.capacityExceeded] (beginCommand p s) := by
  rcases beginCommand_cases p s with ⟨-, h⟩ | ⟨-, h⟩ <;> rw [h]
  · exact raisesOnly_raised (.head _) _
  · exact raisesOnly_ok _

theorem decodeWhole_raisesOnly (s : State) :
    RaisesOnly [.malformedTable, .truncatedPayload, .unknownCode, .capacityExceeded] (decodeWhole s) := by
  refine ((beginCommand_raisesOnly _ s).mono (by decide)).bind fun a => ?_
  refine ((tdes_raisesOnly a).mono (by decide)).bind fun b => ?_
  exact ((bwalk_raisesOnly _).mono (by decide)).bind fun c => raisesOnly_ok _

/-- A normal end leaves the ERR = OK of the command's start. -/
theorem decodeWhole_err_ok (s : State) : OkIs (fun t => t.err = .ok) (decodeWhole s) := by
  refine OkIs.bind (beginCommand_active _ s) fun a ha => ?_
  refine OkIs.bind (ha.ran (ran_tdes a)) fun b hb => ?_
  refine OkIs.bind ((hb.enterPhase .bwalk).ran (ran_bwalk _)) fun c ⟨_, herr, _⟩ => ?_
  exact okIs_ok herr

theorem decodeWhole_err_cases {s t : State} (h : finish (decodeWhole s) = .next t) :
    t.err = .ok ∨ t.err ∈ [.malformedTable, .truncatedPayload, .unknownCode, .capacityExceeded] := by
  rcases finish_next h with hok | ⟨e, u, hraised, rfl⟩
  · exact .inl (decodeWhole_err_ok s t hok)
  · exact .inr (decodeWhole_raisesOnly s e u hraised)

/-! ### ENCODE -/

/-- Where every byte of an operand that fits is written, the operand is provided. -/
theorem exists_commandReady {s : State} (hb : s.stat ≠ .busy) (hn : s.inLen ≤ s.cfg.ibufBytes)
    (hw : ∀ i < s.inLen, s.ibuf.read i ≠ none) : ∃ X, CommandReady s X := by
  refine ⟨(List.range s.inLen).map fun i => (s.ibuf.read i).getD 0, hb, ⟨by simp, fun i hi => ?_⟩,
    by simpa using hn⟩
  have hi : i < s.inLen := by simpa using hi
  obtain ⟨b, hread⟩ := Option.ne_none_iff_exists'.1 (hw i hi)
  simp [hi, hread]

/-- ENCODE checks its input's length, stops at an unwritten operand byte, and of a provided operand answers the
container or CapacityExceeded. -/
theorem encodeWhole_err_cases {s t : State} (hb : s.stat ≠ .busy) (h : finish (encodeWhole s) = .next t) :
    t.err = .ok ∨ t.err = .capacityExceeded := by
  by_cases hn : s.cfg.ibufBytes < s.inLen
  · rw [encodeWhole, beginCommand_of_gt hn] at h
    cases h
    exact .inr rfl
  have hn := Nat.le_of_not_lt hn
  by_cases hw : ∃ i < s.inLen, s.ibuf.read i = none
  · obtain ⟨i, hi, hr⟩ := hw
    rw [encodeWhole_unwritten hn hi hr] at h
    cases h
  obtain ⟨X, hX⟩ := exists_commandReady hb hn fun i hi hr => hw ⟨i, hi, hr⟩
  obtain ⟨u, hu, hend⟩ := finish_encodeWhole_of_ready hX
  cases hu.symm.trans h
  split at hend <;> obtain ⟨-, -, herr, -⟩ := hend
  · exact .inl herr
  · exact .inr herr

/-! ### The commands as instructions -/

/-- Settles O21: a BUSY state is refused, and from any other the instruction is the whole command. -/
theorem errorKindsOfEachCommand : Obligations.ErrorKindsOfEachCommand := by
  intro s t hg
  refine ⟨fun h => ?encode, fun h => ?decode⟩
  case encode =>
    have hb : s.stat ≠ .busy := fun hb => by cases (execEncode_busy hb).symm.trans h
    exact encodeWhole_err_cases hb ((execEncode_command hb hg).symm.trans h)
  case decode =>
    have hb : s.stat ≠ .busy := fun hb => by cases (execDecode_busy hb).symm.trans h
    simpa using decodeWhole_err_cases ((execDecode_command hb hg).symm.trans h)

end Sys2Proof.Machine
